-- ==== Sys2Proof/Word.lean ====
section
/-! DEFINITION. The two word types of the block (spec 00 rule R7, 10 rule R12). -/

namespace Sys2Proof

/-- An unsigned 8-bit value, the unit of every buffer (rules R7, R50). -/
abbrev Byte := BitVec 8

/-- A host-visible register (rule R12). -/
abbrev Word := BitVec 32

end Sys2Proof
end

