-- ==== Sys2Proof/Config.lean ====
section
/-! DEFINITION. What a build of the block fixes (spec 00 rule R5), the fixed sizes of the formats, and the
free values that stand for every `draw` of the spec (rule R7: "a model takes it as a free input under no
law"). -/

namespace Sys2Proof

/-- The four byte buffers of rule R50. -/
inductive BufId where
  | ibuf
  | mibuf
  | obuf
  | mobuf
  deriving DecidableEq, Repr

/-- The four buffers, in the order of rule R50's table. -/
def BufId.all : List BufId := [.ibuf, .mibuf, .obuf, .mobuf]

/-- How a buffer's bytes lie on the bus: "the packing the platform defines" (rule R54). DESIGN CHOICE (unsafe, log 24):
it has this form. Each group of as many consecutive bytes as `lanes` has entries takes
`period` bus addresses, byte `k` of the group the one `lanes[k]` beyond the group's first. Addresses that are left carry
nothing. -/
structure Packing where
  period : Nat
  lanes : List Nat
  deriving DecidableEq, Repr

/-- The build parameters of rule R5. `w`, `l`: LZ77 window and lookahead; `inMax`, `outMax`: buffer
capacities; `descRle`, `descHuffman`, `descLz77`: the description texts `DESC[a]`; `base`: the bus address
of the register block. `ibufBase` to `mobufBase`: the bus addresses of the four buffers, platform parameters too
(rule R60). `ibufPacking` to `mobufPacking`: the packing of each buffer on the bus (rule R54). `wordLanes`: the byte
lanes of a word (rule R54): byte `k` of the number, counted from the least significant, is the bus byte `wordLanes[k]`
beyond the word's address. "A model takes each `OPEN` parameter as an argument": a state carries them in its field
`build` (log 1). -/
structure Build where
  w : Nat
  l : Nat
  inMax : Nat
  outMax : Nat
  base : Nat
  ibufBase : Nat
  mibufBase : Nat
  obufBase : Nat
  mobufBase : Nat
  ibufPacking : Packing
  mibufPacking : Packing
  obufPacking : Packing
  mobufPacking : Packing
  wordLanes : List Nat
  descRle : List Byte
  descHuffman : List Byte
  descLz77 : List Byte
  deriving DecidableEq, Repr

namespace Config

/-- Largest RLE count in one record (rule R5, `RLE_MAXRUN`). -/
def rleMaxRun : Nat := 255
/-- RLE record size in bytes (rule R5, `RLE_REC`). -/
def rleRec : Nat := 2
/-- LZ77 record size in bytes (rule R5, `LZ_REC`). -/
def lzRec : Nat := 4
/-- Number of registered algorithms (rule R5, `N_ALG`). -/
def nAlg : Nat := 3
/-- Largest number of nodes in a Huffman tree (rule R5, `NODE_MAX`). -/
def nodeMax : Nat := 511
/-- Serialised tree node record size in bytes (rule R5, `NODE_REC`). -/
def nodeRec : Nat := 10

/-- The build of the reset state: `W` = 4096, `L` = 255 and empty descriptions are rule R5's own values;
`IN_MAX`, `OUT_MAX`, `BASE`, the buffers' bus addresses and the packing are open (rules R5, R54, R60). DESIGN CHOICE
(unsafe, log 1): the largest legal capacities, `BASE` 0, buffers at addresses that keep them apart, one byte an
address in index order, and words with their least significant byte first. -/
def defaultBuild : Build :=
  { w := 4096, l := 255, inMax := 2 ^ 30 - 1, outMax := 2 ^ 32 - 1, base := 0,
    ibufBase := 2 ^ 32, mibufBase := 2 ^ 33, obufBase := 2 ^ 34, mobufBase := 2 ^ 35,
    ibufPacking := ⟨1, [0]⟩, mibufPacking := ⟨1, [0]⟩, obufPacking := ⟨1, [0]⟩, mobufPacking := ⟨1, [0]⟩,
    wordLanes := [0, 1, 2, 3],
    descRle := [], descHuffman := [], descLz77 := [] }

/-- The value of a register `draw`: `R_TIME` after a compress command (rule R19) and every register or
buffer read while `BUSY` (rule R21). Free: no body, so no proof can see a value (log 3). -/
opaque freeWord : Nat → Word

/-- What a bus byte that carries no byte of the block reads as (rule R54 leaves it to the platform), and each byte of a
wide read while `BUSY` (rule R21). The first number is the draw, the second the byte's place in the access. Free: no
body (log 24). -/
opaque freeLane : Nat → Nat → Byte

/-- The byte at an index of a buffer whose contents are unspecified (rules R22, R24, R37, R286, R331). The
first number is the generation of the contents, the second the index. Free: no body (log 2). -/
opaque freeByte : BufId → Nat → Nat → Byte

end Config

namespace Build

/-- `LISTLEN` of rule R262: "In general `LISTLEN` = 27 + Σ `|DESC[a]|`". -/
def listLen (b : Build) : Nat :=
  27 + b.descRle.length + b.descHuffman.length + b.descLz77.length

/-- The legal ranges of rule R5 and the build condition of rule R260. -/
abbrev Legal (b : Build) : Prop :=
  (1 ≤ b.w ∧ b.w ≤ 65535) ∧ (1 ≤ b.l ∧ b.l ≤ 255) ∧ (1 ≤ b.inMax ∧ b.inMax ≤ 2 ^ 30 - 1) ∧
    (b.inMax ≤ b.outMax ∧ b.outMax ≤ 2 ^ 32 - 1) ∧
    (b.descRle.length ≤ 65535 ∧ b.descHuffman.length ≤ 65535 ∧ b.descLz77.length ≤ 65535) ∧
    b.listLen ≤ b.outMax

/-- The size in bytes of each buffer (rule R50). -/
def bufSize (b : Build) : BufId → Nat
  | .ibuf => b.inMax
  | .mibuf => Config.nodeMax * Config.nodeRec
  | .obuf => b.outMax
  | .mobuf => Config.nodeMax * Config.nodeRec

/-- The bus address of byte 0 of each buffer (rule R60). -/
def bufBase (b : Build) : BufId → Nat
  | .ibuf => b.ibufBase
  | .mibuf => b.mibufBase
  | .obuf => b.obufBase
  | .mobuf => b.mobufBase

/-- The packing of each buffer on the bus (rule R54). -/
def packing (b : Build) : BufId → Packing
  | .ibuf => b.ibufPacking
  | .mibuf => b.mibufPacking
  | .obuf => b.obufPacking
  | .mobuf => b.mobufPacking

end Build

end Sys2Proof
end

