-- ==== Sys2Proof/Syntax.lean ====
section
/-! DEFINITION. The instructions: one constructor per row of spec/opcode_table.json (spec 30 rule R100), and
the five formats they are written in. Fields an instruction ignores are kept, so that no bit of an encoding
is lost. -/

namespace Sys2Proof

/-- The 21 instructions of rule R100: ten host commands (CMD8), two strobes (CTRL), and the records the
decoders execute (RLE16, LZ32, NODE80). -/
inductive Instr where
  /-- `COMPRESS.RLE`, rule R232 with R121. -/
  | compressRle
  /-- `COMPRESS.HUFFMAN`, rule R232 with R141. -/
  | compressHuffman
  /-- `COMPRESS.LZ77`, rule R232 with R191. -/
  | compressLz77
  /-- `COMPRESS.UNSUPPORTED`, rules R84 and R231: `ALG` 3 .. 63. -/
  | compressUnsupported (alg : BitVec 6)
  /-- `DECOMPRESS.RLE`, rule R244 with R126. -/
  | decompressRle
  /-- `DECOMPRESS.HUFFMAN`, rule R244 with R161. -/
  | decompressHuffman
  /-- `DECOMPRESS.LZ77`, rule R244 with R210. -/
  | decompressLz77
  /-- `DECOMPRESS.UNSUPPORTED`, rules R84 and R231: `ALG` 3 .. 63. -/
  | decompressUnsupported (alg : BitVec 6)
  /-- `SMART_COMPRESS`, rule R250; `ALG` is ignored (rule R84). -/
  | smartCompress (alg : BitVec 6)
  /-- `LIST_ALGORITHMS`, rule R260; `ALG` is ignored (rule R84). -/
  | listAlgorithms (alg : BitVec 6)
  /-- `START`, rules R14, R22: `CTRL` bit 0; `rest` is bits 31:1, all ignored ("`START` wins"). -/
  | start (rest : BitVec 31)
  /-- `CLEAR`, rules R14, R24: `CTRL` bit 1 with bit 0 clear; `rest` is bits 31:2, ignored. -/
  | clear (rest : BitVec 30)
  /-- `RLE.RUN`, rule R127. -/
  | rleRun (value count : Byte)
  /-- `LZ.LIT`, rule R212. -/
  | lzLit (lit : Byte)
  /-- `LZ.COPYLIT`, rule R213. -/
  | lzCopylit (off : BitVec 16) (len lit : Byte)
  /-- `LZ.COPYEND`, rule R214: the match length is carried in the literal field. -/
  | lzCopyend (off : BitVec 16) (len : Byte)
  /-- `LZ.RSVD_ZEROLEN`, rule R211. -/
  | lzRsvdZerolen (off : BitVec 16)
  /-- `LZ.RSVD_ZEROOFF`, rule R211. -/
  | lzRsvdZerooff (len b3 : Byte)
  /-- `HT.LEAF`, rules R97 and R164: `FLAGS` = 0x01. -/
  | htLeaf (value : Byte) (freq : Word) (left right : BitVec 16)
  /-- `HT.NODE`, rules R97 and R164: `FLAGS` = 0x00; `value` is ignored. -/
  | htNode (value : Byte) (freq : Word) (left right : BitVec 16)
  /-- `HT.RSVD`, rule R163: `FLAGS` ≥ 0x02; `rest` is record bytes 1 .. 9. -/
  | htRsvd (flags : Byte) (rest : BitVec 72)
  deriving DecidableEq, Repr

/-- The instruction formats of rules R80, R85, R86, R91 and R97. -/
inductive Format where
  | cmd8
  | ctrl
  | rle16
  | lz32
  | node80
  deriving DecidableEq, Repr

/-- The length in bytes of a format. -/
def Format.size : Format → Nat
  | .cmd8 => 1
  | .ctrl => 4
  | .rle16 => 2
  | .lz32 => 4
  | .node80 => 10

/-- The format an instruction is written in (rule R100, column Format). -/
def Instr.format : Instr → Format
  | .compressRle => .cmd8
  | .compressHuffman => .cmd8
  | .compressLz77 => .cmd8
  | .compressUnsupported _ => .cmd8
  | .decompressRle => .cmd8
  | .decompressHuffman => .cmd8
  | .decompressLz77 => .cmd8
  | .decompressUnsupported _ => .cmd8
  | .smartCompress _ => .cmd8
  | .listAlgorithms _ => .cmd8
  | .start _ => .ctrl
  | .clear _ => .ctrl
  | .rleRun _ _ => .rle16
  | .lzLit _ => .lz32
  | .lzCopylit _ _ _ => .lz32
  | .lzCopyend _ _ => .lz32
  | .lzRsvdZerolen _ => .lz32
  | .lzRsvdZerooff _ _ => .lz32
  | .htLeaf _ _ _ _ => .node80
  | .htNode _ _ _ _ => .node80
  | .htRsvd _ _ => .node80

end Sys2Proof
end

