-- ==== Sys2Proof/WellFormed.lean ====
section
/-! DEFINITION. Which terms of `Instr` are instructions: the constraints of spec/opcode_table.json. -/

namespace Sys2Proof

/-- The constraint column of the opcode table. A term that fails it is another row's instruction written
under the wrong name. The child checks of `HT.LEAF` and `HT.NODE` are no part of it: such a record decodes
as that row and its meaning raises (rule R163). -/
def Instr.wellFormed : Instr → Bool
  | .compressRle => true
  | .compressHuffman => true
  | .compressLz77 => true
  | .compressUnsupported alg => decide (3 ≤ alg.toNat)
  | .decompressRle => true
  | .decompressHuffman => true
  | .decompressLz77 => true
  | .decompressUnsupported alg => decide (3 ≤ alg.toNat)
  | .smartCompress _ => true
  | .listAlgorithms _ => true
  | .start _ => true
  | .clear _ => true
  | .rleRun _ _ => true
  | .lzLit _ => true
  | .lzCopylit off len _ => decide (1 ≤ off.toNat) && decide (1 ≤ len.toNat)
  | .lzCopyend off len => decide (1 ≤ off.toNat) && decide (1 ≤ len.toNat)
  | .lzRsvdZerolen off => decide (1 ≤ off.toNat)
  | .lzRsvdZerooff len _ => decide (1 ≤ len.toNat)
  | .htLeaf _ _ _ _ => true
  | .htNode _ _ _ _ => true
  | .htRsvd flags _ => decide (2 ≤ flags.toNat)

end Sys2Proof
end

