-- ==== Sys2Proof/Decode.lean ====
section
/-! DEFINITION. Decoding, total on any bytes, and the encoder. A format is chosen by the place a word is read
from (the latched command, a `CTRL` write, a decoder's stream or tree): formats of one length share their
bit patterns, so no word tells its own format. -/

namespace Sys2Proof

/-- The low byte of a number. -/
def byteOf (n : Nat) : Byte := BitVec.ofNat 8 n

/-- The `k` low bytes of a number, most significant first (rule R52; the order in which
spec/opcode_table.json writes a record's bits). -/
def bigEndian : Nat → Nat → List Byte
  | 0, _ => []
  | k + 1, n => byteOf (n / 256 ^ k) :: bigEndian k n

/-- `be16` of rule R7. -/
def be16 (b0 b1 : Byte) : BitVec 16 := b0 ++ b1

/-- `be32` of rule R7. -/
def be32 (b0 b1 b2 b3 : Byte) : Word := b0 ++ b1 ++ b2 ++ b3

/-- The two bytes of a 16-bit field, big-endian (rule R52). -/
def bytes16 (x : BitVec 16) : List Byte := [x.extractLsb' 8 8, x.extractLsb' 0 8]

/-- The four bytes of a 32-bit field, big-endian (rule R52). -/
def bytes32 (x : Word) : List Byte :=
  [x.extractLsb' 24 8, x.extractLsb' 16 8, x.extractLsb' 8 8, x.extractLsb' 0 8]

/-- Why bytes are no instruction of a format. -/
inductive DecodeError where
  /-- fewer bytes than the format has -/
  | truncated (f : Format)
  /-- a `CTRL` word with neither `START` nor `CLEAR` set: it asks for nothing (rule R14) -/
  | noStrobe
  deriving DecidableEq, Repr

/-- The command word (rules R80 to R84): `OP` = `CMD[7:6]`, `ALG` = `CMD[5:0]`. Every value is a row. -/
def decodeCmd (c : Byte) : Instr :=
  let alg : BitVec 6 := c.extractLsb' 0 6
  match (c.extractLsb' 6 2).toNat, alg.toNat with
  | 0, 0 => .compressRle
  | 0, 1 => .compressHuffman
  | 0, 2 => .compressLz77
  | 0, _ => .compressUnsupported alg
  | 1, 0 => .decompressRle
  | 1, 1 => .decompressHuffman
  | 1, 2 => .decompressLz77
  | 1, _ => .decompressUnsupported alg
  | 2, _ => .smartCompress alg
  | _, _ => .listAlgorithms alg

/-- The `CTRL` word (rules R14, R85): `START` wins over `CLEAR`. -/
def decodeCtrl (v : Word) : Except DecodeError Instr :=
  if v.extractLsb' 0 1 = 1 then .ok (.start (v.extractLsb' 1 31))
  else if v.extractLsb' 1 1 = 1 then .ok (.clear (v.extractLsb' 2 30))
  else .error .noStrobe

/-- The LZ77 record by its fields (rule R92). -/
def decodeLz (off : BitVec 16) (lenf b3 : Byte) : Instr :=
  if off = 0 then
    if lenf = 0 then .lzLit b3 else .lzRsvdZerooff lenf b3
  else if lenf = 0 then
    if b3 = 0 then .lzRsvdZerolen off else .lzCopyend off b3
  else .lzCopylit off lenf b3

/-- The tree node record by its fields (rules R97, R98): by `FLAGS`. -/
def decodeNode (flags value : Byte) (freq : Word) (left right : BitVec 16) : Instr :=
  if flags = 1 then .htLeaf value freq left right
  else if flags = 0 then .htNode value freq left right
  else .htRsvd flags (value ++ freq ++ left ++ right)

/-- The instruction the first bytes of `bs` are, read in format `f`; later bytes are the next
instruction's. -/
def decode : Format → List Byte → Except DecodeError Instr
  | .cmd8, c :: _ => .ok (decodeCmd c)
  | .ctrl, b0 :: b1 :: b2 :: b3 :: _ => decodeCtrl (be32 b0 b1 b2 b3)
  | .rle16, v :: c :: _ => .ok (.rleRun v c)
  | .lz32, o0 :: o1 :: l :: b :: _ => .ok (decodeLz (be16 o0 o1) l b)
  | .node80, f :: v :: q0 :: q1 :: q2 :: q3 :: l0 :: l1 :: r0 :: r1 :: _ =>
    .ok (decodeNode f v (be32 q0 q1 q2 q3) (be16 l0 l1) (be16 r0 r1))
  | f, _ => .error (.truncated f)

/-- The bytes of an instruction, from the encodings of rules R80 to R97. -/
def encode : Instr → List Byte
  | .compressRle => [0x00]
  | .compressHuffman => [0x01]
  | .compressLz77 => [0x02]
  | .compressUnsupported alg => [(0 : BitVec 2) ++ alg]
  | .decompressRle => [0x40]
  | .decompressHuffman => [0x41]
  | .decompressLz77 => [0x42]
  | .decompressUnsupported alg => [(1 : BitVec 2) ++ alg]
  | .smartCompress alg => [(2 : BitVec 2) ++ alg]
  | .listAlgorithms alg => [(3 : BitVec 2) ++ alg]
  | .start rest => bytes32 (rest ++ (1 : BitVec 1))
  | .clear rest => bytes32 (rest ++ (2 : BitVec 2))
  | .rleRun value count => [value, count]
  | .lzLit lit => [0, 0, 0, lit]
  | .lzCopylit off len lit => bytes16 off ++ [len, lit]
  | .lzCopyend off len => bytes16 off ++ [0, len]
  | .lzRsvdZerolen off => bytes16 off ++ [0, 0]
  | .lzRsvdZerooff len b3 => [0, 0, len, b3]
  | .htLeaf value freq left right => [1, value] ++ bytes32 freq ++ bytes16 left ++ bytes16 right
  | .htNode value freq left right => [0, value] ++ bytes32 freq ++ bytes16 left ++ bytes16 right
  | .htRsvd flags rest =>
    [flags, rest.extractLsb' 64 8] ++ bytes32 (rest.extractLsb' 32 32) ++
      bytes16 (rest.extractLsb' 16 16) ++ bytes16 (rest.extractLsb' 0 16)

/-- The format a word of the opcode table is read in. Two formats have 32 bits and share their patterns
(`START` and `LZ.LIT` of 1 are the same word): a word with only its strobe bits set is read as `CTRL`, any
other as an LZ77 record. DESIGN CHOICE (log 8): the block itself never has to choose. -/
def tableFormat (nbits w : Nat) : Option Format :=
  if nbits = 8 then some .cmd8
  else if nbits = 16 then some .rle16
  else if nbits = 32 then some (if w = 1 ∨ w = 2 ∨ w = 3 then .ctrl else .lz32)
  else if nbits = 80 then some .node80
  else none

/-- The instruction the decoder reads from a word numbered as spec/opcode_table.json numbers it: its
hexadecimal digits are the record's bytes in buffer order. -/
def decodeTableWord (nbits w : Nat) : Option Instr :=
  match tableFormat nbits w with
  | none => none
  | some f =>
    match decode f (bigEndian f.size w) with
    | .ok i => some i
    | .error _ => none

end Sys2Proof
end

