-- ==== Sys2Proof/Machine/State.lean ====
section
/-! DEFINITION. The state of one CORE instance as plain data (spec 10, spec 20), and the state after reset
(rule R37). -/

namespace Sys2Proof.Machine

open Sys2Proof

/-- `STATUS.STATE` (rule R15). -/
inductive EngineState where
  | idle
  | busy
  | done
  | error
  deriving DecidableEq, Repr

/-- The five error kinds of rule R281; `STATUS.ERR` = 0 is no kind. -/
inductive ErrKind where
  | unsupportedAlgorithm
  | missingMetadata
  | malformedStream
  | capacityExceeded
  | allCodecsFailed
  deriving DecidableEq, Repr

/-- The registered algorithms (rule R83). -/
inductive Alg where
  | rle
  | huffman
  | lz77
  deriving DecidableEq, Repr

/-- A byte buffer's specified bytes: (index, byte) pairs, indices strictly rising. -/
abbrev Memory := List Host.Cell

/-- A buffer. `cells` holds the bytes the spec determines; every other byte is unspecified (rule R331) and
reads as the free byte of generation `gen` at its index (log 2). -/
structure Buffer where
  cells : Memory
  gen : Nat
  deriving DecidableEq, Repr

/-- A Huffman tree node record (rule R28). -/
inductive Node where
  | leaf (value : Byte) (frequency : Nat)
  | node (frequency : Nat) (left right : Nat)
  deriving DecidableEq, Repr

/-- An orchestrator candidate record (rule R34): the outcome of one codec attempt. -/
structure Candidate where
  alg : Alg
  rawSize : Nat
  err : Option ErrKind
  payload : List Byte
  tree : List Node
  deriving DecidableEq, Repr

/-- Which loop of the running command comes next. The model's own field (log 6). `fresh`: the command has
been started and not yet dispatched. -/
inductive Phase where
  | fresh
  | encRle
  | encLz
  | count
  | merge
  | pack
  | decRle
  | decLz
  | tree
  | bits
  deriving DecidableEq, Repr

/-- The cursors (rule R26) and per-call structures (rules R27 to R34). They live from the start of a
command to its completion step. `out` is the output sequence of the running codec; `olen` is its length and
`nnodes` is the length of `arena`. "a model may use unbounded naturals" (log 15). -/
structure Work where
  phase : Phase
  /-- rule R26: index of the next unread input byte -/
  pos : Nat
  /-- rule R26: index of the next unread payload bit -/
  bitpos : Nat
  /-- rule R26: index of the current tree node -/
  cur : Nat
  /-- rule R8: the bytes emitted so far -/
  out : List Byte
  /-- rule R27: the 256 occurrence counters -/
  freq : List Nat
  /-- rule R28: the node records in use -/
  arena : List Node
  /-- rule R29: arena indices of the nodes not yet merged -/
  active : List Nat
  /-- rule R30: the code word of each byte value, empty for none -/
  code : List (List Bool)
  /-- rule R31: accumulator of the bit packer -/
  acc : Byte
  /-- rule R31: how many bits of the accumulator are filled -/
  fill : Nat
  /-- rule R31: all bits packed so far -/
  totalbits : Nat
  /-- rule R32: best match length of the last search -/
  best : Nat
  /-- rule R32: best offset of the last search -/
  boff : Nat
  /-- rule R33: value of the last run -/
  runValue : Byte
  /-- rule R33: length of the last run -/
  runCount : Nat
  /-- rule R33: the record the decoder holds -/
  record : List Byte
  /-- rule R33: bytes of the held record still to be emitted by its run or copy -/
  copy : Nat
  /-- rule R34: the attempts that have ended -/
  cands : List Candidate
  deriving DecidableEq, Repr

/-- The structures as a command finds them. The spec gives them no reset value ("they are initialised by
each command that uses them", rule R37): DESIGN CHOICE (unsafe, log 5). -/
def Work.init : Work :=
  { phase := .fresh, pos := 0, bitpos := 0, cur := 0, out := [], freq := List.replicate 256 0, arena := [],
    active := [], code := List.replicate 256 [], acc := 0, fill := 0, totalbits := 0, best := 0, boff := 0,
    runValue := 0, runCount := 0, record := [], copy := 0, cands := [] }

/-- The cursor `olen` (rule R26): "number of bytes emitted so far, the length of `out`". -/
def Work.olen (w : Work) : Nat := w.out.length

/-- One entry of the tested-algorithms table (rule R20): `Tk_INFO`, `Tk_SIZE`, `Tk_RATIO`. -/
structure TestedEntry where
  info : Word
  size : Word
  ratio : Word
  deriving DecidableEq, Repr

/-- An entry not in use: all-zero (rule R20). -/
def TestedEntry.zero : TestedEntry := { info := 0, size := 0, ratio := 0 }

/-- The result registers (rules R17 to R20). -/
structure Results where
  outLen : Word
  rOrig : Word
  rComp : Word
  rRatio : Word
  rInfo : Word
  rAvoid : Word
  rMetaLen : Word
  rTime : Word
  t0 : TestedEntry
  t1 : TestedEntry
  t2 : TestedEntry
  deriving DecidableEq, Repr

/-- Every result register and table word 0 (rules R22, R24, R37). -/
def Results.zero : Results :=
  { outLen := 0, rOrig := 0, rComp := 0, rRatio := 0, rInfo := 0, rAvoid := 0, rMetaLen := 0, rTime := 0,
    t0 := .zero, t1 := .zero, t2 := .zero }

/-- One host access to the block. `writeReg`, `readReg`: a word, a 32-bit number, at its bus address (rule R12; in a
buffer's window the packed bytes, rule R54). `writeBuf`, `readBuf`: a buffer byte by its index, the only way the spec
addresses it (rule R50). `writeBus`, `readBus`: a byte by its bus address, a platform parameter (rule R60). `writeWide`,
`readWide`: as many bytes as the access is wide, in the order of their bus addresses (rule R54). -/
inductive Access where
  | writeReg (addr : Nat) (v : Word)
  | readReg (addr : Nat)
  | writeBuf (b : BufId) (i : Nat) (v : Byte)
  | readBuf (b : BufId) (i : Nat)
  | writeBus (addr : Nat) (v : Byte)
  | readBus (addr : Nat)
  | writeWide (addr : Nat) (vs : List Byte)
  | readWide (addr n : Nat)
  deriving DecidableEq, Repr

/-- What acts next (log 4): the host with one access, the engine with its completion step (rule R23), the
engine with one piece of the running command's work, or the platform's reset (rule R320). -/
inductive Event where
  | host (a : Access)
  | engine
  | work
  | reset
  deriving DecidableEq, Repr

/-- Why a step stops. Raised only by a HOST ACCESS the spec leaves outside itself; no instruction faults. -/
inductive Fault where
  /-- Raised by a host word access outside every buffer's window, at an address that is no word offset from `BASE`:
  "what a platform
  bus does with sub-word or misaligned accesses to the register block is outside this spec" (rule R291).
  Safe: the model stops where a platform may go on. -/
  | misalignedRegister (addr : Nat)
  /-- Raised by a host access to a buffer index at or beyond the buffer's size (rule R50: no such byte).
  Safe: the model stops where a platform may go on. -/
  | bufferIndex (b : BufId) (i : Nat)
  /-- Raised by a host byte access at a bus address that belongs to no buffer (rule R60: no such byte; a byte
  access to the register block is left outside the spec by rule R291). Safe: the model stops where a platform
  may go on. -/
  | unmappedByte (addr : Nat)
  /-- Raised by a host access of a given width that is neither inside the window of one buffer nor a word of the
  register block (rule R54 gives no packing there; registers are accessed "as whole 32-bit words", rule R12, and sub-word accesses are
  left outside the spec by rule R291). Safe: the model stops where a platform may go on. -/
  | unmappedWide (addr n : Nat)
  deriving DecidableEq, Repr

/-- Why an instruction has no meaning. -/
inductive Refusal where
  /-- Raised by the dispatch for an instruction not modelled yet; every instruction is modelled, so it is
  never raised. Safe. -/
  | notModelled (mnemonic : String)
  deriving DecidableEq, Repr

/-- The state. -/
structure State where
  /-- the build parameters (rule R5); the model's own field, no step changes it (log 1) -/
  build : Build
  /-- `CMD[7:0]` (rule R13); `CMD[31:8]` read 0 -/
  cmd : Byte
  /-- the latched command (rules R13, R22) -/
  latched : Byte
  /-- `STATUS.STATE` (rule R15) -/
  state : EngineState
  /-- `STATUS.ERR` (rules R15, R281); `none` is code 0 -/
  err : Option ErrKind
  /-- `IN_LEN` (rule R16) -/
  inLen : Word
  /-- `ORIG_SIZE` (rule R16) -/
  origSize : Word
  /-- `META_LEN` (rule R16) -/
  metaLen : Word
  /-- the result registers (rules R17 to R20) -/
  res : Results
  /-- `IBUF` (rule R50) -/
  ibuf : Buffer
  /-- `MIBUF` (rule R50) -/
  mibuf : Buffer
  /-- `OBUF` (rule R50) -/
  obuf : Buffer
  /-- `MOBUF` (rule R50) -/
  mobuf : Buffer
  /-- cursors and per-call structures (rules R26 to R34) -/
  work : Work
  /-- how many free values have been drawn; the model's own field (log 3) -/
  draws : Nat
  /-- what acts in the next steps, first first; the model's own field (log 4) -/
  agenda : List Event
  /-- the value the last host read of a word or a byte returned; the model's own field (log 13) -/
  readData : Word
  /-- the bytes the last host read of any other width returned, in the order of their bus addresses; the model's own
  field (log 13) -/
  busData : List Byte
  deriving DecidableEq, Repr

/-- A buffer of which the spec determines no byte. -/
def Buffer.unspecified (gen : Nat) : Buffer := { cells := [], gen := gen }

/-- The machine right after reset (rules R37 and R320): every register 0, `STATE` = `IDLE`, every buffer
unspecified. The fields the spec does not give, `build`, `work`, `draws`, `agenda`, `readData` and `busData`, are
DESIGN CHOICE (unsafe, log 1, 3, 4, 5, 13). -/
def State.reset : State :=
  { build := Config.defaultBuild, cmd := 0, latched := 0, state := .idle, err := none, inLen := 0,
    origSize := 0, metaLen := 0, res := .zero, ibuf := .unspecified 0, mibuf := .unspecified 0,
    obuf := .unspecified 0, mobuf := .unspecified 0, work := .init, draws := 1, agenda := [], readData := 0,
    busData := [] }

end Sys2Proof.Machine
end

