-- ==== Sys2Proof/Machine/Flags.lean ====
section
/-! DEFINITION. Every flag and packed word the block computes: `STATUS` (rule R15), `R_INFO` (rule R18),
`Tk_INFO` (rule R20), the effectiveness flag (rule R234) and the ratio (rule R236). The block has no
condition codes (rule R25). -/

namespace Sys2Proof.Machine

open Sys2Proof

/-- The algorithm code (rule R83). -/
def Alg.code : Alg → Nat
  | .rle => 0
  | .huffman => 1
  | .lz77 => 2

/-- The code of `STATUS.STATE` (rule R15). -/
def EngineState.code : EngineState → BitVec 2
  | .idle => 0
  | .busy => 1
  | .done => 2
  | .error => 3

/-- The code of an error kind in `STATUS.ERR` (rule R281). -/
def ErrKind.code : ErrKind → BitVec 3
  | .unsupportedAlgorithm => 1
  | .missingMetadata => 2
  | .malformedStream => 3
  | .capacityExceeded => 4
  | .allCodecsFailed => 5

/-- `STATUS.ERR`: the kind's code, 0 for none (rule R281). -/
def errCode : Option ErrKind → BitVec 3
  | none => 0
  | some k => k.code

/-- The word `STATUS`: `STATE` in bits 1:0, `ERR` in bits 6:4, all other bits 0 (rule R15). -/
def State.statusWord (s : State) : Word :=
  (0 : BitVec 25) ++ errCode s.err ++ (0 : BitVec 2) ++ s.state.code

/-- The word `R_INFO`: `FAIL_MASK` 18:16, `N_TESTED` 13:12, `EFFECTIVE` 9, `FALLBACK` 8, `ALG` 5:0 (rule
R18). -/
def infoWord (alg : Nat) (fallback effective : Bool) (nTested failMask : Nat) : Word :=
  (0 : BitVec 13) ++ BitVec.ofNat 3 failMask ++ (0 : BitVec 2) ++ BitVec.ofNat 2 nTested ++
    (0 : BitVec 2) ++ BitVec.ofBool effective ++ BitVec.ofBool fallback ++ (0 : BitVec 2) ++
    BitVec.ofNat 6 alg

/-- `R_INFO.ALG`. -/
def infoAlg (w : Word) : BitVec 6 := w.extractLsb' 0 6
/-- `R_INFO.FALLBACK`. -/
def infoFallback (w : Word) : Bool := w.getLsbD 8
/-- `R_INFO.EFFECTIVE`, and `Tk_INFO.EFFECTIVE`. -/
def infoEffective (w : Word) : Bool := w.getLsbD 9
/-- `R_INFO.N_TESTED`. -/
def infoNTested (w : Word) : BitVec 2 := w.extractLsb' 12 2
/-- `R_INFO.FAIL_MASK`. -/
def infoFailMask (w : Word) : BitVec 3 := w.extractLsb' 16 3

/-- A valid `Tk_INFO`: `VALID` 31, `EFFECTIVE` 9, `ALG` 5:0 (rules R20, R256). -/
def testedInfo (alg : Nat) (effective : Bool) : Word :=
  (1 : BitVec 1) ++ (0 : BitVec 21) ++ BitVec.ofBool effective ++ (0 : BitVec 3) ++ BitVec.ofNat 6 alg

/-- `Tk_INFO.VALID`. -/
def testedValid (w : Word) : Bool := w.getLsbD 31

/-- `FAIL_MASK`: bit `a` is 1 when the attempt of algorithm code `a` raised (rules R18, R252). -/
def failMask : List Candidate → Nat
  | [] => 0
  | c :: cs => (if c.err.isSome then 2 ^ c.alg.code else 0) + failMask cs

/-- "true iff raw compressedSize < originalSize" (rule R234). -/
def isEffective (rawSize orig : Nat) : Bool := decide (rawSize < orig)

/-- `R_RATIO` of an effective result (rule R236): hundredths of a percent, exact, half up. -/
def ratioOf (orig comp : Nat) : Nat := ((orig - comp) * 20000 + orig) / (2 * orig)

end Sys2Proof.Machine
end

