-- ==== Sys2Proof/Machine/Ops.lean ====
section
/-! DEFINITION. The named operations over buffers and registers: byte access, whole-buffer replacement, the
register block, the command protocol (start, clear, completion), taking the one exception of this hardware
(`State.raise`, rule R286) and the way back from it (`State.clearResult`, rule R24), and the loops in which
the units' procedures run. -/

namespace Sys2Proof.Machine

open Sys2Proof

/-! ### Buffers -/

/-- The canonical form of a buffer's specified bytes: strictly rising indices. An unlisted index holds no
specified byte, so no entry can equal "what an unlisted index holds" (log 2). -/
abbrev Memory.wf (m : Memory) : Prop := m.Pairwise (fun a b => a.1 < b.1)

/-- The specified byte at an index, if there is one. -/
def Memory.find : Memory → Nat → Option Byte
  | [], _ => none
  | (j, v) :: m, i => if j = i then some v else Memory.find m i

/-- Stores one byte, keeping the canonical form. -/
def Memory.store : Memory → Nat → Byte → Memory
  | [], i, v => [(i, v)]
  | (j, u) :: m, i, v =>
    if i < j then (i, v) :: (j, u) :: m
    else if i = j then (i, v) :: m
    else (j, u) :: Memory.store m i v

/-- Consecutive bytes from index `i` on, as cells. -/
def Memory.ofBytes : Nat → List Byte → Memory
  | _, [] => []
  | i, v :: vs => (i, v) :: Memory.ofBytes (i + 1) vs

/-- What an index without a specified byte reads as: the free byte of the buffer's generation (log 2). -/
def Buffer.unlisted (id : BufId) (b : Buffer) (i : Nat) : Byte := Config.freeByte id b.gen i

/-- One byte of a buffer (rule R50). -/
def Buffer.read (id : BufId) (b : Buffer) (i : Nat) : Byte := (b.cells.find i).getD (b.unlisted id i)

/-- One byte written to a buffer. -/
def Buffer.write (b : Buffer) (i : Nat) (v : Byte) : Buffer := { b with cells := b.cells.store i v }

/-- A buffer that holds `bs` from index 0 on and is unspecified beyond them (rules R240, R331). -/
def Buffer.holding (gen : Nat) (bs : List Byte) : Buffer := { cells := Memory.ofBytes 0 bs, gen := gen }

/-- The buffer of a name. -/
def State.buf (s : State) : BufId → Buffer
  | .ibuf => s.ibuf
  | .mibuf => s.mibuf
  | .obuf => s.obuf
  | .mobuf => s.mobuf

/-- One byte of a named buffer. -/
def State.readByte (s : State) (id : BufId) (i : Nat) : Byte := (s.buf id).read id i

/-- `MemRead(buf, addr, n)` of rule R7. -/
def State.readBytes (s : State) (id : BufId) (addr n : Nat) : List Byte :=
  (List.range n).map (fun k => s.readByte id (addr + k))

/-- The host's store to an input buffer; `OBUF` and `MOBUF` drop it "in every state" (rule R21). -/
def State.storeByte (s : State) (id : BufId) (i : Nat) (v : Byte) : State :=
  match id with
  | .ibuf => { s with ibuf := s.ibuf.write i v }
  | .mibuf => { s with mibuf := s.mibuf.write i v }
  | .obuf => s
  | .mobuf => s

/-! ### The register block (rule R12) -/

/-- The registers of rule R12. -/
inductive Reg where
  | cmd
  | ctrl
  | status
  | inLen
  | origSize
  | metaLen
  | outLen
  | rOrig
  | rComp
  | rRatio
  | rInfo
  | rAvoid
  | rMetaLen
  | rTime
  | t0Info
  | t0Size
  | t0Ratio
  | t1Info
  | t1Size
  | t1Ratio
  | t2Info
  | t2Size
  | t2Ratio
  deriving DecidableEq, Repr

/-- The register at a byte offset from `BASE`; none at the offsets rule R12 does not list (rule R291). -/
def Reg.ofOffset (off : Nat) : Option Reg :=
  match off with
  | 0x00 => some .cmd
  | 0x04 => some .ctrl
  | 0x08 => some .status
  | 0x0C => some .inLen
  | 0x10 => some .origSize
  | 0x14 => some .metaLen
  | 0x18 => some .outLen
  | 0x1C => some .rOrig
  | 0x20 => some .rComp
  | 0x24 => some .rRatio
  | 0x28 => some .rInfo
  | 0x2C => some .rAvoid
  | 0x30 => some .rMetaLen
  | 0x34 => some .rTime
  | 0x40 => some .t0Info
  | 0x44 => some .t0Size
  | 0x48 => some .t0Ratio
  | 0x50 => some .t1Info
  | 0x54 => some .t1Size
  | 0x58 => some .t1Ratio
  | 0x60 => some .t2Info
  | 0x64 => some .t2Size
  | 0x68 => some .t2Ratio
  | _ => none

/-- The register a bus address selects. An address below `BASE` selects none (log 12). -/
def regAt (b : Build) (addr : Nat) : Option Reg :=
  if addr < b.base then none else Reg.ofOffset (addr - b.base)

/-- Is the address a word offset from `BASE`? -/
def addrAligned (b : Build) (addr : Nat) : Bool := decide (addr % 4 = b.base % 4)

/-- What a register holds (rules R13 to R20). `CTRL` reads 0 (rule R14). -/
def State.regValue (s : State) : Reg → Word
  | .cmd => (0 : BitVec 24) ++ s.cmd
  | .ctrl => 0
  | .status => s.statusWord
  | .inLen => s.inLen
  | .origSize => s.origSize
  | .metaLen => s.metaLen
  | .outLen => s.res.outLen
  | .rOrig => s.res.rOrig
  | .rComp => s.res.rComp
  | .rRatio => s.res.rRatio
  | .rInfo => s.res.rInfo
  | .rAvoid => s.res.rAvoid
  | .rMetaLen => s.res.rMetaLen
  | .rTime => s.res.rTime
  | .t0Info => s.res.t0.info
  | .t0Size => s.res.t0.size
  | .t0Ratio => s.res.t0.ratio
  | .t1Info => s.res.t1.info
  | .t1Size => s.res.t1.size
  | .t1Ratio => s.res.t1.ratio
  | .t2Info => s.res.t2.info
  | .t2Size => s.res.t2.size
  | .t2Ratio => s.res.t2.ratio

/-! ### The buffers on the bus (rules R54, R60) -/

/-- Where byte `i` of a buffer stands on the bus, from the buffer's bus address on: the place of its group and its lane
in the group (rule R54). -/
def busOffset (b : Build) (id : BufId) (i : Nat) : Nat :=
  let p := b.packing id
  p.period * (i / p.lanes.length) + p.lanes.getD (i % p.lanes.length) 0

/-- The bus address of byte `i` of a buffer (rules R54, R60). -/
def busAddress (b : Build) (id : BufId) (i : Nat) : Nat := b.bufBase id + busOffset b id i

/-- How many bus addresses a buffer's window has: its groups, the last one perhaps not full. -/
def windowSize (b : Build) (id : BufId) : Nat :=
  let p := b.packing id
  p.period * ((b.bufSize id + p.lanes.length - 1) / p.lanes.length)

/-- The index of the byte a place in a buffer's window carries, if it carries one (rule R54). -/
def carried (b : Build) (id : BufId) (off : Nat) : Option Nat :=
  let p := b.packing id
  let i := p.lanes.length * (off / p.period) + p.lanes.idxOf (off % p.period)
  if off % p.period ∈ p.lanes ∧ i < b.bufSize id then some i else none

/-- The buffer in whose window an access of `n` bytes lies, and its place there (rule R60). Where a platform lets
windows overlap, the first buffer of rule R50's table (log 24). -/
def windowAt (b : Build) (addr n : Nat) : Option (BufId × Nat) :=
  BufId.all.findSome? fun id =>
    if b.bufBase id ≤ addr ∧ addr + n ≤ b.bufBase id + windowSize b id then some (id, addr - b.bufBase id) else none

/-- The buffer byte a bus address selects (rules R54, R60). -/
def bufAt (b : Build) (addr : Nat) : Option (BufId × Nat) :=
  match windowAt b addr 1 with
  | some (id, off) => (carried b id off).map fun i => (id, i)
  | none => none

/-- Is the address a word of the register block? A register is one wherever the windows are; any other word offset from
`BASE` is, unless it lies in a buffer's window. -/
def wordAt (b : Build) (addr : Nat) : Bool :=
  (regAt b addr).isSome || ((windowAt b addr 4).isNone && addrAligned b addr)

/-- A packing in which every byte of a buffer has one place of its own, and a word four lanes (rule R54; log 24). -/
abbrev PackingLegal (b : Build) : Prop :=
  (∀ id ∈ BufId.all, (b.packing id).lanes ≠ [] ∧ (b.packing id).lanes.Nodup ∧
    ∀ r ∈ (b.packing id).lanes, r < (b.packing id).period) ∧ b.wordLanes.Perm [0, 1, 2, 3]

/-- No bus address belongs to the windows of two buffers (log 24). -/
abbrev WindowsApart (b : Build) : Prop :=
  ∀ id id' : BufId, id ≠ id' →
    b.bufBase id + windowSize b id ≤ b.bufBase id' ∨ b.bufBase id' + windowSize b id' ≤ b.bufBase id

/-- The number four bus bytes are (rule R54). -/
def wordOfLanes (b : Build) (vs : List Byte) : Word :=
  let byte := fun k => vs.getD (b.wordLanes.getD k 0) 0
  be32 (byte 3) (byte 2) (byte 1) (byte 0)

/-- The four bus bytes a number is (rule R54). -/
def lanesOfWord (b : Build) (v : Word) : List Byte :=
  (List.range 4).map fun j => v.extractLsb' (8 * b.wordLanes.idxOf j) 8

/-- The bytes an access of `n` bytes sees from a place in a buffer's window on (rule R54): what a place carries, a free
value where it carries nothing. -/
def State.readLanes (s : State) (id : BufId) (off n : Nat) : List Byte :=
  (List.range n).map fun j =>
    match carried s.build id (off + j) with
    | some i => s.readByte id i
    | none => Config.freeLane s.draws j

/-- Bytes stored from a place in a buffer's window on (rule R54); a place that carries nothing drops its byte. -/
def State.storeLanes (s : State) (id : BufId) (off : Nat) : List Byte → State
  | [] => s
  | v :: vs =>
    match carried s.build id off with
    | some i => (s.storeByte id i v).storeLanes id (off + 1) vs
    | none => s.storeLanes id (off + 1) vs

/-! ### The host's accesses to registers -/

/-- The host's write of a stored register: `CMD` keeps its bits 7:0 (rule R13), the operand registers keep
the word (rule R16), the read-only registers drop it (rule R21). `CTRL` stores nothing: its strobes are the
instructions `START` and `CLEAR`. -/
def State.writeStored (s : State) (r : Reg) (v : Word) : State :=
  match r with
  | .cmd => { s with cmd := v.extractLsb' 0 8 }
  | .inLen => { s with inLen := v }
  | .origSize => { s with origSize := v }
  | .metaLen => { s with metaLen := v }
  | .ctrl | .status | .outLen | .rOrig | .rComp | .rRatio | .rInfo | .rAvoid | .rMetaLen | .rTime
  | .t0Info | .t0Size | .t0Ratio | .t1Info | .t1Size | .t1Ratio | .t2Info | .t2Size | .t2Ratio => s

/-- The host has read the value `v`; a read changes nothing in the block (rule R59). -/
def State.returned (s : State) (v : Word) : State := { s with readData := v }

/-- The host has read an unspecified value (rule R21): a fresh free value. -/
def State.returnedAny (s : State) : State :=
  { s with readData := Config.freeWord s.draws, draws := s.draws + 1 }

/-- The host has read the bytes `vs` from a window; a byte of them may be a fresh free value. -/
def State.returnedLanes (s : State) (vs : List Byte) : State := { s with busData := vs, draws := s.draws + 1 }

/-- The host has read `n` unspecified bytes (rule R21). -/
def State.returnedAnyLanes (s : State) (n : Nat) : State :=
  s.returnedLanes ((List.range n).map (Config.freeLane s.draws))

/-- The host reads a word of the register block: while `BUSY` only `STATUS` reads normally (rule R21); an address that
selects no register reads 0 (rule R291, log 11). -/
def State.readRegister (s : State) (addr : Nat) : State :=
  match regAt s.build addr with
  | none => s.returned 0
  | some r => if s.state = .busy ∧ r ≠ .status then s.returnedAny else s.returned (s.regValue r)

/-- The rest of the agenda. -/
def State.withAgenda (s : State) (q : List Event) : State := { s with agenda := q }

/-- The working structures replaced. -/
def State.withWork (s : State) (w : Work) : State := { s with work := w }

/-! ### The command protocol -/

/-- `START` taken (rule R22): `CMD` latched, results and table 0, `ERR` 0, `STATE` `BUSY`, output buffers
unspecified. The per-call structures begin (rule R11). -/
def State.startCommand (s : State) : State :=
  { s with
    latched := s.cmd, res := .zero, err := none, state := .busy, obuf := .unspecified s.draws,
    mobuf := .unspecified s.draws, work := .init, draws := s.draws + 1 }

/-- `CLEAR` taken (rule R24): the return from the error state, and from `DONE` (rule R289). -/
def State.clearResult (s : State) : State :=
  { s with
    res := .zero, err := none, state := .idle, obuf := .unspecified s.draws,
    mobuf := .unspecified s.draws, draws := s.draws + 1 }

/-- The result registers after a raise (rule R286): all 0, but `FAIL_MASK` after `AllCodecsFailed`. -/
def errorResults : ErrKind → Results
  | .unsupportedAlgorithm => .zero
  | .missingMetadata => .zero
  | .malformedStream => .zero
  | .capacityExceeded => .zero
  | .allCodecsFailed => { Results.zero with rInfo := infoWord 0 false false 0 7 }

/-- TAKING AN EXCEPTION: the completion step in its error form (rules R23, R286). -/
def State.raise (s : State) (k : ErrKind) : State :=
  { s with
    res := errorResults k, err := some k, state := .error, obuf := .unspecified s.draws,
    mobuf := .unspecified s.draws, work := .init, draws := s.draws + 1 }

/-- The completion step with a result (rule R23): `res` to the result registers, `out` to `OBUF`, `tree` to
`MOBUF`, `STATE` `DONE`. -/
def State.finish (s : State) (res : Results) (out tree : List Byte) : State :=
  { s with
    res := res, err := none, state := .done, obuf := .holding s.draws out,
    mobuf := .holding s.draws tree, work := .init, draws := s.draws + 1 }

/-- The platform's reset (rules R320, R322): every register 0, every buffer unspecified, the running command
abandoned; the build, and what the environment does next, stay. -/
def State.platformReset (s : State) : State :=
  { State.reset with
    build := s.build, ibuf := .unspecified s.draws, mibuf := .unspecified s.draws,
    obuf := .unspecified s.draws, mobuf := .unspecified s.draws, draws := s.draws + 1,
    agenda := s.agenda, readData := s.readData, busData := s.busData }

/-- A command's effect: the engine acts in `BUSY` only ("in states `IDLE`, `DONE` and `ERROR` the engine
does nothing", rule R280). -/
def whenBusy (f : State → State) (s : State) : Host.Outcome State Fault Refusal :=
  if s.state = .busy then .next (f s) else .next s

/-- A record's effect: `op` on the working structures, when the decoder that interprets the record is
running; a raise ends the command (rules R285, R286). Otherwise no unit interprets the record and nothing
happens (log 7). -/
def recordStep (ph : Phase) (op : Work → Except ErrKind Work) (s : State) :
    Host.Outcome State Fault Refusal :=
  if s.state = .busy ∧ s.work.phase = ph then
    match op s.work with
    | .ok w => .next (s.withWork w)
    | .error k => .next (s.raise k)
  else .next s

/-! ### Loops -/

/-- `while ¬ done: body`, at most `n` times. Every caller gives an `n` the loop cannot exceed. -/
def runLoop (done : Work → Bool) (body : Work → Work) : Nat → Work → Work
  | 0, w => w
  | n + 1, w => if done w then w else runLoop done body n (body w)

/-- As `runLoop`, for a body that may raise: the first raise ends the loop (rule R285). -/
def tryLoop (done : Work → Bool) (body : Work → Except ErrKind Work) : Nat → Work → Except ErrKind Work
  | 0, w => .ok w
  | n + 1, w =>
    if done w then .ok w
    else
      match body w with
      | .ok w' => tryLoop done body n w'
      | .error k => .error k

/-- `n` times `emit(next)`: each byte is chosen from the output as it stands after the previous emit (rules
R8, R66, R213); the copy counter counts down. -/
def emitLoop (next : List Byte → Byte) : Nat → Work → Work
  | 0, w => w
  | n + 1, w => emitLoop next n { w with out := w.out ++ [next w.out], copy := w.copy - 1 }

end Sys2Proof.Machine
end

