-- ==== Sys2Proof/Machine/Control.lean ====
section
/-! DEFINITION. The meanings of the `CTRL` strobes (spec 10 rules R14, R22, R24). -/

namespace Sys2Proof.Machine

open Sys2Proof

/-- `START` (rules R14, R22): taken unless `BUSY`, where the write is dropped. -/
def execStart (_rest : BitVec 31) (s : State) : Host.Outcome State Fault Refusal :=
  if s.state = .busy then .next s else .next s.startCommand

/-- `CLEAR` (rules R14, R24): taken in `DONE` and `ERROR`; no effect in `IDLE`, dropped in `BUSY`. -/
def execClear (_rest : BitVec 30) (s : State) : Host.Outcome State Fault Refusal :=
  if s.state = .done ∨ s.state = .error then .next s.clearResult else .next s

end Sys2Proof.Machine
end

