-- ==== Sys2Proof/Machine/Operands.lean ====
section
/-! DEFINITION. Every operand form: the input byte sequence (rule R16), the supplied tree records (rules R55,
R97), the records a decoder fetches at its cursor (rules R55, R57) and a payload bit (rule R53). -/

namespace Sys2Proof.Machine

open Sys2Proof

/-- `n`, the length of the input (rule R16). -/
def State.n (s : State) : Nat := s.inLen.toNat

/-- `in = IBUF[0 .. IN_LEN)` (rule R16). -/
def State.input (s : State) : List Byte := s.readBytes .ibuf 0 s.n

/-- The bytes of the supplied tree, `MIBUF[0 .. 10 × META_LEN)` (rules R16, R55). -/
def State.metaBytes (s : State) : List Byte :=
  s.readBytes .mibuf 0 (Config.nodeRec * s.metaLen.toNat)

/-- The RLE record at the cursor `pos` (rule R55). -/
def State.rleRecordBytes (s : State) : List Byte := s.readBytes .ibuf s.work.pos Config.rleRec

/-- The LZ77 record at the cursor `pos` (rule R55). -/
def State.lzRecordBytes (s : State) : List Byte := s.readBytes .ibuf s.work.pos Config.lzRec

/-- The node record of the next arena index (rules R55, R97). -/
def State.nodeRecordBytes (s : State) : List Byte :=
  s.readBytes .mibuf (Config.nodeRec * s.work.arena.length) Config.nodeRec

/-- Byte `i` of a sequence. Every caller stays inside the sequence (rule R284). -/
def at0 (bs : List Byte) (i : Nat) : Byte := bs.getD i 0

/-- Payload bit `i`: bit `7 − (i mod 8)` of byte `⌊i / 8⌋` (rules R53, R166). -/
def payloadBit (bs : List Byte) (i : Nat) : Bool := (at0 bs (i / 8)).getLsbD (7 - i % 8)

/-- The command the engine is running: the latched command, decoded at its start (rule R81). -/
def State.command (s : State) : Instr := decodeCmd s.latched

end Sys2Proof.Machine
end

