-- ==== Sys2Proof/Machine/Rle.lean ====
section
/-! DEFINITION. The RLE codec unit (spec 41) and the meaning of its token instruction. -/

namespace Sys2Proof.Machine

open Sys2Proof

/-- How many of the first `k` bytes of a sequence equal `v`, counted up to the first that does not: the
inner loop of rule R121. -/
def runLength (v : Byte) : Nat → List Byte → Nat
  | 0, _ => 0
  | _ + 1, [] => 0
  | k + 1, b :: bs => if b = v then runLength v k bs + 1 else 0

/-- One iteration of the encoder's outer loop (rule R121): the run at `pos`, cut at 255, as one record. -/
def rleEncBody (inp : List Byte) (w : Work) : Work :=
  match inp.drop w.pos with
  | [] => w
  | v :: rest =>
    let c := 1 + runLength v (Config.rleMaxRun - 1) rest
    { w with runValue := v, runCount := c, pos := w.pos + c, out := w.out ++ [v, byteOf c] }

/-- The encoder's loop is at its end. -/
def inputDone (inp : List Byte) (w : Work) : Bool := decide (inp.length ≤ w.pos)

/-- The encoder's loop; each iteration covers a byte or more (rule R122). -/
def rleEncode (inp : List Byte) (w : Work) : Work :=
  runLoop (inputDone inp) (rleEncBody inp) inp.length w

/-- `rle_compress(in)` (rule R121). -/
def rleCompress (inp : List Byte) : List Byte := (rleEncode inp .init).out

/-- The record `(value, count)` executed (rules R126, R127): `count` times `emit(value)`; the cursor
advances by 2. -/
def rleRunOp (outMax : Nat) (value count : Byte) (w : Work) : Except ErrKind Work :=
  if outMax < w.olen + count.toNat then .error .capacityExceeded
  else
    .ok (emitLoop (fun _ => value) count.toNat
      { w with record := [value, count], copy := count.toNat, pos := w.pos + Config.rleRec })

/-- One iteration of the decoder's loop (rule R126). -/
def rleDecBody (outMax : Nat) (inp : List Byte) (w : Work) : Except ErrKind Work :=
  rleRunOp outMax (at0 inp w.pos) (at0 inp (w.pos + 1)) w

/-- The decoder's loop over its records. -/
def rleDecode (outMax : Nat) (inp : List Byte) (w : Work) : Except ErrKind Work :=
  tryLoop (inputDone inp) (rleDecBody outMax inp) (inp.length / Config.rleRec) w

/-- `rle_decompress(in)` (rule R126). -/
def rleDecompress (outMax : Nat) (inp : List Byte) : Except ErrKind (List Byte) :=
  if inp.length % Config.rleRec ≠ 0 then .error .malformedStream
  else (rleDecode outMax inp .init).map Work.out

/-- `RLE.RUN` (rule R127), executed by the RLE decoder. -/
def execRleRun (value count : Byte) (s : State) : Host.Outcome State Fault Refusal :=
  recordStep .decRle (rleRunOp s.build.outMax value count) s

end Sys2Proof.Machine
end

