-- ==== Sys2Proof/Machine/Huffman.lean ====
section
/-! DEFINITION. The Huffman codec unit (spec 42): frequency counter, tree builder, code table, bit packer,
serialiser, deserialiser and bit walk, and the meanings of the node-record instructions. -/

namespace Sys2Proof.Machine

open Sys2Proof

/-! ### Compressor -/

/-- One byte counted (rule R143, "in any order": in the order of their indices, log 25). -/
def countBody (inp : List Byte) (w : Work) : Work :=
  { w with freq := w.freq.modify (at0 inp w.pos).toNat (· + 1), pos := w.pos + 1 }

/-- The frequency count (rule R143). -/
def countFrequencies (inp : List Byte) (w : Work) : Work :=
  runLoop (inputDone inp) (countBody inp) inp.length w

/-- The leaves, in ascending byte value, of the values that occur (rule R144). -/
def leavesOf (freq : List Nat) : List Node :=
  (List.range 256).filterMap fun v =>
    if freq.getD v 0 = 0 then none else some (.leaf (byteOf v) (freq.getD v 0))

/-- Leaf creation (rule R144); every leaf is active (rule R145). -/
def createLeaves (w : Work) : Work :=
  { w with arena := leavesOf w.freq, active := List.range (leavesOf w.freq).length }

/-- The frequency of a node record (rule R28). -/
def Node.frequency : Node → Nat
  | .leaf _ f => f
  | .node f _ _ => f

/-- The frequency of the node at an index. -/
def frequencyAt (arena : List Node) (i : Nat) : Nat := (arena[i]?.map Node.frequency).getD 0

/-- An order on the nodes of an active set: does the first index go before the second? "A model that wants to
cover every conforming implementation may instead take `key` as a parameter" (rule R146). -/
abbrev TieBreak := List Node → Nat → Nat → Bool

/-- This hardware's order, `key(i) < key(j)`: the lower frequency first, then the lower index (rule R146;
log 19). -/
def keyLess : TieBreak := fun arena i j =>
  decide (frequencyAt arena i < frequencyAt arena j) ||
    (decide (frequencyAt arena i = frequencyAt arena j) && decide (i < j))

/-- The element of an active set with the smallest key (rules R145, R146). -/
def lowest (less : TieBreak) (arena : List Node) : List Nat → Nat
  | [] => 0
  | a :: rest => rest.foldl (fun m i => if less arena i m then i else m) a

/-- One merge (rules R145, R147): the node removed first is the left child. -/
def mergeBody (less : TieBreak) (w : Work) : Work :=
  let a := lowest less w.arena w.active
  let b := lowest less w.arena (w.active.erase a)
  { w with
    arena := w.arena ++ [.node (frequencyAt w.arena a + frequencyAt w.arena b) a b],
    active := (w.active.erase a).erase b ++ [w.arena.length] }

/-- One node is left in the active set: the root (rule R145). -/
def mergeDone (w : Work) : Bool := decide (w.active.length ≤ 1)

/-- The merge loop (rule R145); each iteration removes one node from the active set. -/
def mergeNodes (less : TieBreak) (w : Work) : Work :=
  runLoop mergeDone (mergeBody less) w.active.length w

/-- `assign(i, p)` (rule R150): left is `0`, right is `1`. Children have smaller indices than their parent,
so the arena's length is fuel enough. -/
def assignCodes (arena : List Node) : Nat → Nat → List Bool → List (List Bool) → List (List Bool)
  | 0, _, _, code => code
  | k + 1, i, p, code =>
    match arena[i]? with
    | none => code
    | some (.leaf v _) => code.set v.toNat p
    | some (.node _ l r) =>
      assignCodes arena k r (p ++ [true]) (assignCodes arena k l (p ++ [false]) code)

/-- The root of an arena: its last record (rules R28, R97). -/
def rootOf (arena : List Node) : Nat := arena.length - 1

/-- The code table (rules R150, R151): the single leaf gets the code `"0"`. -/
def codeTable (arena : List Node) : List (List Bool) :=
  match arena[rootOf arena]? with
  | some (.leaf v _) => (List.replicate 256 []).set v.toNat [false]
  | _ => assignCodes arena arena.length (rootOf arena) [] (List.replicate 256 [])

/-- The code table made; the encoder starts at the first input byte. The frequency counter and the encoder both read the
whole input by `pos` (rules R26, R57). DESIGN CHOICE (safe, log 25): `pos` restarts at 0 for the second pass; that the
cursors "only increase within a command" (rule R26) is read of one pass. -/
def deriveCodes (w : Work) : Work := { w with code := codeTable w.arena, pos := 0 }

/-- One bit enters the packer at the most significant free position; a full accumulator is emitted (rules
R31, R153). -/
def pushBit (w : Work) (bit : Bool) : Work :=
  let acc := w.acc ||| (if bit then (1 : Byte) <<< (7 - w.fill) else 0)
  if w.fill = 7 then { w with out := w.out ++ [acc], acc := 0, fill := 0, totalbits := w.totalbits + 1 }
  else { w with acc := acc, fill := w.fill + 1, totalbits := w.totalbits + 1 }

/-- One input byte's code packed (rule R153). -/
def packBody (inp : List Byte) (w : Work) : Work :=
  (w.code.getD (at0 inp w.pos).toNat []).foldl pushBit { w with pos := w.pos + 1 }

/-- The last byte, zero-padded; none when the bits end at a byte boundary (rule R154). -/
def flushBits (w : Work) : Work :=
  if w.fill = 0 then w else { w with out := w.out ++ [w.acc], acc := 0, fill := 0 }

/-- Concatenation and packing (rules R153, R154). -/
def packInput (inp : List Byte) (w : Work) : Work :=
  flushBits (runLoop (inputDone inp) (packBody inp) inp.length w)

/-- The whole compressor on a non-empty input (rule R141). -/
def huffEncode (less : TieBreak) (inp : List Byte) (w : Work) : Work :=
  packInput inp (deriveCodes (mergeNodes less (createLeaves (countFrequencies inp w))))

/-- `huff_compress(in)` under any order of removal (rules R141, R142): payload and tree. -/
def huffCompressBy (less : TieBreak) (inp : List Byte) : List Byte × List Node :=
  match inp with
  | [] => ([], [])
  | _ :: _ => ((huffEncode less inp .init).out, (huffEncode less inp .init).arena)

/-- `huff_compress(in)` of this hardware (rules R141, R146). -/
def huffCompress (inp : List Byte) : List Byte × List Node := huffCompressBy keyLess inp

/-- A node record in its wire form (rules R97, R158). -/
def Node.bytes : Node → List Byte
  | .leaf v f => encode (.htLeaf v (BitVec.ofNat 32 f) 0xFFFF 0xFFFF)
  | .node f l r => encode (.htNode 0 (BitVec.ofNat 32 f) (BitVec.ofNat 16 l) (BitVec.ofNat 16 r))

/-- A tree in its wire form: the records in arena order (rules R97, R158). -/
def serialise (tree : List Node) : List Byte := tree.flatMap Node.bytes

/-! ### Decompressor -/

/-- A leaf record executed: loaded at the next arena index when its children are 0xFFFF (rules R98 (c),
R164), else the tree is malformed (rule R163). -/
def htLeafOp (value : Byte) (freq : Word) (left right : BitVec 16) (w : Work) : Except ErrKind Work :=
  if left = 0xFFFF ∧ right = 0xFFFF then .ok { w with arena := w.arena ++ [.leaf value freq.toNat] }
  else .error .malformedStream

/-- An internal record executed: loaded at index `i` when both children are below `i` (rules R98 (d), R164),
else the tree is malformed (rule R163). -/
def htNodeOp (freq : Word) (left right : BitVec 16) (w : Work) : Except ErrKind Work :=
  if left.toNat < w.arena.length ∧ right.toNat < w.arena.length then
    .ok { w with arena := w.arena ++ [.node freq.toNat left.toNat right.toNat] }
  else .error .malformedStream

/-- The record with these fields executed (rules R98 (b), R163, R164). -/
def htRecordOp (flags value : Byte) (freq : Word) (left right : BitVec 16) (w : Work) :
    Except ErrKind Work :=
  if flags = 1 then htLeafOp value freq left right w
  else if flags = 0 then htNodeOp freq left right w
  else .error .malformedStream

/-- One iteration of the tree loader: the record of the next arena index. -/
def loadBody (mem : List Byte) (w : Work) : Except ErrKind Work :=
  let i := Config.nodeRec * w.arena.length
  htRecordOp (at0 mem i) (at0 mem (i + 1))
    (be32 (at0 mem (i + 2)) (at0 mem (i + 3)) (at0 mem (i + 4)) (at0 mem (i + 5)))
    (be16 (at0 mem (i + 6)) (at0 mem (i + 7))) (be16 (at0 mem (i + 8)) (at0 mem (i + 9))) w

/-- All `t` records are loaded. -/
def loadDone (t : Nat) (w : Work) : Bool := decide (t ≤ w.arena.length)

/-- Deserialisation with validation of `t` records (rules R163, R164). -/
def loadTree (t : Nat) (mem : List Byte) (w : Work) : Except ErrKind Work :=
  tryLoop (loadDone t) (loadBody mem) t w

/-- The child of node `i` on a bit (rule R166). A node that is no internal node has none; the walk never asks
there (log 20). -/
def childOf (arena : List Node) (i : Nat) (bit : Bool) : Nat :=
  match arena[i]? with
  | some (.node _ l r) => if bit then r else l
  | _ => i

/-- The walk begins at the root with no bit read (rule R161). -/
def beginWalk (w : Work) : Work :=
  { w with phase := .bits, cur := rootOf w.arena, bitpos := 0, out := [] }

/-- One iteration of the bit walk (rules R161, R166, R167, R169). -/
def walkBody (inp : List Byte) (w : Work) : Except ErrKind Work :=
  if 8 * inp.length ≤ w.bitpos then .error .malformedStream
  else
    let bit := payloadBit inp w.bitpos
    let root := rootOf w.arena
    match w.arena[root]? with
    | some (.leaf v _) => .ok { w with bitpos := w.bitpos + 1, out := w.out ++ [v] }
    | _ =>
      let c := childOf w.arena w.cur bit
      match w.arena[c]? with
      | some (.leaf v _) => .ok { w with bitpos := w.bitpos + 1, out := w.out ++ [v], cur := root }
      | _ => .ok { w with bitpos := w.bitpos + 1, cur := c }

/-- `ORIG_SIZE` bytes have been emitted: "after the `N`th byte no further bit is read" (rule R168). -/
def walkDone (size : Nat) (w : Work) : Bool := decide (size ≤ w.olen)

/-- The bit walk; each iteration consumes a bit or raises. -/
def walkBits (inp : List Byte) (size : Nat) (w : Work) : Except ErrKind Work :=
  tryLoop (walkDone size) (walkBody inp) (8 * inp.length + 1) w

/-- `huff_decompress(in, tree, N)` (rule R161): `t` records in `mem`, the tests in the order written. -/
def huffDecompress (outMax : Nat) (inp : List Byte) (t : Nat) (mem : List Byte) (size : Nat) :
    Except ErrKind (List Byte) :=
  if t = 0 then (if size = 0 ∧ inp.length = 0 then .ok [] else .error .missingMetadata)
  else if Config.nodeMax < t then .error .malformedStream
  else
    match loadTree t mem .init with
    | .error k => .error k
    | .ok w =>
      if outMax < size then .error .capacityExceeded
      else (walkBits inp size (beginWalk w)).map Work.out

/-- `HT.LEAF` (rules R163, R164), executed by the tree loader. -/
def execHtLeaf (value : Byte) (freq : Word) (left right : BitVec 16) (s : State) :
    Host.Outcome State Fault Refusal :=
  recordStep .tree (htLeafOp value freq left right) s

/-- `HT.NODE` (rules R163, R164); its `VALUE` is ignored. -/
def execHtNode (_value : Byte) (freq : Word) (left right : BitVec 16) (s : State) :
    Host.Outcome State Fault Refusal :=
  recordStep .tree (htNodeOp freq left right) s

/-- `HT.RSVD` (rule R163): raises `MalformedStream`. -/
def execHtRsvd (_flags : Byte) (_rest : BitVec 72) (s : State) : Host.Outcome State Fault Refusal :=
  recordStep .tree (fun _ => .error .malformedStream) s

end Sys2Proof.Machine
end

