-- ==== Sys2Proof/Machine/Lz77.lean ====
section
/-! DEFINITION. The LZ77 codec unit (spec 43) and the meanings of its token instructions. -/

namespace Sys2Proof.Machine

open Sys2Proof

/-- The length of the longest common prefix of two sequences, cut at the first argument (rule R194). -/
def commonPrefix : Nat → List Byte → List Byte → Nat
  | k + 1, a :: as, b :: bs => if a = b then commonPrefix k as bs + 1 else 0
  | _, _, _ => 0

/-- `maxlen` = min(`L`, `n − pos`) (rule R193). -/
def maxLen (l : Nat) (inp : List Byte) (pos : Nat) : Nat := min l (inp.length - pos)

/-- `ml(d)` (rule R194): what the CAM cell `d` finds. The compared sequences overlap when the match is longer
than `d` (rule R195). -/
def matchLength (l : Nat) (inp : List Byte) (pos d : Nat) : Nat :=
  commonPrefix (maxLen l inp pos) (inp.drop (pos - d)) (inp.drop pos)

/-- One cell of the scan: "replace the best so far only on a strictly longer match" (rule R196). -/
def takeLonger (l : Nat) (inp : List Byte) (pos : Nat) (best : Nat × Nat) (d : Nat) : Nat × Nat :=
  if best.1 < matchLength l inp pos d then (matchLength l inp pos d, d) else best

/-- `search(pos)` (rules R193 to R196): `(best, boff)` over the offsets 1 .. min(`W`, `pos`). -/
def search (w l : Nat) (inp : List Byte) (pos : Nat) : Nat × Nat :=
  ((List.range (min w pos)).map (· + 1)).foldl (takeLonger l inp pos) (0, 0)

/-- The token of one iteration (rules R197, R199, R200). -/
def lzToken (inp : List Byte) (pos best boff : Nat) : Instr :=
  if 0 < best then
    if pos + best < inp.length then
      .lzCopylit (BitVec.ofNat 16 boff) (byteOf best) (at0 inp (pos + best))
    else .lzCopyend (BitVec.ofNat 16 boff) (byteOf best)
  else .lzLit (at0 inp pos)

/-- How far one iteration advances (rule R198). -/
def lzAdvance (inp : List Byte) (pos best : Nat) : Nat :=
  if 0 < best then (if pos + best < inp.length then best + 1 else inp.length - pos) else 1

/-- One iteration of the compressor's loop (rule R191). -/
def lzEncBody (b : Build) (inp : List Byte) (w : Work) : Work :=
  let m := search b.w b.l inp w.pos
  { w with
    best := m.1, boff := m.2, pos := w.pos + lzAdvance inp w.pos m.1,
    out := w.out ++ encode (lzToken inp w.pos m.1 m.2) }

/-- The compressor's loop; each iteration covers a byte or more (rule R198). -/
def lzEncode (b : Build) (inp : List Byte) (w : Work) : Work :=
  runLoop (inputDone inp) (lzEncBody b inp) inp.length w

/-- `lz_compress(in)` (rule R191). -/
def lzCompress (b : Build) (inp : List Byte) : List Byte := (lzEncode b inp .init).out

/-- A pure literal executed (rules R210, R212). -/
def lzLitOp (outMax : Nat) (lit : Byte) (w : Work) : Except ErrKind Work :=
  if outMax < w.olen + 1 then .error .capacityExceeded
  else
    .ok { w with
      record := [0, 0, 0, lit], copy := 0, pos := w.pos + Config.lzRec, out := w.out ++ [lit] }

/-- A match executed (rules R210, R213 to R216): the offset range, the capacity, then `len` times
`emit(out[|out| − OFF])` forward, then the literal if there is one. -/
def lzMatchOp (outMax : Nat) (off len : Nat) (lit : Option Byte) (rec : List Byte) (w : Work) :
    Except ErrKind Work :=
  if w.olen < off then .error .malformedStream
  else if outMax < w.olen + len + lit.toList.length then .error .capacityExceeded
  else
    let copied := emitLoop (fun out => at0 out (out.length - off)) len
      { w with record := rec, copy := len, pos := w.pos + Config.lzRec }
    .ok { copied with out := copied.out ++ lit.toList }

/-- The record with these fields executed: the tests of rule R210 in the order written. -/
def lzRecordOp (outMax : Nat) (off : BitVec 16) (lenf b3 : Byte) (w : Work) : Except ErrKind Work :=
  if off = 0 then
    if lenf = 0 then lzLitOp outMax b3 w else .error .malformedStream
  else if lenf = 0 then
    if b3 = 0 then .error .malformedStream
    else lzMatchOp outMax off.toNat b3.toNat none (bytes16 off ++ [lenf, b3]) w
  else lzMatchOp outMax off.toNat lenf.toNat (some b3) (bytes16 off ++ [lenf, b3]) w

/-- One iteration of the decoder's loop (rule R210). -/
def lzDecBody (outMax : Nat) (inp : List Byte) (w : Work) : Except ErrKind Work :=
  lzRecordOp outMax (be16 (at0 inp w.pos) (at0 inp (w.pos + 1))) (at0 inp (w.pos + 2))
    (at0 inp (w.pos + 3)) w

/-- The decoder's loop over its records. -/
def lzDecode (outMax : Nat) (inp : List Byte) (w : Work) : Except ErrKind Work :=
  tryLoop (inputDone inp) (lzDecBody outMax inp) (inp.length / Config.lzRec) w

/-- `lz_decompress(in)` (rule R210). -/
def lzDecompress (outMax : Nat) (inp : List Byte) : Except ErrKind (List Byte) :=
  if inp.length % Config.lzRec ≠ 0 then .error .malformedStream
  else (lzDecode outMax inp .init).map Work.out

/-- `LZ.LIT` (rule R212). -/
def execLzLit (lit : Byte) (s : State) : Host.Outcome State Fault Refusal :=
  recordStep .decLz (lzLitOp s.build.outMax lit) s

/-- `LZ.COPYLIT` (rule R213). -/
def execLzCopylit (off : BitVec 16) (len lit : Byte) (s : State) : Host.Outcome State Fault Refusal :=
  recordStep .decLz
    (lzMatchOp s.build.outMax off.toNat len.toNat (some lit) (bytes16 off ++ [len, lit])) s

/-- `LZ.COPYEND` (rule R214): no literal; accepted at any place in the stream. -/
def execLzCopyend (off : BitVec 16) (len : Byte) (s : State) : Host.Outcome State Fault Refusal :=
  recordStep .decLz (lzMatchOp s.build.outMax off.toNat len.toNat none (bytes16 off ++ [0, len])) s

/-- `LZ.RSVD_ZEROLEN` (rule R211): raises `MalformedStream`. -/
def execLzRsvdZerolen (_off : BitVec 16) (s : State) : Host.Outcome State Fault Refusal :=
  recordStep .decLz (fun _ => .error .malformedStream) s

/-- `LZ.RSVD_ZEROOFF` (rule R211): raises `MalformedStream`. -/
def execLzRsvdZerooff (_len _b3 : Byte) (s : State) : Host.Outcome State Fault Refusal :=
  recordStep .decLz (fun _ => .error .malformedStream) s

end Sys2Proof.Machine
end

