-- ==== Sys2Proof/Machine/Orchestrator.lean ====
section
/-! DEFINITION. The Compression Orchestrator (spec 44) and the meanings of the ten host commands. A command's
meaning is the completion step of rule R23: the total function of rules R231 to R262 on the inputs of rule
R11. -/

namespace Sys2Proof.Machine

open Sys2Proof

/-! ### Compression results -/

/-- The result of a compress command before it goes to registers (rules R232, R240). -/
structure Result where
  alg : Alg
  payload : List Byte
  tree : List Node
  orig : Nat
  comp : Nat
  ratio : Nat
  avoid : Nat
  effective : Bool
  deriving DecidableEq, Repr

/-- One codec attempt (rules R232, R251). No compressor raises. -/
def attempt (b : Build) (inp : List Byte) : Alg → Candidate
  | .rle =>
    { alg := .rle, rawSize := (rleCompress inp).length, err := none, payload := rleCompress inp, tree := [] }
  | .huffman =>
    { alg := .huffman, rawSize := (huffCompress inp).1.length, err := none, payload := (huffCompress inp).1,
      tree := (huffCompress inp).2 }
  | .lz77 =>
    { alg := .lz77, rawSize := (lzCompress b inp).length, err := none, payload := lzCompress b inp,
      tree := [] }

/-- The effectiveness policy: the effective result (rule R234) or the fallback (rules R235, R238, R239). -/
def policy (inp : List Byte) (c : Candidate) : Result :=
  if isEffective c.rawSize inp.length then
    { alg := c.alg, payload := c.payload, tree := c.tree, orig := inp.length, comp := c.rawSize,
      ratio := ratioOf inp.length c.rawSize, avoid := 0, effective := true }
  else
    { alg := c.alg, payload := inp, tree := [], orig := inp.length, comp := inp.length, ratio := 0,
      avoid := c.rawSize - inp.length, effective := false }

/-- A table entry for a surviving attempt (rule R256). -/
def testedEntry (r : Result) : TestedEntry :=
  { info := testedInfo r.alg.code r.effective, size := BitVec.ofNat 32 r.comp,
    ratio := BitVec.ofNat 32 r.ratio }

/-- The result registers of a compress command (rules R240, R257). `tested` are the surviving attempts of
`SMART_COMPRESS`, none for `COMPRESS`. -/
def compressResults (r : Result) (time : Word) (tested : List Result) (mask : Nat) : Results :=
  let entry := fun k => ((tested[k]?).map testedEntry).getD .zero
  { outLen := BitVec.ofNat 32 r.payload.length, rOrig := BitVec.ofNat 32 r.orig,
    rComp := BitVec.ofNat 32 r.comp, rRatio := BitVec.ofNat 32 r.ratio,
    rInfo := infoWord r.alg.code (!r.effective) r.effective tested.length mask,
    rAvoid := BitVec.ofNat 32 r.avoid, rMetaLen := BitVec.ofNat 32 r.tree.length, rTime := time,
    t0 := entry 0, t1 := entry 1, t2 := entry 2 }

/-- A compress result published by the completion step; `R_TIME` is a fresh free value (rules R19, R241). -/
def State.publish (s : State) (r : Result) (tested : List Result) (mask : Nat) : State :=
  s.finish (compressResults r (Config.freeWord s.draws) tested mask) r.payload (serialise r.tree)

/-! ### COMPRESS -/

/-- The end of `COMPRESS`: the attempt's raise, or the result its policy gives (rule R232). -/
def State.endCompress (s : State) (c : Candidate) : State :=
  match c.err with
  | some k => s.raise k
  | none => s.publish (policy s.input c) [] 0

/-- `COMPRESS` of a registered algorithm (rules R232, R233). -/
def State.compress (a : Alg) (s : State) : State :=
  if s.build.inMax < s.n then s.raise .capacityExceeded else s.endCompress (attempt s.build s.input a)

/-! ### DECOMPRESS -/

/-- The end of `DECOMPRESS`: the error propagated, or the bytes and `OUT_LEN` (rules R244, R246). -/
def State.endDecompress (s : State) : Except ErrKind (List Byte) → State
  | .error k => s.raise k
  | .ok out => s.finish { Results.zero with outLen := BitVec.ofNat 32 out.length } out []

/-- The bytes `DECOMPRESS` of an algorithm gives, or the error it raises (rule R244). -/
def State.decompressed (s : State) : Alg → Except ErrKind (List Byte)
  | .rle => rleDecompress s.build.outMax s.input
  | .huffman =>
    huffDecompress s.build.outMax s.input s.metaLen.toNat s.metaBytes s.origSize.toNat
  | .lz77 => lzDecompress s.build.outMax s.input

/-- `DECOMPRESS` of a registered algorithm (rules R233, R244). -/
def State.decompress (a : Alg) (s : State) : State :=
  if s.build.inMax < s.n then s.raise .capacityExceeded else s.endDecompress (s.decompressed a)

/-! ### SMART_COMPRESS -/

/-- The tier of a result: 0 for an effective one, 1 for an ineffective one (rule R254). -/
def Result.tier (r : Result) : Nat := if r.effective then 0 else 1

/-- The selection key of rule R254, `(1 − EFFECTIVE, compressedSize, code)`, compared lexicographically. -/
def Result.before (r q : Result) : Bool :=
  decide (r.tier < q.tier) ||
    (decide (r.tier = q.tier) &&
      (decide (r.comp < q.comp) || (decide (r.comp = q.comp) && decide (r.alg.code < q.alg.code))))

/-- The result with the smallest key; none of none (rule R254). -/
def selectBest : List Result → Option Result
  | [] => none
  | r :: rs =>
    match selectBest rs with
    | none => some r
    | some q => if q.before r then some q else some r

/-- The attempts that did not raise, with their policy applied (rules R251, R252). -/
def survivors (inp : List Byte) (cands : List Candidate) : List Result :=
  (cands.filter (fun c => c.err.isNone)).map (policy inp)

/-- The end of `SMART_COMPRESS`: the selection over the surviving attempts (rules R252 to R257). -/
def State.endSmart (s : State) (cands : List Candidate) : State :=
  match selectBest (survivors s.input cands) with
  | none => s.raise .allCodecsFailed
  | some r => s.publish r (survivors s.input cands) (failMask cands)

/-- The registered algorithms in registration order (rule R83). -/
def registered : List Alg := [.rle, .huffman, .lz77]

/-- `SMART_COMPRESS` (rule R250). -/
def State.smart (s : State) : State :=
  if s.build.inMax < s.n then s.raise .capacityExceeded
  else s.endSmart (registered.map (attempt s.build s.input))

/-! ### LIST_ALGORITHMS -/

/-- One entry of the listing ROM (rule R262). -/
def listingEntry (code : Byte) (name desc : List Byte) : List Byte :=
  [code, byteOf name.length] ++ name ++ bytes16 (BitVec.ofNat 16 desc.length) ++ desc

/-- The name `"rle"`. -/
def nameRle : List Byte := [0x72, 0x6C, 0x65]
/-- The name `"huffman"`. -/
def nameHuffman : List Byte := [0x68, 0x75, 0x66, 0x66, 0x6D, 0x61, 0x6E]
/-- The name `"lz77"`. -/
def nameLz77 : List Byte := [0x6C, 0x7A, 0x37, 0x37]

/-- The listing ROM (rule R262). -/
def listing (b : Build) : List Byte :=
  [byteOf Config.nAlg] ++ listingEntry 0 nameRle b.descRle ++ listingEntry 1 nameHuffman b.descHuffman ++
    listingEntry 2 nameLz77 b.descLz77

/-- `LIST_ALGORITHMS` (rule R260). -/
def State.list (s : State) : State :=
  s.finish { Results.zero with outLen := BitVec.ofNat 32 (listing s.build).length } (listing s.build) []

/-! ### The meanings -/

/-- `COMPRESS.RLE` (rules R232, R121, R240). -/
def execCompressRle (s : State) : Host.Outcome State Fault Refusal := whenBusy (State.compress .rle) s

/-- `COMPRESS.HUFFMAN` (rules R232, R141, R238, R240). -/
def execCompressHuffman (s : State) : Host.Outcome State Fault Refusal :=
  whenBusy (State.compress .huffman) s

/-- `COMPRESS.LZ77` (rules R232, R191, R240). -/
def execCompressLz77 (s : State) : Host.Outcome State Fault Refusal := whenBusy (State.compress .lz77) s

/-- `COMPRESS.UNSUPPORTED` (rules R84, R231): raises as the first action. -/
def execCompressUnsupported (_alg : BitVec 6) (s : State) : Host.Outcome State Fault Refusal :=
  whenBusy (fun s => s.raise .unsupportedAlgorithm) s

/-- `DECOMPRESS.RLE` (rules R244, R126, R246). -/
def execDecompressRle (s : State) : Host.Outcome State Fault Refusal :=
  whenBusy (State.decompress .rle) s

/-- `DECOMPRESS.HUFFMAN` (rules R244, R161, R246). -/
def execDecompressHuffman (s : State) : Host.Outcome State Fault Refusal :=
  whenBusy (State.decompress .huffman) s

/-- `DECOMPRESS.LZ77` (rules R244, R210, R246). -/
def execDecompressLz77 (s : State) : Host.Outcome State Fault Refusal :=
  whenBusy (State.decompress .lz77) s

/-- `DECOMPRESS.UNSUPPORTED` (rules R84, R231): raises as the first action. -/
def execDecompressUnsupported (_alg : BitVec 6) (s : State) : Host.Outcome State Fault Refusal :=
  whenBusy (fun s => s.raise .unsupportedAlgorithm) s

/-- `SMART_COMPRESS` (rules R250 to R257); `ALG` is ignored. -/
def execSmartCompress (_alg : BitVec 6) (s : State) : Host.Outcome State Fault Refusal :=
  whenBusy State.smart s

/-- `LIST_ALGORITHMS` (rules R260, R262); `ALG` is ignored. -/
def execListAlgorithms (_alg : BitVec 6) (s : State) : Host.Outcome State Fault Refusal :=
  whenBusy State.list s

end Sys2Proof.Machine
end

