-- ==== Sys2Proof/Machine/Dispatch.lean ====
section
/-! DEFINITION. The meaning of every instruction: one arm per row of spec/opcode_table.json. -/

namespace Sys2Proof.Machine

open Sys2Proof

/-- The one dispatch from an instruction to its meaning. -/
def exec (i : Instr) (s : State) : Host.Outcome State Fault Refusal :=
  match i with
  | .compressRle => Sys2Proof.Machine.execCompressRle s
  | .compressHuffman => Sys2Proof.Machine.execCompressHuffman s
  | .compressLz77 => Sys2Proof.Machine.execCompressLz77 s
  | .compressUnsupported alg => Sys2Proof.Machine.execCompressUnsupported alg s
  | .decompressRle => Sys2Proof.Machine.execDecompressRle s
  | .decompressHuffman => Sys2Proof.Machine.execDecompressHuffman s
  | .decompressLz77 => Sys2Proof.Machine.execDecompressLz77 s
  | .decompressUnsupported alg => Sys2Proof.Machine.execDecompressUnsupported alg s
  | .smartCompress alg => Sys2Proof.Machine.execSmartCompress alg s
  | .listAlgorithms alg => Sys2Proof.Machine.execListAlgorithms alg s
  | .start rest => Sys2Proof.Machine.execStart rest s
  | .clear rest => Sys2Proof.Machine.execClear rest s
  | .rleRun value count => Sys2Proof.Machine.execRleRun value count s
  | .lzLit lit => Sys2Proof.Machine.execLzLit lit s
  | .lzCopylit off len lit => Sys2Proof.Machine.execLzCopylit off len lit s
  | .lzCopyend off len => Sys2Proof.Machine.execLzCopyend off len s
  | .lzRsvdZerolen off => Sys2Proof.Machine.execLzRsvdZerolen off s
  | .lzRsvdZerooff len b3 => Sys2Proof.Machine.execLzRsvdZerooff len b3 s
  | .htLeaf value freq left right => Sys2Proof.Machine.execHtLeaf value freq left right s
  | .htNode value freq left right => Sys2Proof.Machine.execHtNode value freq left right s
  | .htRsvd flags rest => Sys2Proof.Machine.execHtRsvd flags rest s

end Sys2Proof.Machine
end

