-- ==== Sys2Proof/Machine/Engine.lean ====
section
/-! DEFINITION. The running command piece by piece: which record, byte, merge or bit comes next. Each piece is
one iteration of a loop of the units, so the pieces of a command together are its completion step (log 6);
nothing but the working structures changes before the last piece. Record pieces are instructions: they are
fetched here and executed by their own meaning. -/

namespace Sys2Proof.Machine

open Sys2Proof

/-- What a step does: run an instruction in a state, or answer at once. -/
inductive Act where
  | run (i : Instr) (s : State)
  | settled (o : Host.Outcome State Fault Refusal)

/-- The loop in which an attempt of an algorithm begins. -/
def Alg.phase : Alg → Phase
  | .rle => .encRle
  | .huffman => .count
  | .lz77 => .encLz

/-- The structures at the beginning of an attempt: initialised, but for the candidates (rules R11, R34). DESIGN CHOICE
(safe, log 25): so `pos`, `out` and the other structures restart for each attempt of `SMART_COMPRESS`; that the cursors
"only increase within a command" (rule R26) is read of one attempt. -/
def beginAttempt (a : Alg) (cands : List Candidate) : Work :=
  { Work.init with phase := a.phase, cands := cands }

/-- The candidate record of the attempt the working structures have ended (rule R34). -/
def endedAttempt (a : Alg) (tree : List Node) (w : Work) : Candidate :=
  { alg := a, rawSize := w.out.length, err := none, payload := w.out, tree := tree }

/-- The attempt after one of an algorithm: the attempts run one after another in code order, as U17 allows (rules R83,
R255). -/
def Alg.following : Alg → Option Alg
  | .rle => some .huffman
  | .huffman => some .lz77
  | .lz77 => none

/-- The piece that ends an attempt: `COMPRESS` completes; `SMART_COMPRESS` begins the next attempt, and
after the last one selects and completes (rules R62, R232, R250). -/
def State.endAttempt (s : State) (a : Alg) (tree : List Node) : State :=
  let c := endedAttempt a tree s.work
  match s.command with
  | .smartCompress _ =>
    match a.following with
    | some a' => s.withWork (beginAttempt a' (s.work.cands ++ [c]))
    | none => s.endSmart (s.work.cands ++ [c])
  | _ => s.endCompress c

/-- The piece that begins an attempt-running command (rules R232, R233, R250). -/
def State.beginCompress (s : State) (a : Alg) : State :=
  if s.build.inMax < s.n then s.raise .capacityExceeded else s.withWork (beginAttempt a [])

/-- The piece that begins a record decoder: the tests made before any record is read (rules R56, R233,
R283). -/
def State.beginRecords (s : State) (ph : Phase) (size : Nat) : State :=
  if s.build.inMax < s.n then s.raise .capacityExceeded
  else if s.n % size ≠ 0 then s.raise .malformedStream
  else s.withWork { Work.init with phase := ph }

/-- The piece that begins the Huffman decoder: the tests made before any record is read (rules R161, R162,
R233, R283). -/
def State.beginHuffman (s : State) : State :=
  if s.build.inMax < s.n then s.raise .capacityExceeded
  else if s.metaLen.toNat = 0 then
    (if s.origSize.toNat = 0 ∧ s.n = 0 then s.endDecompress (.ok []) else s.raise .missingMetadata)
  else if Config.nodeMax < s.metaLen.toNat then s.raise .malformedStream
  else s.withWork { Work.init with phase := .tree }

/-- The first piece of a command: its dispatch. A command without loops is executed whole. -/
def State.begin (s : State) : Act :=
  match s.command with
  | .compressRle => .settled (.next (s.beginCompress .rle))
  | .compressHuffman => .settled (.next (s.beginCompress .huffman))
  | .compressLz77 => .settled (.next (s.beginCompress .lz77))
  | .smartCompress _ => .settled (.next (s.beginCompress .rle))
  | .decompressRle => .settled (.next (s.beginRecords .decRle Config.rleRec))
  | .decompressLz77 => .settled (.next (s.beginRecords .decLz Config.lzRec))
  | .decompressHuffman => .settled (.next s.beginHuffman)
  | i => .run i s

/-- The next record: the instruction its bytes decode to, run by the decoder. -/
def State.runRecord (s : State) (f : Format) (bytes : List Byte) : Act :=
  match decode f bytes with
  | .ok i => .run i s
  | .error _ => .settled (.next (s.raise .malformedStream))

/-- The piece in which an iteration that may raise is made. -/
def State.tryPiece (s : State) (r : Except ErrKind Work) : State :=
  match r with
  | .ok w => s.withWork w
  | .error k => s.raise k

/-- The next piece of the running command, by the loop it is in. -/
def State.piece (s : State) : Act :=
  let w := s.work
  match w.phase with
  | .fresh => s.begin
  | .encRle =>
    if inputDone s.input w then .settled (.next (s.endAttempt .rle []))
    else .settled (.next (s.withWork (rleEncBody s.input w)))
  | .encLz =>
    if inputDone s.input w then .settled (.next (s.endAttempt .lz77 []))
    else .settled (.next (s.withWork (lzEncBody s.build s.input w)))
  | .count =>
    if s.n = 0 then .settled (.next (s.endAttempt .huffman []))
    else if inputDone s.input w then .settled (.next (s.withWork { createLeaves w with phase := .merge }))
    else .settled (.next (s.withWork (countBody s.input w)))
  | .merge =>
    if mergeDone w then .settled (.next (s.withWork { deriveCodes w with phase := .pack }))
    else .settled (.next (s.withWork (mergeBody keyLess w)))
  | .pack =>
    if inputDone s.input w then
      .settled (.next ((s.withWork (flushBits w)).endAttempt .huffman w.arena))
    else .settled (.next (s.withWork (packBody s.input w)))
  | .decRle =>
    if inputDone s.input w then .settled (.next (s.endDecompress (.ok w.out)))
    else s.runRecord .rle16 s.rleRecordBytes
  | .decLz =>
    if inputDone s.input w then .settled (.next (s.endDecompress (.ok w.out)))
    else s.runRecord .lz32 s.lzRecordBytes
  | .tree =>
    if loadDone s.metaLen.toNat w then
      (if s.build.outMax < s.origSize.toNat then .settled (.next (s.raise .capacityExceeded))
       else .settled (.next (s.withWork (beginWalk w))))
    else s.runRecord .node80 s.nodeRecordBytes
  | .bits =>
    if walkDone s.origSize.toNat w then .settled (.next (s.endDecompress (.ok w.out)))
    else .settled (.next (s.tryPiece (walkBody s.input w)))

end Sys2Proof.Machine
end

