-- ==== Sys2Proof/Machine/Fetch.lean ====
section
/-! DEFINITION. What the next step does: the head of the agenda (log 4), the host's access rights by state
(rule R21), the command the engine completes (rule R23), and how a word is placed where the next step finds
it. -/

namespace Sys2Proof.Machine

open Sys2Proof

/-- The engine's turn: in `BUSY` the completion step of the latched command (rules R23, R81); else nothing
(rule R280). -/
def State.engineTurn (s : State) : Act :=
  if s.state = .busy then .run s.command s else .settled (.next s)

/-- A turn for one piece of the running command; nothing runs unless `BUSY` (rule R280). -/
def State.workTurn (s : State) : Act :=
  if s.state = .busy then s.piece else .settled (.next s)

/-- The host reads a word: of the register block (rules R12, R21), or the four bytes of a buffer's window as one number
(rule R54). -/
def State.hostRead (s : State) (addr : Nat) : Act :=
  if wordAt s.build addr then .settled (.next (s.readRegister addr))
  else
    match windowAt s.build addr 4 with
    | some (id, off) =>
      if s.state = .busy then .settled (.next s.returnedAny)
      else
        .settled (.next { s with
          readData := wordOfLanes s.build (s.readLanes id off 4), draws := s.draws + 1 })
    | none => .settled (.fault (.misalignedRegister addr))

/-- The host stores bytes in a buffer's window: dropped while `BUSY` (rule R21). -/
def State.hostStoreLanes (s : State) (id : BufId) (off : Nat) (vs : List Byte) : Act :=
  if s.state = .busy then .settled (.next s) else .settled (.next (s.storeLanes id off vs))

/-- The host writes a word: a `CTRL` word is an instruction (rule R14), other registers are stored unless `BUSY` (rule
R21), an address that selects no register ignores the write (rule R291); in a buffer's window the word is four bytes
(rule R54). -/
def State.hostWrite (s : State) (addr : Nat) (v : Word) : Act :=
  if wordAt s.build addr then
    match regAt s.build addr with
    | none => .settled (.next s)
    | some .ctrl =>
      match decodeCtrl v with
      | .ok i => .run i s
      | .error _ => .settled (.next s)
    | some r => if s.state = .busy then .settled (.next s) else .settled (.next (s.writeStored r v))
  else
    match windowAt s.build addr 4 with
    | some (id, off) => s.hostStoreLanes id off (lanesOfWord s.build v)
    | none => .settled (.fault (.misalignedRegister addr))

/-- The host reads a buffer byte (rules R21, R50). -/
def State.hostReadBuf (s : State) (id : BufId) (i : Nat) : Act :=
  if i < s.build.bufSize id then
    (if s.state = .busy then .settled (.next s.returnedAny)
     else .settled (.next (s.returned ((0 : BitVec 24) ++ s.readByte id i))))
  else .settled (.fault (.bufferIndex id i))

/-- The host writes a buffer byte: dropped while `BUSY`, and for the output buffers in every state (rule
R21). -/
def State.hostWriteBuf (s : State) (id : BufId) (i : Nat) (v : Byte) : Act :=
  if i < s.build.bufSize id then
    (if s.state = .busy then .settled (.next s) else .settled (.next (s.storeByte id i v)))
  else .settled (.fault (.bufferIndex id i))

/-- A host access to a byte by its bus address: the access to the buffer byte the address selects (rules R54, R60). A
place in a window that carries no byte answers as the platform will, `gap`. -/
def State.hostBus (s : State) (addr : Nat) (access : BufId → Nat → Act) (gap : State) : Act :=
  match bufAt s.build addr with
  | some (id, i) => access id i
  | none => if (windowAt s.build addr 1).isSome then .settled (.next gap) else .settled (.fault (.unmappedByte addr))

/-- The host reads `n` bytes by their bus addresses (rule R54): the four lanes of a word of the register block, or the
bytes of a buffer's window. -/
def State.hostReadWide (s : State) (addr n : Nat) : Act :=
  if n = 4 ∧ wordAt s.build addr then
    let t := s.readRegister addr
    .settled (.next { t with readData := s.readData, busData := lanesOfWord s.build t.readData })
  else
    match windowAt s.build addr n with
    | some (id, off) =>
      if s.state = .busy then .settled (.next (s.returnedAnyLanes n))
      else .settled (.next (s.returnedLanes (s.readLanes id off n)))
    | none => .settled (.fault (.unmappedWide addr n))

/-- The host writes bytes by their bus addresses (rule R54): a word of the register block by its four lanes, or bytes of
a buffer's window. -/
def State.hostWriteWide (s : State) (addr : Nat) (vs : List Byte) : Act :=
  if vs.length = 4 ∧ wordAt s.build addr then s.hostWrite addr (wordOfLanes s.build vs)
  else
    match windowAt s.build addr vs.length with
    | some (id, off) => s.hostStoreLanes id off vs
    | none => .settled (.fault (.unmappedWide addr vs.length))

/-- One host access (rule R10). -/
def State.hostTurn (s : State) : Access → Act
  | .writeReg addr v => s.hostWrite addr v
  | .readReg addr => s.hostRead addr
  | .writeBuf id i v => s.hostWriteBuf id i v
  | .readBuf id i => s.hostReadBuf id i
  | .writeBus addr v => s.hostBus addr (fun id i => s.hostWriteBuf id i v) s
  | .readBus addr => s.hostBus addr s.hostReadBuf s.returnedAny
  | .writeWide addr vs => s.hostWriteWide addr vs
  | .readWide addr n => s.hostReadWide addr n

/-- The event that acts (log 4). -/
def State.turn (s : State) : Event → Act
  | .host a => s.hostTurn a
  | .engine => s.engineTurn
  | .work => s.workTurn
  | .reset => .settled (.next s.platformReset)

/-- What the next step does: the head of the agenda acts in the state without it; with an empty agenda the
engine acts, so a started command always completes (rule R23). -/
def State.act (s : State) : Act :=
  match s.agenda with
  | [] => s.engineTurn
  | e :: q => (s.withAgenda q).turn e

/-- A running command at the loop `ph`, its first piece or its completion step next. -/
def State.running (s : State) (command : Byte) (ph : Phase) (e : Event) : State :=
  { s with
    latched := command, state := .busy, err := none, work := { Work.init with phase := ph },
    agenda := e :: s.agenda }

/-- Consecutive bytes stored from index `i` on. -/
def storeAll : Buffer → Nat → List Byte → Buffer
  | b, _, [] => b
  | b, i, v :: vs => storeAll (b.write i v) (i + 1) vs

/-- A word placed where the next step finds it (log 21): a command as the latched command of a `BUSY`
engine; a `CTRL` word as the host's next write; a record as the first of the stream or tree of a running
decoder. -/
def State.placeWord (s : State) (f : Format) (bytes : List Byte) : State :=
  match f with
  | .cmd8 => s.running (at0 bytes 0) .fresh .engine
  | .ctrl =>
    { s with
      agenda := .host (.writeReg (s.build.base + 4)
        (be32 (at0 bytes 0) (at0 bytes 1) (at0 bytes 2) (at0 bytes 3))) :: s.agenda }
  | .rle16 =>
    { s.running 0x40 .decRle .work with ibuf := storeAll s.ibuf 0 bytes, inLen := 2 }
  | .lz32 => { s.running 0x42 .decLz .work with ibuf := storeAll s.ibuf 0 bytes, inLen := 4 }
  | .node80 => { s.running 0x41 .tree .work with mibuf := storeAll s.mibuf 0 bytes, metaLen := 1 }

end Sys2Proof.Machine
end

