-- ==== Sys2Proof/Machine/Step.lean ====
section
/-! DEFINITION. One step of the machine, and the placement of a word for the next step. -/

namespace Sys2Proof.Machine

open Sys2Proof

/-- One step: what the agenda's head asks for (`State.act`), an instruction by its meaning. -/
def step (s : State) : Host.Outcome State Fault Refusal :=
  match s.act with
  | .run i t => exec i t
  | .settled o => o

/-- The state whose next step fetches and runs the instruction of a table word (`decodeTableWord`). -/
def State.withFetchWord (s : State) (nbits w : Nat) : State :=
  match tableFormat nbits w with
  | none => s
  | some f => s.placeWord f (bigEndian f.size w)

end Sys2Proof.Machine
end

