-- ==== Sys2Proof/Safety.lean ====
section
/-! DEFINITION. The terms the statements are written in: the predicates on buffers, the form a command error
takes (rule R286), what an instruction leaves alone, and the invariant of the machine. -/

namespace Sys2Proof.Machine

open Sys2Proof

/-! ### Buffers -/

/-- The buffer holds `bs` from index 0 on, and no byte beyond is specified (rules R240, R331). -/
def Buffer.Holds (b : Buffer) (bs : List Byte) : Prop := ∀ i, b.cells.find i = bs[i]?

/-- No byte of the buffer is specified (rule R331). -/
def Buffer.Unspecified (b : Buffer) : Prop := ∀ i, b.cells.find i = none

/-- Every specified byte of the buffer lies inside its size (rules R50, R284). -/
def Buffer.Inside (b : Buffer) (size : Nat) : Prop := ∀ i, (b.cells.find i).isSome → i < size

/-! ### Registers and frames -/

/-- Every result register and tested-table word is 0 (rules R22, R24, R37). -/
def Results.AllZero (r : Results) : Prop :=
  r.outLen = 0 ∧ r.rOrig = 0 ∧ r.rComp = 0 ∧ r.rRatio = 0 ∧ r.rInfo = 0 ∧ r.rAvoid = 0 ∧ r.rMetaLen = 0 ∧
    r.rTime = 0 ∧ r.t0 = ⟨0, 0, 0⟩ ∧ r.t1 = ⟨0, 0, 0⟩ ∧ r.t2 = ⟨0, 0, 0⟩

/-- What no engine step and no strobe changes (rules R16, R51): the build, `CMD`, the operand registers, and
every byte of the input buffers; and the model's own fields that belong to the environment. -/
structure SameInputs (s t : State) : Prop where
  build : t.build = s.build
  cmd : t.cmd = s.cmd
  inLen : t.inLen = s.inLen
  origSize : t.origSize = s.origSize
  metaLen : t.metaLen = s.metaLen
  ibuf : ∀ i, t.readByte .ibuf i = s.readByte .ibuf i
  mibuf : ∀ i, t.readByte .mibuf i = s.readByte .mibuf i
  agenda : t.agenda = s.agenda
  readData : t.readData = s.readData
  busData : t.busData = s.busData

/-- What a record leaves alone besides the inputs: the latched command, `STATUS`, every result register, and
every byte of the output buffers (the running codec's output becomes visible at completion only, rule
R23). -/
structure SameOutputs (s t : State) : Prop where
  latched : t.latched = s.latched
  state : t.state = s.state
  err : t.err = s.err
  res : t.res = s.res
  obuf : ∀ i, t.readByte .obuf i = s.readByte .obuf i
  mobuf : ∀ i, t.readByte .mobuf i = s.readByte .mobuf i
  draws : t.draws = s.draws

/-- The error form of the completion step (rule R286), with its frame. -/
structure ErrorForm (s t : State) (k : ErrKind) : Prop where
  outLen : t.res.outLen = 0
  rOrig : t.res.rOrig = 0
  rComp : t.res.rComp = 0
  rRatio : t.res.rRatio = 0
  rAvoid : t.res.rAvoid = 0
  rMetaLen : t.res.rMetaLen = 0
  rTime : t.res.rTime = 0
  t0 : t.res.t0 = ⟨0, 0, 0⟩
  t1 : t.res.t1 = ⟨0, 0, 0⟩
  t2 : t.res.t2 = ⟨0, 0, 0⟩
  rInfo : k ≠ .allCodecsFailed → t.res.rInfo = 0
  failMask : k = .allCodecsFailed → t.res.rInfo = 0x00070000#32
  obuf : t.obuf.Unspecified
  mobuf : t.mobuf.Unspecified
  err : t.err = some k
  state : t.state = .error
  latched : t.latched = s.latched
  same : SameInputs s t

/-- The form of a successful `DECOMPRESS` and of `LIST_ALGORITHMS` (rules R246, R260), with its frame: the
bytes and their count, every other result register 0. -/
structure DoneForm (s t : State) (out : List Byte) : Prop where
  res : t.res = { Results.zero with outLen := BitVec.ofNat 32 out.length }
  obuf : t.obuf.Holds out
  mobuf : t.mobuf.Unspecified
  err : t.err = none
  state : t.state = .done
  latched : t.latched = s.latched
  same : SameInputs s t

/-! ### The instructions of a registered algorithm -/

/-- `COMPRESS` of an algorithm (rules R82, R83). -/
def compressInstr : Alg → Instr
  | .rle => .compressRle
  | .huffman => .compressHuffman
  | .lz77 => .compressLz77

/-- `DECOMPRESS` of an algorithm (rules R82, R83). -/
def decompressInstr : Alg → Instr
  | .rle => .decompressRle
  | .huffman => .decompressHuffman
  | .lz77 => .decompressLz77

/-- The raw output of an algorithm's compressor (rule R232). -/
def rawOutput (b : Build) (inp : List Byte) : Alg → List Byte
  | .rle => rleCompress inp
  | .huffman => (huffCompress inp).1
  | .lz77 => lzCompress b inp

/-- The tree an algorithm's compressor returns beside its output; `[]` is no tree (rule R232). -/
def rawTree (inp : List Byte) : Alg → List Node
  | .rle => []
  | .huffman => (huffCompress inp).2
  | .lz77 => []

/-- How many input bytes an LZ77 token stands for (rules R197 to R200). -/
def tokenCovers : Instr → Nat
  | .lzLit _ => 1
  | .lzCopylit _ len _ => len.toNat + 1
  | .lzCopyend _ len => len.toNat
  | _ => 0

/-! ### Trees and bits -/

/-- Rule R98 (c) and (d) on a loaded arena: both children of the internal node at index `i` are below `i`. -/
def TreeOk (arena : List Node) : Prop :=
  ∀ (i f l r : Nat), arena[i]? = some (Node.node f l r) → l < i ∧ r < i

/-- The code string of an input under a code table (rule R153). -/
def codeString (code : List (List Bool)) (inp : List Byte) : List Bool :=
  inp.flatMap (fun v => code.getD v.toNat [])

/-- Following bits from a node, left on `0` and right on `1` (rules R150, R166). -/
def descend (arena : List Node) : Nat → List Bool → Nat
  | i, [] => i
  | i, b :: bs => descend arena (childOf arena i b) bs

/-! ### The invariant -/

/-- What a running command's structures satisfy, loop by loop: `IN_LEN` ≤ `IN_MAX` once a loop runs (rules
R233, R284), the cursors inside their limits (rules R26, R284), the arena no longer than 511 records (rule
R28) and well-formed (rule R98), a decoder's output no longer than `OUT_MAX` (rule R284). -/
structure Work.Ok (b : Build) (n origSize metaLen : Nat) (w : Work) : Prop where
  cands : ∀ c ∈ w.cands, c.err = none ∧ c.rawSize = c.payload.length ∧ c.tree.length ≤ Config.nodeMax
  inMax : w.phase ≠ .fresh → n ≤ b.inMax
  pos : w.pos ≤ n
  fill : w.fill ≤ 7
  freq : w.freq.length = 256
  counted : w.phase = .count → (∃ v, v < 256 ∧ 0 < w.freq.getD v 0) ∨ w.pos = 0
  merging : w.phase = .merge →
    1 ≤ w.active.length ∧ w.arena.length + w.active.length ≤ Config.nodeMax + 1
  packing : w.phase = .pack → w.arena.length ≤ Config.nodeMax
  records : w.phase = .decRle ∨ w.phase = .decLz → w.out.length ≤ b.outMax
  rleAligned : w.phase = .decRle → n % Config.rleRec = 0 ∧ w.pos % Config.rleRec = 0
  lzAligned : w.phase = .decLz → n % Config.lzRec = 0 ∧ w.pos % Config.lzRec = 0
  loading : w.phase = .tree →
    w.arena.length ≤ metaLen ∧ 1 ≤ metaLen ∧ metaLen ≤ Config.nodeMax ∧ TreeOk w.arena
  walking : w.phase = .bits →
    origSize ≤ b.outMax ∧ w.out.length ≤ origSize ∧ w.bitpos ≤ 8 * n ∧ TreeOk w.arena ∧
      w.arena.length ≤ Config.nodeMax ∧ w.cur < w.arena.length

/-- The invariant: a legal build; every buffer in its canonical form with its specified bytes inside its size
(rule R50); `ERR` = 0 exactly outside `ERROR` (rule R15); no result held in `IDLE` and `BUSY`, the error
form's registers in `ERROR` (rules R22, R24, R286); in `DONE` exactly `OUT_LEN` bytes of `OBUF` and `10 ×
R_META_LEN` bytes of `MOBUF` are specified (rule R331), the ratio is at most 10000 (rule R237) and
`FALLBACK` and `EFFECTIVE` exclude each other (rule R18); outside `DONE` no byte of the output buffers is
specified (rule R331); the per-call structures live in `BUSY` only (rule R11). -/
structure State.Inv (s : State) : Prop where
  legal : s.build.Legal
  wf : ∀ id, (s.buf id).cells.wf
  inside : ∀ id, (s.buf id).Inside (s.build.bufSize id)
  err : s.err = none ↔ s.state ≠ .error
  noResult : s.state = .idle ∨ s.state = .busy → s.res = .zero
  errorResult : ∀ k, s.err = some k → s.res = errorResults k
  outBytes : s.state = .done → ∀ i, (s.obuf.cells.find i).isSome ↔ i < s.res.outLen.toNat
  treeBytes : s.state = .done →
    ∀ i, (s.mobuf.cells.find i).isSome ↔ i < Config.nodeRec * s.res.rMetaLen.toNat
  ratio : s.res.rRatio.toNat ≤ 10000
  flags : ¬ (infoFallback s.res.rInfo = true ∧ infoEffective s.res.rInfo = true)
  unspecified : s.state ≠ .done → s.obuf.Unspecified ∧ s.mobuf.Unspecified
  atRest : s.state ≠ .busy → s.work = .init
  running : s.state = .busy → s.work.Ok s.build s.n s.origSize.toNat s.metaLen.toNat

end Sys2Proof.Machine
end

