-- ==== Sys2Proof/Certificates/Slice0/Obligations.lean ====
section
/-! DEFINITION. The statements for the provers. Each docstring names the rule of spec/ it formalises; a clause
that rests on a choice of the model names its log entry. -/

open Sys2Proof Sys2Proof.Machine

/-! ### Encoding (spec 30) -/

/-- Decoding the bytes of any well-formed instruction, whatever follows them, gives it back (rules R80 to
R97; that a `CTRL` word has an order of bytes is the model's choice, log 9). -/
def Obligations.EncodeThenDecode : Prop :=
  ∀ (i : Instr) (rest : List Byte), i.wellFormed = true → decode i.format (encode i ++ rest) = .ok i

/-- Whatever bytes decode, they are the bytes of the instruction they decode to, which is well-formed and of
the format read: no bit of an encoding is dropped (rules R80 to R97; that a `CTRL` word has an order of bytes is
the model's choice, log 9). -/
def Obligations.DecodeThenEncode : Prop :=
  ∀ (f : Format) (bs : List Byte) (i : Instr), decode f bs = .ok i →
    i.format = f ∧ i.wellFormed = true ∧ encode i = bs.take f.size

/-- No pattern is undefined: every command byte and every record of the right length is an instruction (rules
R82, R84, R87, R92, R98); a `CTRL` word is one exactly when it has a strobe set (bits 1:0, rule R14). That those
bits are in byte 3 of the word's bytes is the model's choice: a register has no byte order (rule R54, log 9). -/
def Obligations.EveryPatternIsAnInstruction : Prop :=
  ∀ (f : Format) (bs : List Byte), f.size ≤ bs.length →
    ((∃ i, decode f bs = .ok i) ↔ (f = .ctrl → (at0 bs 3).extractLsb' 0 2 ≠ 0))

/-- Words written out from the encodings of rules R80 to R97. That `decodeTableWord` reads the 32-bit word 1 as
`START`, although it is `LZ.LIT` 1 in a stream, is the model's choice (log 8), and so is the order of its bytes (log
9). -/
def Obligations.SpecWordsDecode : Prop :=
  decodeCmd 0x05 = .compressUnsupported 5 ∧
  decodeCmd 0x42 = .decompressLz77 ∧
  decodeCmd 0xBF = .smartCompress 63 ∧
  decodeTableWord 32 0x00000001 = some (.start 0) ∧
  decodeTableWord 16 0x410A = some (.rleRun 0x41 10) ∧
  decodeTableWord 32 0x00030006 = some (.lzCopyend 3 6) ∧
  decodeTableWord 32 0x00010342 = some (.lzCopylit 1 3 0x42) ∧
  decodeTableWord 80 0x00000000000200000001 = some (.htNode 0 2 0 1) ∧
  decodeTableWord 80 0x014100000005FFFFFFFF = some (.htLeaf 0x41 5 0xFFFF 0xFFFF)

/-! ### Reset and the host interface (spec 10, 20, 60, 70) -/

/-- Rule R37: every register is 0 after reset, no byte of a buffer is specified; the per-call structures need
no reset value, since a `START` sets them whatever they were. -/
def Obligations.ResetState : Prop :=
  (State.reset.cmd = 0 ∧ State.reset.latched = 0 ∧ State.reset.statusWord = 0 ∧
    State.reset.state = .idle ∧ State.reset.err = none ∧
    State.reset.inLen = 0 ∧ State.reset.origSize = 0 ∧ State.reset.metaLen = 0 ∧
    State.reset.res.AllZero) ∧
  (∀ id, (State.reset.buf id).Unspecified) ∧
  (∀ (s : State) (w : Work) (rest : BitVec 31), s.state ≠ .busy →
    exec (.start rest) (s.withWork w) = exec (.start rest) s)

/-- The platform's reset (rules R320, R322), in any state: every register 0, no buffer byte specified, a
running command abandoned; the build stays. -/
def Obligations.PlatformResetZeroes : Prop :=
  ∀ (s : State) (q : List Event), s.agenda = .reset :: q →
    ∃ t, step s = .next t ∧ (∀ r, t.regValue r = 0) ∧ t.latched = 0 ∧ t.state = .idle ∧ t.err = none ∧
      (∀ id, (t.buf id).Unspecified) ∧ t.work = .init ∧ t.build = s.build ∧ t.agenda = q

/-- The packed words: `STATUS` (rule R15 with the codes of rule R281) and `R_INFO` (rule R18), every bit. -/
def Obligations.PackedWords : Prop :=
  (∀ s : State,
    s.statusWord.toNat =
      (match s.state with
        | .idle => 0
        | .busy => 1
        | .done => 2
        | .error => 3) +
      16 * (match s.err with
        | none => 0
        | some .unsupportedAlgorithm => 1
        | some .missingMetadata => 2
        | some .malformedStream => 3
        | some .capacityExceeded => 4
        | some .allCodecsFailed => 5)) ∧
  (∀ (alg nTested mask : Nat) (fallback effective : Bool), alg < 64 → nTested < 4 → mask < 8 →
    (infoWord alg fallback effective nTested mask).toNat =
      alg + 2 ^ 8 * fallback.toNat + 2 ^ 9 * effective.toNat + 2 ^ 12 * nTested + 2 ^ 16 * mask)

/-- Outside `BUSY` a host write to a register offset other than `CTRL` stores the word in `CMD` (8 bits, rule
R13) or an operand register (rule R16) and changes nothing else; a read-only register (rule R21) and an offset
that is not listed (rule R291; where the platform maps no buffer there, rule R60) drop it. Four bytes written to a word
of the register block by their bus addresses, `CTRL` included, are the write of the number the platform's byte lanes make
of them, and the lanes of a number make that number again (rule R54; log 24). -/
def Obligations.HostWritesRegisters : Prop :=
  (∀ (s : State) (off : Nat) (v : Word) (q : List Event),
    s.agenda = .host (.writeReg (s.build.base + off) v) :: q →
    (Reg.ofOffset off).isSome ∨ (off % 4 = 0 ∧ windowAt s.build (s.build.base + off) 4 = none) →
    off ≠ 4 → s.state ≠ .busy →
    step s = .next
      (match off with
        | 0x00 => { s with agenda := q, cmd := v.extractLsb' 0 8 }
        | 0x0C => { s with agenda := q, inLen := v }
        | 0x10 => { s with agenda := q, origSize := v }
        | 0x14 => { s with agenda := q, metaLen := v }
        | _ => { s with agenda := q })) ∧
  (∀ (s : State) (addr : Nat) (vs : List Byte) (q : List Event), wordAt s.build addr = true → vs.length = 4 →
    s.agenda = .host (.writeWide addr vs) :: q →
    step s = step { s with agenda := .host (.writeReg addr (wordOfLanes s.build vs)) :: q }) ∧
  (∀ (b : Build) (v : Word), PackingLegal b → wordOfLanes b (lanesOfWord b v) = v)

/-- A host read of a register offset, outside `BUSY` or of `STATUS` in any state, returns what the register
holds and has no side effect (rules R12, R14, R21, R59); an offset that is not listed reads 0 (rule R291; where the
platform maps no buffer there, rule R60). Four bytes read from a word of the register block by their bus addresses are
the platform's byte lanes of the number a word read returns: byte `k` of the number is the bus byte `wordLanes[k]` (rule
R54; log 24). `readData` and `busData` are the model's places for the values returned (log 13). -/
def Obligations.HostReadsRegisters : Prop :=
  (∀ (s : State) (off : Nat) (q : List Event),
    s.agenda = .host (.readReg (s.build.base + off)) :: q →
    (Reg.ofOffset off).isSome ∨ (off % 4 = 0 ∧ windowAt s.build (s.build.base + off) 4 = none) →
    (s.state ≠ .busy ∨ off = 8) →
    step s = .next { s with
      agenda := q
      readData :=
        (match off with
          | 0x00 => (0 : BitVec 24) ++ s.cmd
          | 0x08 => s.statusWord
          | 0x0C => s.inLen
          | 0x10 => s.origSize
          | 0x14 => s.metaLen
          | 0x18 => s.res.outLen
          | 0x1C => s.res.rOrig
          | 0x20 => s.res.rComp
          | 0x24 => s.res.rRatio
          | 0x28 => s.res.rInfo
          | 0x2C => s.res.rAvoid
          | 0x30 => s.res.rMetaLen
          | 0x34 => s.res.rTime
          | 0x40 => s.res.t0.info
          | 0x44 => s.res.t0.size
          | 0x48 => s.res.t0.ratio
          | 0x50 => s.res.t1.info
          | 0x54 => s.res.t1.size
          | 0x58 => s.res.t1.ratio
          | 0x60 => s.res.t2.info
          | 0x64 => s.res.t2.size
          | 0x68 => s.res.t2.ratio
          | _ => 0) }) ∧
  (∀ (s : State) (addr : Nat) (q : List Event), wordAt s.build addr = true →
    s.agenda = .host (.readWide addr 4) :: q →
    ∃ t, step { s with agenda := .host (.readReg addr) :: q } = .next t ∧
      step s = .next { t with readData := s.readData, busData := lanesOfWord s.build t.readData }) ∧
  (∀ (b : Build) (v : Word) (k : Nat), PackingLegal b → k < 4 →
    (lanesOfWord b v).length = 4 ∧ (lanesOfWord b v)[b.wordLanes.getD k 0]? = some (v.extractLsb' (8 * k) 8))

/-- Outside `BUSY` a host write to a byte of `IBUF` or `MIBUF` is what that index reads as afterwards, every
other byte of every buffer and everything else is as before; a write to `OBUF` or `MOBUF` is dropped; a read
returns the byte and has no side effect (rules R21, R50, R59; `readData` is log 13). A byte access by bus address is, in
every state, the access to the byte the address selects; with a legal packing a selected byte stands at its own bus
address, every byte is selected so when no two windows share an address, and where the packing is one byte an address
in index order that address is the buffer's plus the index (rules R54, R60; log 24). An access of any width in a
buffer's window sees and stores, place by place, the bytes the packing puts there (rule R54); a word access in a window
is the access of its four byte lanes; each byte is carried at its own place, inside the window, and at no other. -/
def Obligations.HostAccessesBuffers : Prop :=
  (∀ (s : State) (id : BufId) (i : Nat) (v : Byte) (q : List Event),
    s.state ≠ .busy → i < s.build.bufSize id →
    (s.agenda = .host (.writeBuf id i v) :: q →
      ∃ t, step s = .next t ∧ t = { s with agenda := q, ibuf := t.ibuf, mibuf := t.mibuf } ∧
        ∀ (id' : BufId) (j : Nat), t.readByte id' j =
          if id' = id ∧ j = i ∧ (id = .ibuf ∨ id = .mibuf) then v else s.readByte id' j) ∧
    (s.agenda = .host (.readBuf id i) :: q →
      step s = .next { s with agenda := q, readData := (0 : BitVec 24) ++ s.readByte id i })) ∧
  (∀ (s : State) (addr : Nat) (id : BufId) (i : Nat) (v : Byte) (q : List Event),
    bufAt s.build addr = some (id, i) →
    (s.agenda = .host (.writeBus addr v) :: q →
      step s = step { s with agenda := .host (.writeBuf id i v) :: q }) ∧
    (s.agenda = .host (.readBus addr) :: q → step s = step { s with agenda := .host (.readBuf id i) :: q })) ∧
  (∀ (b : Build) (addr : Nat) (id : BufId) (i : Nat), bufAt b addr = some (id, i) →
    i < b.bufSize id ∧ (PackingLegal b → addr = busAddress b id i)) ∧
  (∀ (b : Build) (id : BufId) (i : Nat), PackingLegal b → WindowsApart b → i < b.bufSize id →
    bufAt b (busAddress b id i) = some (id, i)) ∧
  (∀ (b : Build) (id : BufId) (i : Nat), b.packing id = ⟨1, [0]⟩ → busAddress b id i = b.bufBase id + i) ∧
  (∀ (s : State) (addr : Nat) (id : BufId) (off : Nat) (vs : List Byte) (q : List Event),
    s.state ≠ .busy → windowAt s.build addr vs.length = some (id, off) → vs.length ≠ 4 ∨ regAt s.build addr = none →
    s.agenda = .host (.writeWide addr vs) :: q →
    ∃ t, step s = .next t ∧ t = { s with agenda := q, ibuf := t.ibuf, mibuf := t.mibuf } ∧
      (∀ (j i : Nat), PackingLegal s.build → j < vs.length → carried s.build id (off + j) = some i →
        id = .ibuf ∨ id = .mibuf → t.readByte id i = vs.getD j 0) ∧
      (∀ (id' : BufId) (i : Nat), (id' = id → id = .obuf ∨ id = .mobuf ∨
        ∀ j, j < vs.length → carried s.build id (off + j) ≠ some i) → t.readByte id' i = s.readByte id' i)) ∧
  (∀ (s : State) (addr n : Nat) (id : BufId) (off : Nat) (q : List Event),
    s.state ≠ .busy → windowAt s.build addr n = some (id, off) → n ≠ 4 ∨ regAt s.build addr = none →
    s.agenda = .host (.readWide addr n) :: q →
    ∃ t, step s = .next t ∧ t = { s with agenda := q, busData := t.busData, draws := s.draws + 1 } ∧
      t.busData.length = n ∧
      ∀ (j i : Nat), j < n → carried s.build id (off + j) = some i → t.busData[j]? = some (s.readByte id i)) ∧
  (∀ (s : State) (addr : Nat) (v : Word) (q : List Event),
    regAt s.build addr = none → windowAt s.build addr 4 ≠ none →
    (s.agenda = .host (.writeReg addr v) :: q →
      step s = step { s with agenda := .host (.writeWide addr (lanesOfWord s.build v)) :: q }) ∧
    (s.state ≠ .busy → s.agenda = .host (.readReg addr) :: q →
      ∃ t, step { s with agenda := .host (.readWide addr 4) :: q } = .next t ∧
        step s = .next { t with busData := s.busData, readData := wordOfLanes s.build t.busData })) ∧
  (∀ (b : Build) (id : BufId) (i : Nat), PackingLegal b → i < b.bufSize id →
    carried b id (busOffset b id i) = some i ∧ busOffset b id i < windowSize b id) ∧
  (∀ (b : Build) (id : BufId) (off i : Nat), PackingLegal b → carried b id off = some i →
    off = busOffset b id i ∧ i < b.bufSize id) ∧
  (∀ (b : Build) (addr n : Nat) (id : BufId) (off : Nat), windowAt b addr n = some (id, off) →
    addr = b.bufBase id + off ∧ off + n ≤ windowSize b id) ∧
  (∀ (b : Build) (id : BufId) (off n : Nat), WindowsApart b → 0 < n → off + n ≤ windowSize b id →
    windowAt b (b.bufBase id + off) n = some (id, off))

/-- In `BUSY` every host write is dropped, a read of `STATUS` is normal, and a read of any other register or
of a buffer changes nothing but the value returned, which is free, whatever the width of the access (rules R21, R54,
R330; the free values are log 3 and log 24, that `CTRL` is among those registers is log 11). So no host access ends a
`BUSY` state (rule R320). -/
def Obligations.BusyLocksTheHostOut : Prop :=
  ∀ (s : State) (q : List Event), s.state = .busy →
    (∀ addr v, addr % 4 = s.build.base % 4 ∨ windowAt s.build addr 4 ≠ none →
      s.agenda = .host (.writeReg addr v) :: q → step s = .next { s with agenda := q }) ∧
    (∀ id i v, i < s.build.bufSize id → s.agenda = .host (.writeBuf id i v) :: q →
      step s = .next { s with agenda := q }) ∧
    (∀ addr r, regAt s.build addr = some r → s.agenda = .host (.readReg addr) :: q →
      step s = .next
        (if r = .status then { s with agenda := q, readData := s.statusWord }
          else { s with agenda := q, readData := Config.freeWord s.draws, draws := s.draws + 1 })) ∧
    (∀ addr, regAt s.build addr = none → windowAt s.build addr 4 ≠ none →
      s.agenda = .host (.readReg addr) :: q →
      step s = .next { s with agenda := q, readData := Config.freeWord s.draws, draws := s.draws + 1 }) ∧
    (∀ id i, i < s.build.bufSize id → s.agenda = .host (.readBuf id i) :: q →
      step s = .next { s with agenda := q, readData := Config.freeWord s.draws, draws := s.draws + 1 }) ∧
    (∀ addr v, windowAt s.build addr 1 ≠ none → s.agenda = .host (.writeBus addr v) :: q →
      step s = .next { s with agenda := q }) ∧
    (∀ addr, windowAt s.build addr 1 ≠ none → s.agenda = .host (.readBus addr) :: q →
      step s = .next { s with agenda := q, readData := Config.freeWord s.draws, draws := s.draws + 1 }) ∧
    (∀ addr vs, vs.length = 4 ∧ addr % 4 = s.build.base % 4 ∨ windowAt s.build addr vs.length ≠ none →
      s.agenda = .host (.writeWide addr vs) :: q → step s = .next { s with agenda := q }) ∧
    (∀ addr r, regAt s.build addr = some r → s.agenda = .host (.readWide addr 4) :: q →
      step s = .next
        (if r = .status then { s with agenda := q, busData := lanesOfWord s.build s.statusWord }
          else { s with
            agenda := q, busData := lanesOfWord s.build (Config.freeWord s.draws), draws := s.draws + 1 })) ∧
    (∀ addr n, n ≠ 4 ∨ regAt s.build addr = none → windowAt s.build addr n ≠ none →
      s.agenda = .host (.readWide addr n) :: q →
      step s = .next { s with
        agenda := q, busData := (List.range n).map (Config.freeLane s.draws), draws := s.draws + 1 })

/-- Rule R14, every write of `CTRL`: `START` wins and other bits are ignored; `CLEAR` alone acts in `DONE` and
`ERROR`; in `BUSY` any write is dropped; `CLEAR` in `IDLE` and a word with neither strobe do nothing; the
register reads 0. -/
def Obligations.CtrlStrobes : Prop :=
  ∀ (s : State) (v : Word) (q : List Event),
    s.agenda = .host (.writeReg (s.build.base + 4) v) :: q →
    (v.getLsbD 0 = true → s.state ≠ .busy → step s = .next { s with agenda := q }.startCommand) ∧
    (v.getLsbD 0 = false → v.getLsbD 1 = true → s.state = .done ∨ s.state = .error →
      step s = .next { s with agenda := q }.clearResult) ∧
    (s.state = .busy → step s = .next { s with agenda := q }) ∧
    (v.getLsbD 0 = false → s.state = .idle → step s = .next { s with agenda := q }) ∧
    (v.getLsbD 0 = false → v.getLsbD 1 = false → step s = .next { s with agenda := q }) ∧
    s.regValue .ctrl = 0

/-- A step stops with a fault exactly on a host access that addresses no word of the register block and no byte
of a buffer or place of its window, which the spec leaves outside itself (rules R50, R54, R60, R291; the model's choice,
log 10); no step is refused. -/
def Obligations.OnlyStrayHostAccessesFault : Prop :=
  ∀ s : State,
    ((∃ f, step s = .fault f) ↔
      ∃ a q, s.agenda = .host a :: q ∧
        (match a with
          | .writeReg addr _ => addr % 4 ≠ s.build.base % 4 ∧ windowAt s.build addr 4 = none
          | .readReg addr => addr % 4 ≠ s.build.base % 4 ∧ windowAt s.build addr 4 = none
          | .writeBuf id i _ => s.build.bufSize id ≤ i
          | .readBuf id i => s.build.bufSize id ≤ i
          | .writeBus addr _ => windowAt s.build addr 1 = none
          | .readBus addr => windowAt s.build addr 1 = none
          | .writeWide addr vs =>
            ¬ (vs.length = 4 ∧ addr % 4 = s.build.base % 4) ∧ windowAt s.build addr vs.length = none
          | .readWide addr n => ¬ (n = 4 ∧ addr % 4 = s.build.base % 4) ∧ windowAt s.build addr n = none)) ∧
    ∀ r, step s ≠ .refused r

/-! ### Commands and steps (spec 10, 44, 60) -/

/-- Rule R22: `START` outside `BUSY`. -/
def Obligations.StartTakesTheCommand : Prop :=
  ∀ (s : State) (rest : BitVec 31), s.state ≠ .busy →
    ∃ t, exec (.start rest) s = .next t ∧ t.latched = s.cmd ∧ t.res.AllZero ∧ t.err = none ∧
      t.state = .busy ∧ t.obuf.Unspecified ∧ t.mobuf.Unspecified ∧ SameInputs s t

/-- Rule R24: `CLEAR` in `DONE` and `ERROR`; and a `START` from there clears as well. -/
def Obligations.ClearReturnsToIdle : Prop :=
  ∀ (s : State) (rest : BitVec 30), s.state = .done ∨ s.state = .error →
    (∃ t, exec (.clear rest) s = .next t ∧ t.res.AllZero ∧ t.err = none ∧ t.state = .idle ∧
      t.obuf.Unspecified ∧ t.mobuf.Unspecified ∧ t.latched = s.latched ∧ SameInputs s t) ∧
    (∀ rest' : BitVec 31, ∃ t, exec (.start rest') s = .next t ∧ t.res.AllZero ∧ t.err = none ∧
      t.obuf.Unspecified ∧ t.mobuf.Unspecified)

/-- The step runs the instruction its bytes decode to: the latched command (rule R81; with an empty agenda
too, log 4), the word written to `CTRL` (rule R85; as bytes in the model's order, log 9), and the record at the
decoder's cursor (rules R55, R57), fetched when a piece of work is the next event: running a command piece by piece
is the model's choice (log 6). Nothing is added around `exec` but taking the event off the agenda. -/
def Obligations.StepRunsTheDecodedInstruction : Prop :=
  ∀ (s : State) (q : List Event) (i : Instr),
    (s.state = .busy → s.agenda = .engine :: q → decode .cmd8 [s.latched] = .ok i →
      step s = exec i { s with agenda := q }) ∧
    (s.state = .busy → s.agenda = [] → decode .cmd8 [s.latched] = .ok i → step s = exec i s) ∧
    (∀ b0 b1 b2 b3, s.agenda = .host (.writeReg (s.build.base + 4) (be32 b0 b1 b2 b3)) :: q →
      decode .ctrl [b0, b1, b2, b3] = .ok i → step s = exec i { s with agenda := q }) ∧
    (s.state = .busy → s.agenda = .work :: q → s.work.phase = .decRle → s.work.pos < s.n →
      decode .rle16 (s.readBytes .ibuf s.work.pos 2) = .ok i → step s = exec i { s with agenda := q }) ∧
    (s.state = .busy → s.agenda = .work :: q → s.work.phase = .decLz → s.work.pos < s.n →
      decode .lz32 (s.readBytes .ibuf s.work.pos 4) = .ok i → step s = exec i { s with agenda := q }) ∧
    (s.state = .busy → s.agenda = .work :: q → s.work.phase = .tree →
      s.work.arena.length < s.metaLen.toNat →
      decode .node80 (s.readBytes .mibuf (10 * s.work.arena.length) 10) = .ok i →
      step s = exec i { s with agenda := q })

/-- Every instruction answers a next state in every state: no instruction stops the machine. -/
def Obligations.EveryInstructionCompletes : Prop :=
  ∀ (i : Instr) (s : State), ∃ t, exec i s = .next t

/-- Nothing runs outside its place: a command outside `BUSY` (rule R280), a record outside the running decoder
that interprets it (the model's choice, log 7), leaves the state as it is. -/
def Obligations.NothingRunsOutsideItsPlace : Prop :=
  ∀ (i : Instr) (s : State),
    (i.format = .cmd8 → s.state ≠ .busy → exec i s = .next s) ∧
    (i.format = .rle16 → ¬ (s.state = .busy ∧ s.work.phase = .decRle) → exec i s = .next s) ∧
    (i.format = .lz32 → ¬ (s.state = .busy ∧ s.work.phase = .decLz) → exec i s = .next s) ∧
    (i.format = .node80 → ¬ (s.state = .busy ∧ s.work.phase = .tree) → exec i s = .next s)

/-- No instruction writes `IBUF`, `MIBUF`, `CMD` or an operand register, and none reads `OBUF` or `MOBUF`
(rules R16, R51, R58): the frame of all 21 instructions on the input side. With other output buffers an instruction
either leaves both as it finds them and does all else the same, or answers the very same state. The bytes the LZ77
decoder reads back (rule R51) are in the running output, not in `OBUF` (log 23). -/
def Obligations.NoInstructionWritesTheInputs : Prop :=
  (∀ (i : Instr) (s t : State), exec i s = .next t → SameInputs s t) ∧
  (∀ (i : Instr) (s t : State) (b c : Buffer), exec i s = .next t →
    (t.obuf = s.obuf ∧ t.mobuf = s.mobuf ∧
      exec i { s with obuf := b, mobuf := c } = .next { t with obuf := b, mobuf := c }) ∨
    exec i { s with obuf := b, mobuf := c } = .next t)

/-- Rule R286: whenever an instruction leaves the engine in `ERROR` from `BUSY`, the state is the error form
of exactly one kind. -/
def Obligations.EveryErrorTakesTheErrorForm : Prop :=
  ∀ (i : Instr) (s t : State), s.state = .busy → exec i s = .next t → t.state = .error →
    ∃ k, ErrorForm s t k

/-- A host command run in `BUSY` ends it, in `DONE` with `ERR` 0 or in the error form, in one step (rules R23,
R58). That the per-call structures have their initial values then is the model's choice (log 5). -/
def Obligations.CommandsAreAllOrNothing : Prop :=
  ∀ (i : Instr) (s : State), i.format = .cmd8 → s.state = .busy →
    ∃ t, exec i s = .next t ∧ t.work = .init ∧ t.latched = s.latched ∧
      ((t.state = .done ∧ t.err = none) ∨ ∃ k, ErrorForm s t k)

/-- Rule R231: the codec is selected by `ALG`, and a reserved `ALG` raises before anything is examined. -/
def Obligations.DispatchAndUnsupported : Prop :=
  (∀ alg : BitVec 6,
    decodeCmd ((0 : BitVec 2) ++ alg) =
      (if alg = 0 then .compressRle else if alg = 1 then .compressHuffman
        else if alg = 2 then .compressLz77 else .compressUnsupported alg) ∧
    decodeCmd ((1 : BitVec 2) ++ alg) =
      (if alg = 0 then .decompressRle else if alg = 1 then .decompressHuffman
        else if alg = 2 then .decompressLz77 else .decompressUnsupported alg)) ∧
  (∀ (alg : BitVec 6) (s : State), s.state = .busy →
    (∃ t, exec (.compressUnsupported alg) s = .next t ∧ ErrorForm s t .unsupportedAlgorithm) ∧
    (∃ t, exec (.decompressUnsupported alg) s = .next t ∧ ErrorForm s t .unsupportedAlgorithm))

/-- Rule R233. -/
def Obligations.InputTooLongRaises : Prop :=
  ∀ (s : State), s.state = .busy → s.build.inMax < s.n →
    (∀ a, ∃ t, exec (compressInstr a) s = .next t ∧ ErrorForm s t .capacityExceeded) ∧
    (∀ a, ∃ t, exec (decompressInstr a) s = .next t ∧ ErrorForm s t .capacityExceeded) ∧
    (∀ alg, ∃ t, exec (.smartCompress alg) s = .next t ∧ ErrorForm s t .capacityExceeded)

/-- The registers and buffers of a successful `COMPRESS`, both columns of the table (rules R234, R235, R238,
R239, R240). `R_TIME` is a free value (rule R241). -/
def Obligations.CompressWritesItsResult : Prop :=
  ∀ (a : Alg) (s : State), s.state = .busy → s.n ≤ s.build.inMax →
    let raw := rawOutput s.build s.input a
    let tree := rawTree s.input a
    let rs := raw.length
    ∃ t, exec (compressInstr a) s = .next t ∧
      (rs < s.n →
        t.obuf.Holds raw ∧ t.res.outLen = BitVec.ofNat 32 rs ∧ t.res.rOrig = s.inLen ∧
          t.res.rComp = BitVec.ofNat 32 rs ∧
          t.res.rRatio = BitVec.ofNat 32 (((s.n - rs) * 20000 + s.n) / (2 * s.n)) ∧
          t.res.rInfo = BitVec.ofNat 32 (0x200 + a.code) ∧ t.res.rAvoid = 0 ∧
          t.res.rMetaLen = BitVec.ofNat 32 tree.length ∧ t.mobuf.Holds (serialise tree)) ∧
      (s.n ≤ rs →
        t.obuf.Holds s.input ∧ t.res.outLen = s.inLen ∧ t.res.rOrig = s.inLen ∧ t.res.rComp = s.inLen ∧
          t.res.rRatio = 0 ∧ t.res.rInfo = BitVec.ofNat 32 (0x100 + a.code) ∧
          t.res.rAvoid = BitVec.ofNat 32 (rs - s.n) ∧ t.res.rMetaLen = 0 ∧ t.mobuf.Unspecified) ∧
      t.res.outLen.toNat ≤ s.n ∧ t.res.rTime = Config.freeWord s.draws ∧
      t.res.t0 = ⟨0, 0, 0⟩ ∧ t.res.t1 = ⟨0, 0, 0⟩ ∧ t.res.t2 = ⟨0, 0, 0⟩ ∧
      t.state = .done ∧ t.err = none ∧ t.latched = s.latched ∧ SameInputs s t

/-- Rule R242. -/
def Obligations.EmptyInputFallsBack : Prop :=
  ∀ (a : Alg) (s : State), s.state = .busy → s.inLen = 0 →
    rawOutput s.build s.input a = [] ∧
    ∃ t, exec (compressInstr a) s = .next t ∧ t.state = .done ∧ t.res.outLen = 0 ∧ t.res.rOrig = 0 ∧
      t.res.rComp = 0 ∧ t.res.rRatio = 0 ∧ t.res.rInfo.getLsbD 8 = true ∧
      t.res.rInfo.getLsbD 9 = false ∧ t.res.rAvoid = 0 ∧ t.res.rMetaLen = 0

/-- The ratio of an effective result is `(o − c) × 10000 / o` rounded to the nearest integer, a half upwards
(rule R236), at most 10000 (rule R237 (b)), and may be 0 (rule R237 (c)). -/
def Obligations.RatioRoundsHalfUp : Prop :=
  (∀ o c : Nat, c < o →
    2 * o * ratioOf o c ≤ 20000 * (o - c) + o ∧ 20000 * (o - c) + o < 2 * o * (ratioOf o c + 1) ∧
      ratioOf o c ≤ 10000) ∧
  ratioOf 30000 29999 = 0

/-- `DECOMPRESS`: the codec's bytes and their count, every other result register 0 (rule R246), or the codec's
error unchanged; the codec is rule R126's, R161's or R210's (rule R244). -/
def Obligations.DecompressWritesItsBytes : Prop :=
  ∀ (a : Alg) (s : State), s.state = .busy → s.n ≤ s.build.inMax →
    let result := match a with
      | .rle => rleDecompress s.build.outMax s.input
      | .huffman =>
        huffDecompress s.build.outMax s.input s.metaLen.toNat s.metaBytes s.origSize.toNat
      | .lz77 => lzDecompress s.build.outMax s.input
    (∀ out, result = .ok out → ∃ t, exec (decompressInstr a) s = .next t ∧ DoneForm s t out) ∧
    (∀ k, result = .error k → ∃ t, exec (decompressInstr a) s = .next t ∧ ErrorForm s t k)

/-- A successful `SMART_COMPRESS` (rules R250, R251, R254, R256, R257): the winner has the smallest key
`(1 − EFFECTIVE, compressedSize, code)`, its result is the command's, the table lists the three attempts. -/
def Obligations.SmartWritesTheBestResult : Prop :=
  ∀ (alg : BitVec 6) (s : State), s.state = .busy → s.n ≤ s.build.inMax →
    let rs := fun a => (rawOutput s.build s.input a).length
    let eff := fun a => decide (rs a < s.n)
    let size := fun a => if rs a < s.n then rs a else s.n
    let ratio := fun a => if rs a < s.n then ratioOf s.n (rs a) else 0
    let entry := fun a => TestedEntry.mk
      (BitVec.ofNat 32 (0x80000000 + 0x200 * (eff a).toNat + a.code))
      (BitVec.ofNat 32 (size a)) (BitVec.ofNat 32 (ratio a))
    ∃ (w : Alg) (t : State), exec (.smartCompress alg) s = .next t ∧
      (∀ a, a ≠ w →
        (eff w = true ∧ eff a = false) ∨
          (eff w = eff a ∧ (size w < size a ∨ (size w = size a ∧ w.code < a.code)))) ∧
      t.obuf.Holds (if eff w then rawOutput s.build s.input w else s.input) ∧
      t.mobuf.Holds (serialise (if eff w then rawTree s.input w else [])) ∧
      t.res.outLen = BitVec.ofNat 32 (size w) ∧ t.res.rOrig = s.inLen ∧
      t.res.rComp = BitVec.ofNat 32 (size w) ∧ t.res.rRatio = BitVec.ofNat 32 (ratio w) ∧
      t.res.rInfo =
        BitVec.ofNat 32 (0x3000 + 0x200 * (eff w).toNat + 0x100 * (!eff w).toNat + w.code) ∧
      t.res.rAvoid = BitVec.ofNat 32 (rs w - s.n) ∧
      t.res.rMetaLen = BitVec.ofNat 32 (if eff w then (rawTree s.input w).length else 0) ∧
      t.res.rTime = Config.freeWord s.draws ∧
      t.res.t0 = entry .rle ∧ t.res.t1 = entry .huffman ∧ t.res.t2 = entry .lz77 ∧
      t.state = .done ∧ t.err = none ∧ t.latched = s.latched ∧ SameInputs s t

/-- Rule R258, in registers. -/
def Obligations.SmartResultIsSmallest : Prop :=
  ∀ (alg : BitVec 6) (s t : State), s.state = .busy → exec (.smartCompress alg) s = .next t →
    t.state = .done →
    let entries := [t.res.t0, t.res.t1, t.res.t2].filter (fun e => testedValid e.info)
    (∀ e ∈ entries, infoEffective e.info = true →
      infoEffective t.res.rInfo = true ∧ t.res.rComp.toNat ≤ e.size.toNat) ∧
    ((∀ e ∈ entries, infoEffective e.info = false) →
      ∀ e ∈ entries, t.res.rComp.toNat ≤ e.size.toNat ∧ e.size = t.res.rOrig)

/-- The mechanism for attempts that raise, at the selection step with any three attempt outcomes: they are
left out of the selection and of the tested list and set their `FAIL_MASK` bits (rule R252); when all three
raised, `AllCodecsFailed` with `FAIL_MASK` 0b111 (rule R253). -/
def Obligations.FailedAttemptsAreExcluded : Prop :=
  ∀ (s : State) (c0 c1 c2 : Candidate), c0.alg = .rle → c1.alg = .huffman → c2.alg = .lz77 →
    let t := s.endSmart [c0, c1, c2]
    let alive := [c0, c1, c2].filter (fun c => c.err.isNone)
    (alive = [] → ErrorForm s t .allCodecsFailed) ∧
    (alive ≠ [] →
      t.state = .done ∧
      (infoFailMask t.res.rInfo).toNat =
        c0.err.isSome.toNat + 2 * c1.err.isSome.toNat + 4 * c2.err.isSome.toNat ∧
      (infoNTested t.res.rInfo).toNat = alive.length ∧
      (∃ c ∈ alive, (infoAlg t.res.rInfo).toNat = c.alg.code) ∧
      [t.res.t0, t.res.t1, t.res.t2] =
        (alive.map (fun c => testedEntry (policy s.input c)) ++
          [TestedEntry.zero, TestedEntry.zero, TestedEntry.zero]).take 3)

/-- Rules R260 and R262: the listing and its registers, whatever the operands are; on a build too small for
the listing, which rule R260 excludes, the same is the model's choice (log 18). -/
def Obligations.ListReturnsTheListing : Prop :=
  ∀ (alg : BitVec 6) (s : State), s.state = .busy →
    let entry := fun (code : Byte) (name desc : List Byte) =>
      [code, BitVec.ofNat 8 name.length] ++ name ++
        [BitVec.ofNat 8 (desc.length / 256), BitVec.ofNat 8 desc.length] ++ desc
    let rom := [3] ++ entry 0 [0x72, 0x6C, 0x65] s.build.descRle ++
      entry 1 [0x68, 0x75, 0x66, 0x66, 0x6D, 0x61, 0x6E] s.build.descHuffman ++
      entry 2 [0x6C, 0x7A, 0x37, 0x37] s.build.descLz77
    rom.length = 27 + s.build.descRle.length + s.build.descHuffman.length + s.build.descLz77.length ∧
    ∃ t, exec (.listAlgorithms alg) s = .next t ∧ DoneForm s t rom

/-! ### Records (spec 41, 42, 43) -/

/-- Rule R127, with its frame. That the bytes go to the running output and `OBUF` is written at completion only
is the model's reading (log 23; rule R57 names `OBUF`). -/
def Obligations.RleRunRepeatsItsValue : Prop :=
  ∀ (value count : Byte) (s : State), s.state = .busy → s.work.phase = .decRle →
    s.work.out.length + count.toNat ≤ s.build.outMax →
    ∃ t, exec (.rleRun value count) s = .next t ∧
      t.work = { s.work with
        pos := s.work.pos + 2, out := s.work.out ++ List.replicate count.toNat value,
        record := [value, count], copy := 0 } ∧
      SameInputs s t ∧ SameOutputs s t

/-- Rule R212, with its frame. That the byte goes to the running output and `OBUF` is written at completion only
is the model's reading (log 23; rule R57 names `OBUF`). -/
def Obligations.LzLitAppendsItsByte : Prop :=
  ∀ (lit : Byte) (s : State), s.state = .busy → s.work.phase = .decLz →
    s.work.out.length + 1 ≤ s.build.outMax →
    ∃ t, exec (.lzLit lit) s = .next t ∧
      t.work = { s.work with
        pos := s.work.pos + 4, out := s.work.out ++ [lit], record := [0, 0, 0, lit], copy := 0 } ∧
      SameInputs s t ∧ SameOutputs s t

/-- Rule R213, with its frame: the copy runs forward over what it emits, and equals the periodic extension of
the output before the token. That it reads and extends the running output, and that `OBUF` is written at completion
only, is the model's reading (log 23; rules R57 and R66 name `OBUF`). -/
def Obligations.LzCopylitCopiesForward : Prop :=
  ∀ (off : BitVec 16) (len lit : Byte) (s : State), s.state = .busy → s.work.phase = .decLz →
    1 ≤ off.toNat → 1 ≤ len.toNat → off.toNat ≤ s.work.out.length →
    s.work.out.length + len.toNat + 1 ≤ s.build.outMax →
    ∃ (t : State) (copied : List Byte), exec (.lzCopylit off len lit) s = .next t ∧
      copied.length = len.toNat ∧
      (∀ j, j < len.toNat →
        copied[j]? = (s.work.out ++ copied)[s.work.out.length + j - off.toNat]? ∧
        copied[j]? = s.work.out[s.work.out.length - off.toNat + j % off.toNat]?) ∧
      t.work = { s.work with
        pos := s.work.pos + 4, out := s.work.out ++ copied ++ [lit], record := encode (.lzCopylit off len lit),
        copy := 0 } ∧
      SameInputs s t ∧ SameOutputs s t

/-- Rule R214, with its frame: no literal; at any place in the stream. That it reads and extends the running
output, and that `OBUF` is written at completion only, is the model's reading (log 23; rules R57 and R66 name
`OBUF`). -/
def Obligations.LzCopyendCopiesForward : Prop :=
  ∀ (off : BitVec 16) (len : Byte) (s : State), s.state = .busy → s.work.phase = .decLz →
    1 ≤ off.toNat → 1 ≤ len.toNat → off.toNat ≤ s.work.out.length →
    s.work.out.length + len.toNat ≤ s.build.outMax →
    ∃ (t : State) (copied : List Byte), exec (.lzCopyend off len) s = .next t ∧
      copied.length = len.toNat ∧
      (∀ j, j < len.toNat →
        copied[j]? = (s.work.out ++ copied)[s.work.out.length + j - off.toNat]? ∧
        copied[j]? = s.work.out[s.work.out.length - off.toNat + j % off.toNat]?) ∧
      t.work = { s.work with
        pos := s.work.pos + 4, out := s.work.out ++ copied, record := encode (.lzCopyend off len),
        copy := 0 } ∧
      SameInputs s t ∧ SameOutputs s t

/-- Rules R211, R215, R56 and R210, all that is `MalformedStream` by rule R218: the reserved records, a match that
starts before the output, and a stream whose length is no multiple of 4, whatever its records are. -/
def Obligations.LzMalformedRecordsRaise : Prop :=
  (∀ (outMax : Nat) (inp : List Byte), inp.length % 4 ≠ 0 →
    lzDecompress outMax inp = .error .malformedStream) ∧
  ∀ (s : State), s.state = .busy → s.work.phase = .decLz →
    (∀ off, ∃ t, exec (.lzRsvdZerolen off) s = .next t ∧ ErrorForm s t .malformedStream) ∧
    (∀ len b3, ∃ t, exec (.lzRsvdZerooff len b3) s = .next t ∧ ErrorForm s t .malformedStream) ∧
    (∀ off len lit, s.work.out.length < off.toNat →
      ∃ t, exec (.lzCopylit off len lit) s = .next t ∧ ErrorForm s t .malformedStream) ∧
    (∀ off len, s.work.out.length < off.toNat →
      ∃ t, exec (.lzCopyend off len) s = .next t ∧ ErrorForm s t .malformedStream)

/-- A record whose bytes do not fit in `OUT_MAX` raises `CapacityExceeded` and emits nothing (rules R126,
R216). -/
def Obligations.RecordsThatOverflowRaise : Prop :=
  ∀ (s : State), s.state = .busy →
    (s.work.phase = .decRle → ∀ value count, s.build.outMax < s.work.out.length + count.toNat →
      ∃ t, exec (.rleRun value count) s = .next t ∧ ErrorForm s t .capacityExceeded) ∧
    (s.work.phase = .decLz →
      (∀ lit, s.build.outMax < s.work.out.length + 1 →
        ∃ t, exec (.lzLit lit) s = .next t ∧ ErrorForm s t .capacityExceeded) ∧
      (∀ off len lit, off.toNat ≤ s.work.out.length →
        s.build.outMax < s.work.out.length + len.toNat + 1 →
        ∃ t, exec (.lzCopylit off len lit) s = .next t ∧ ErrorForm s t .capacityExceeded) ∧
      (∀ off len, off.toNat ≤ s.work.out.length → s.build.outMax < s.work.out.length + len.toNat →
        ∃ t, exec (.lzCopyend off len) s = .next t ∧ ErrorForm s t .capacityExceeded))

/-- The node records, with their frame (rules R163, R164): a leaf loads at the next arena index when it has no
child, an internal node when both children are loaded already (rule R98 (c), (d)); anything else, and reserved
`FLAGS`, raises. -/
def Obligations.NodeRecordsLoadOrRaise : Prop :=
  ∀ (s : State), s.state = .busy → s.work.phase = .tree →
    (∀ value freq, ∃ t, exec (.htLeaf value freq 0xFFFF 0xFFFF) s = .next t ∧
      t.work = { s.work with arena := s.work.arena ++ [.leaf value freq.toNat] } ∧
      SameInputs s t ∧ SameOutputs s t) ∧
    (∀ value freq left right, ¬ (left = 0xFFFF ∧ right = 0xFFFF) →
      ∃ t, exec (.htLeaf value freq left right) s = .next t ∧ ErrorForm s t .malformedStream) ∧
    (∀ value freq left right, left.toNat < s.work.arena.length → right.toNat < s.work.arena.length →
      ∃ t, exec (.htNode value freq left right) s = .next t ∧
        t.work = { s.work with
          arena := s.work.arena ++ [.node freq.toNat left.toNat right.toNat] } ∧
        SameInputs s t ∧ SameOutputs s t) ∧
    (∀ value freq left right,
      ¬ (left.toNat < s.work.arena.length ∧ right.toNat < s.work.arena.length) →
      ∃ t, exec (.htNode value freq left right) s = .next t ∧ ErrorForm s t .malformedStream) ∧
    (∀ flags rest, ∃ t, exec (.htRsvd flags rest) s = .next t ∧ ErrorForm s t .malformedStream)

/-! ### The RLE codec (spec 41) -/

/-- Rule R126: the decoder on every stream. -/
def Obligations.RleDecodesEveryStream : Prop :=
  (∀ (outMax : Nat) (recs : List (Byte × Byte)),
    rleDecompress outMax (recs.flatMap fun r => [r.1, r.2]) =
      if (recs.map fun r => r.2.toNat).sum ≤ outMax then
        .ok (recs.flatMap fun r => List.replicate r.2.toNat r.1)
      else .error .capacityExceeded) ∧
  (∀ (outMax : Nat) (inp : List Byte), inp.length % 2 ≠ 0 →
    rleDecompress outMax inp = .error .malformedStream)

/-- Rule R123: the encoder's output as records. -/
def Obligations.RleOutputProperties : Prop :=
  ∀ x : List Byte, ∃ recs : List (Byte × Byte),
    rleCompress x = recs.flatMap (fun r => [r.1, r.2]) ∧
    (∀ r ∈ recs, 1 ≤ r.2.toNat) ∧
    (rleCompress x).length = 2 * recs.length ∧
    (∀ (i : Nat) (a b : Byte × Byte), recs[i]? = some a → recs[i + 1]? = some b → a.1 = b.1 →
      a.2.toNat = 255) ∧
    (rleCompress x).length ≤ 2 * x.length ∧
    ((∀ i, i + 1 < x.length → x[i]? ≠ x[i + 1]?) → (rleCompress x).length = 2 * x.length) ∧
    (x = [] → rleCompress x = [])

/-- Rule R124: a maximal run of `r` bytes becomes `⌊r / 255⌋` records of count 255 and one of the rest, and
what stands before and after it is encoded as if alone. -/
def Obligations.RleSplitsRunsGreedily : Prop :=
  ∀ (p q : List Byte) (v : Byte) (r : Nat), 1 ≤ r → p.getLast? ≠ some v → q.head? ≠ some v →
    rleCompress (p ++ List.replicate r v ++ q) =
      rleCompress p ++ (List.replicate (r / 255) [v, 255]).flatten ++
        (if r % 255 = 0 then [] else [v, BitVec.ofNat 8 (r % 255)]) ++ rleCompress q

/-- Rule R129: every input comes back; a stream the decoder accepts need not. -/
def Obligations.RleRoundTrip : Prop :=
  (∀ (x : List Byte) (outMax : Nat), x.length ≤ outMax → rleDecompress outMax (rleCompress x) = .ok x) ∧
  (∃ (t x : List Byte), rleDecompress 255 t = .ok x ∧ rleCompress x ≠ t)

/-! ### The LZ77 codec (spec 43) -/

/-- Rules R193, R194 and R196: what each cell finds, and what the priority encoder picks. -/
def Obligations.LzSearchPicksTheLongestNearestMatch : Prop :=
  ∀ (w l : Nat) (inp : List Byte) (pos : Nat), pos ≤ inp.length →
    let ml := matchLength l inp pos
    let best := (search w l inp pos).1
    let boff := (search w l inp pos).2
    (∀ d, 1 ≤ d → d ≤ min w pos →
      ml d ≤ min l (inp.length - pos) ∧
      (∀ j, j < ml d → inp[pos - d + j]? = inp[pos + j]?) ∧
      (ml d < min l (inp.length - pos) → inp[pos - d + ml d]? ≠ inp[pos + ml d]?)) ∧
    (∀ d, 1 ≤ d → d ≤ min w pos → ml d ≤ best) ∧
    (best = 0 → boff = 0) ∧
    (0 < best →
      1 ≤ boff ∧ boff ≤ min w pos ∧ ml boff = best ∧ ∀ d, 1 ≤ d → d < boff → ml d < best)

/-- Rules R201 and R203: the compressor's output as tokens. -/
def Obligations.LzOutputProperties : Prop :=
  ∀ (b : Build) (x : List Byte), 1 ≤ b.w → b.w ≤ 65535 → 1 ≤ b.l → b.l ≤ 255 →
    ∃ tokens : List Instr, lzCompress b x = tokens.flatMap encode ∧
      (∀ (i : Nat) (tok : Instr), tokens[i]? = some tok →
        tok.wellFormed = true ∧
        (match tok with
          | .lzLit _ => True
          | .lzCopylit off len _ =>
            1 ≤ off.toNat ∧ off.toNat ≤ b.w ∧ 1 ≤ len.toNat ∧ len.toNat ≤ b.l ∧
              off.toNat ≤ ((tokens.take i).map tokenCovers).sum
          | .lzCopyend off len =>
            1 ≤ off.toNat ∧ off.toNat ≤ b.w ∧ 1 ≤ len.toNat ∧ len.toNat ≤ b.l ∧
              off.toNat ≤ ((tokens.take i).map tokenCovers).sum ∧ i + 1 = tokens.length
          | _ => False)) ∧
      (∀ tok, tokens[0]? = some tok → ∃ lit, tok = .lzLit lit) ∧
      (tokens.map tokenCovers).sum = x.length ∧
      (lzCompress b x).length = 4 * tokens.length ∧ (lzCompress b x).length ≤ 4 * x.length ∧
      ((∀ tok ∈ tokens, ∃ lit, tok = .lzLit lit) → (lzCompress b x).length = 4 * x.length)

/-- Rule R219. -/
def Obligations.LzRoundTrip : Prop :=
  ∀ (b : Build) (x : List Byte) (outMax : Nat), 1 ≤ b.w → b.w ≤ 65535 → 1 ≤ b.l → b.l ≤ 255 →
    x.length ≤ outMax → lzDecompress outMax (lzCompress b x) = .ok x

/-! ### The Huffman codec (spec 42) -/

/-- Rules R145, R146 and R147, one merge: the two lowest keys `(frequency, index)`, first removed left. -/
def Obligations.HuffmanMergesTheTwoLowest : Prop :=
  ∀ (w : Work), w.active.Nodup → 2 ≤ w.active.length →
    let below := fun i j =>
      frequencyAt w.arena i < frequencyAt w.arena j ∨ (frequencyAt w.arena i = frequencyAt w.arena j ∧ i < j)
    ∃ a b rest, w.active.Perm (a :: b :: rest) ∧ below a b ∧ (∀ i ∈ rest, below b i) ∧
      (mergeBody keyLess w).arena =
        w.arena ++ [.node (frequencyAt w.arena a + frequencyAt w.arena b) a b] ∧
      (mergeBody keyLess w).active.Perm (w.arena.length :: rest)

/-- Rule R148, for every order of removal: the tree of a non-empty input with `k` distinct byte values. -/
def Obligations.HuffmanTreeProperties : Prop :=
  ∀ (less : TieBreak) (x : List Byte), x ≠ [] →
    let tree := (huffCompressBy less x).2
    let k := x.dedup.length
    tree.length = 2 * k - 1 ∧
    (∀ i, i < tree.length → ((∃ v f, tree[i]? = some (Node.leaf v f)) ↔ i < k)) ∧
    frequencyAt tree (2 * k - 2) = x.length ∧
    TreeOk tree ∧
    (∀ i, i < 2 * k - 2 → ∃! p : Nat, ∃ f l r, tree[p]? = some (Node.node f l r) ∧ (i = l ∨ i = r)) ∧
    (∀ (p f l r : Nat), tree[p]? = some (Node.node f l r) → l ≠ r) ∧
    (∀ v, v ∈ x ↔ ∃ i f : Nat, tree[i]? = some (Node.leaf v f)) ∧
    (∀ (v : Byte) (i f j g : Nat), tree[i]? = some (Node.leaf v f) → tree[j]? = some (Node.leaf v g) → i = j)

/-- Rules R150, R151 and R152: each code is the path from the root to its leaf, the single leaf's code is
`"0"`, and no code is a prefix of another. -/
def Obligations.HuffmanCodesArePrefixFree : Prop :=
  ∀ (less : TieBreak) (x : List Byte), x ≠ [] →
    let tree := (huffCompressBy less x).2
    let code := fun v : Byte => (codeTable tree).getD v.toNat []
    (∀ v ∈ x, code v ≠ [] ∧
      (if tree.length = 1 then code v = [false]
        else ∃ f, tree[descend tree (rootOf tree) (code v)]? = some (.leaf v f))) ∧
    (∀ v ∈ x, ∀ w ∈ x, v ≠ w → ¬ code v <+: code w)

/-- Rules R153, R154 and R155: the payload is the code string, most significant bit first, zero-padded. -/
def Obligations.HuffmanPayloadIsThePackedCodeString : Prop :=
  ∀ (less : TieBreak) (x : List Byte), x ≠ [] →
    let bits := codeString (codeTable (huffCompressBy less x).2) x
    let payload := (huffCompressBy less x).1
    payload.length = (bits.length + 7) / 8 ∧
    (∀ i, i < bits.length → bits[i]? = some (payloadBit payload i)) ∧
    (∀ i, bits.length ≤ i → i < 8 * payload.length → payloadBit payload i = false) ∧
    x.length ≤ bits.length

/-- The tree of a compress result is well-formed (rule R159) and loading its serialisation gives it back (rules
R158, R164). -/
def Obligations.SerialisedTreeReloads : Prop :=
  ∀ (less : TieBreak) (x : List Byte), x ≠ [] → x.length < 2 ^ 32 →
    let tree := (huffCompressBy less x).2
    1 ≤ tree.length ∧ tree.length ≤ 511 ∧ (serialise tree).length = 10 * tree.length ∧
    ∃ w, loadTree tree.length (serialise tree) .init = .ok w ∧ w.arena = tree

/-- Rule R98: which records the decompressor accepts as a tree. -/
def Obligations.SuppliedTreeIsCheckedAsR98 : Prop :=
  ∀ (outMax : Nat) (inp : List Byte) (t : Nat) (mem : List Byte) (size : Nat),
    mem.length = 10 * t → 1 ≤ t →
    let flags := fun i => at0 mem (10 * i)
    let left := fun i => (be16 (at0 mem (10 * i + 6)) (at0 mem (10 * i + 7))).toNat
    let right := fun i => (be16 (at0 mem (10 * i + 8)) (at0 mem (10 * i + 9))).toNat
    let wellFormed := t ≤ 511 ∧ ∀ i, i < t →
      (flags i = 0 ∨ flags i = 1) ∧ (flags i = 1 → left i = 0xFFFF ∧ right i = 0xFFFF) ∧
        (flags i = 0 → left i < i ∧ right i < i)
    (wellFormed → ∃ w, loadTree t mem .init = .ok w ∧ w.arena.length = t ∧ TreeOk w.arena) ∧
    (¬ wellFormed → huffDecompress outMax inp t mem size = .error .malformedStream)

/-- Rule R162, at the command. -/
def Obligations.MissingTreeRaises : Prop :=
  ∀ (s : State), s.state = .busy → s.n ≤ s.build.inMax → s.metaLen = 0 →
    (s.origSize = 0 → s.inLen = 0 → ∃ t, exec .decompressHuffman s = .next t ∧ DoneForm s t []) ∧
    (¬ (s.origSize = 0 ∧ s.inLen = 0) →
      ∃ t, exec .decompressHuffman s = .next t ∧ ErrorForm s t .missingMetadata)

/-- Rule R168: exactly `ORIG_SIZE` bytes come out; a smaller `ORIG_SIZE` gives the first of them (rule R172);
whatever follows in the payload is ignored. With a tree that is accepted, `ORIG_SIZE` > `OUT_MAX` raises
`CapacityExceeded` before any bit is read (rules R165, R283 test 5); otherwise the bytes come out or the bits run out
and `MalformedStream` is raised (rule R169), the latter whenever there are fewer bits than bytes asked for. -/
def Obligations.HuffmanStopsAtOrigSize : Prop :=
  (∀ (outMax : Nat) (inp extra : List Byte) (t : Nat) (mem : List Byte) (size : Nat) (out : List Byte),
    1 ≤ t → huffDecompress outMax inp t mem size = .ok out →
    out.length = size ∧
    (∀ fewer, fewer ≤ size → huffDecompress outMax inp t mem fewer = .ok (out.take fewer)) ∧
    huffDecompress outMax (inp ++ extra) t mem size = .ok out) ∧
  (∀ (outMax : Nat) (inp : List Byte) (t : Nat) (mem : List Byte) (size : Nat) (w : Work),
    1 ≤ t → t ≤ 511 → loadTree t mem .init = .ok w →
    (outMax < size → huffDecompress outMax inp t mem size = .error .capacityExceeded) ∧
    (size ≤ outMax →
      ((∃ out, huffDecompress outMax inp t mem size = .ok out) ∨
        huffDecompress outMax inp t mem size = .error .malformedStream) ∧
      (8 * inp.length < size → huffDecompress outMax inp t mem size = .error .malformedStream)))

/-- Rules R167 and R169 for a tree whose last record is a leaf: one payload bit per byte, its value ignored,
and `MalformedStream` when the bits run out. -/
def Obligations.HuffmanLeafRoot : Prop :=
  ∀ (outMax : Nat) (inp : List Byte) (t : Nat) (mem : List Byte) (size : Nat) (w : Work) (v : Byte) (f : Nat),
    1 ≤ t → t ≤ 511 → size ≤ outMax → loadTree t mem .init = .ok w →
    w.arena[rootOf w.arena]? = some (.leaf v f) →
    huffDecompress outMax inp t mem size =
      if size ≤ 8 * inp.length then .ok (List.replicate size v) else .error .malformedStream

/-- Rule R171, for every order of removal. -/
def Obligations.HuffmanRoundTrip : Prop :=
  ∀ (less : TieBreak) (x : List Byte) (outMax : Nat), x.length ≤ outMax →
    huffDecompress outMax (huffCompressBy less x).1 (huffCompressBy less x).2.length
      (serialise (huffCompressBy less x).2) x.length = .ok x

/-! ### The whole machine -/

/-- Rule R11: the outcome of a command depends on nothing but the latched command, the operand registers, the
input bytes they name and the build. -/
def Obligations.OutcomeDependsOnTheInputsAlone : Prop :=
  ∀ (s s' : State), s.state = .busy → s'.state = .busy → s'.build = s.build →
    s'.latched = s.latched → s'.inLen = s.inLen → s'.origSize = s.origSize → s'.metaLen = s.metaLen →
    (∀ i, i < s.inLen.toNat → s'.readByte .ibuf i = s.readByte .ibuf i) →
    (∀ i, i < 10 * s.metaLen.toNat → s'.readByte .mibuf i = s.readByte .mibuf i) →
    ∃ t t', exec (decodeCmd s.latched) s = .next t ∧ exec (decodeCmd s'.latched) s' = .next t' ∧
      t'.statusWord = t.statusWord ∧ { t'.res with rTime := t.res.rTime } = t.res ∧
      (∀ i, i < t.res.outLen.toNat → t'.readByte .obuf i = t.readByte .obuf i) ∧
      (∀ i, i < 10 * t.res.rMetaLen.toNat → t'.readByte .mobuf i = t.readByte .mobuf i)

/-- The state after reset meets the invariant. It rests on the values the model gives there (log 1, 2, 3, 4, 5). -/
def Obligations.InvariantHoldsAtReset : Prop := State.reset.Inv

/-- Every step keeps the invariant `State.Inv`: buffers canonical and inside their sizes (rules R50, R284),
`ERR` with `ERROR` (rule R15), result registers and output buffers as the state says (rules R22, R24, R286,
R331), cursors, arena and output of the running command inside their limits (rules R26, R28, R98, R284). That the
structures have their initial values outside `BUSY` is the model's choice (log 5), and so are the loops its clauses
about a running command distinguish (log 6), the canonical form (log 2) and the running output (log 23). -/
def Obligations.EveryStepKeepsTheInvariant : Prop :=
  ∀ s t : State, s.Inv → step s = .next t → t.Inv

/-- A command run piece by piece, record by record through the meanings of its instructions, ends in the very
state its completion step gives, and nothing but the running structures changes before (rules R23, R58; the
pieces are the model's, log 6, and so are the initial structures it starts from, log 5, and where the cursors restart
between two passes or attempts, log 25). -/
def Obligations.PiecesMakeTheCompletionStep : Prop :=
  ∀ s : State, s.state = .busy → s.work = .init → s.agenda = [] →
    ∃ k,
      core.run (k + 1) (s.withAgenda (List.replicate (k + 1) .work)) = exec (decodeCmd s.latched) s ∧
      ∀ j, j ≤ k → ∃ w,
        core.run j (s.withAgenda (List.replicate (k + 1) .work)) =
          .next { s with agenda := List.replicate (k + 1 - j) .work, work := w }

/-- The orchestrator's round trip (property P2 of spec 95): what `COMPRESS` returns without fallback, fed back
with its tree and original size, `DECOMPRESS` turns into the original input. -/
def Obligations.EffectiveResultsDecompress : Prop :=
  ∀ (a : Alg) (s t u : State), s.state = .busy → s.build.Legal →
    exec (compressInstr a) s = .next t → t.state = .done → t.res.rInfo.getLsbD 8 = false →
    u.state = .busy → u.build = s.build → u.inLen = t.res.outLen → u.metaLen = t.res.rMetaLen →
    u.origSize = t.res.rOrig →
    (∀ i, i < t.res.outLen.toNat → u.readByte .ibuf i = t.readByte .obuf i) →
    (∀ i, i < 10 * t.res.rMetaLen.toNat → u.readByte .mibuf i = t.readByte .mobuf i) →
    ∃ v, exec (decompressInstr a) u = .next v ∧ DoneForm u v s.input
end

