-- ==== Sys2Proof/Laws/State.lean ====
section
/-! SUPPORT. One lemma per field for every initial value and every named update of the state, so that no later
proof unfolds a record update. -/

namespace Sys2Proof.Machine

open Sys2Proof

/-! ### The initial values -/

@[simp] theorem Work.init_phase : Work.init.phase = .fresh := rfl
@[simp] theorem Work.init_pos : Work.init.pos = 0 := rfl
@[simp] theorem Work.init_bitpos : Work.init.bitpos = 0 := rfl
@[simp] theorem Work.init_cur : Work.init.cur = 0 := rfl
@[simp] theorem Work.init_out : Work.init.out = [] := rfl
@[simp] theorem Work.init_freq : Work.init.freq = List.replicate 256 0 := rfl
@[simp] theorem Work.init_arena : Work.init.arena = [] := rfl
@[simp] theorem Work.init_active : Work.init.active = [] := rfl
@[simp] theorem Work.init_code : Work.init.code = List.replicate 256 [] := rfl
@[simp] theorem Work.init_acc : Work.init.acc = 0 := rfl
@[simp] theorem Work.init_fill : Work.init.fill = 0 := rfl
@[simp] theorem Work.init_totalbits : Work.init.totalbits = 0 := rfl
@[simp] theorem Work.init_best : Work.init.best = 0 := rfl
@[simp] theorem Work.init_boff : Work.init.boff = 0 := rfl
@[simp] theorem Work.init_runValue : Work.init.runValue = 0 := rfl
@[simp] theorem Work.init_runCount : Work.init.runCount = 0 := rfl
@[simp] theorem Work.init_record : Work.init.record = [] := rfl
@[simp] theorem Work.init_copy : Work.init.copy = 0 := rfl
@[simp] theorem Work.init_cands : Work.init.cands = [] := rfl
@[simp] theorem Work.init_olen : Work.init.olen = 0 := rfl
@[simp] theorem Results.zero_outLen : Results.zero.outLen = 0 := rfl
@[simp] theorem Results.zero_rOrig : Results.zero.rOrig = 0 := rfl
@[simp] theorem Results.zero_rComp : Results.zero.rComp = 0 := rfl
@[simp] theorem Results.zero_rRatio : Results.zero.rRatio = 0 := rfl
@[simp] theorem Results.zero_rInfo : Results.zero.rInfo = 0 := rfl
@[simp] theorem Results.zero_rAvoid : Results.zero.rAvoid = 0 := rfl
@[simp] theorem Results.zero_rMetaLen : Results.zero.rMetaLen = 0 := rfl
@[simp] theorem Results.zero_rTime : Results.zero.rTime = 0 := rfl
@[simp] theorem Results.zero_t0 : Results.zero.t0 = TestedEntry.zero := rfl
@[simp] theorem Results.zero_t1 : Results.zero.t1 = TestedEntry.zero := rfl
@[simp] theorem Results.zero_t2 : Results.zero.t2 = TestedEntry.zero := rfl
@[simp] theorem TestedEntry.zero_info : TestedEntry.zero.info = 0 := rfl
@[simp] theorem TestedEntry.zero_size : TestedEntry.zero.size = 0 := rfl
@[simp] theorem TestedEntry.zero_ratio : TestedEntry.zero.ratio = 0 := rfl
@[simp] theorem Buffer.unspecified_cells (g : Nat) : (Buffer.unspecified g).cells = [] := rfl
@[simp] theorem Buffer.unspecified_gen (g : Nat) : (Buffer.unspecified g).gen = g := rfl
@[simp] theorem Buffer.holding_cells (g : Nat) (bs : List Byte) :
    (Buffer.holding g bs).cells = Memory.ofBytes 0 bs := rfl
@[simp] theorem Buffer.holding_gen (g : Nat) (bs : List Byte) : (Buffer.holding g bs).gen = g := rfl

/-! ### `withAgenda` -/

@[simp] theorem State.withAgenda_build (s : State) (q : List Event) :
    (s.withAgenda q).build = s.build := rfl
@[simp] theorem State.withAgenda_cmd (s : State) (q : List Event) : (s.withAgenda q).cmd = s.cmd := rfl
@[simp] theorem State.withAgenda_latched (s : State) (q : List Event) :
    (s.withAgenda q).latched = s.latched := rfl
@[simp] theorem State.withAgenda_state (s : State) (q : List Event) :
    (s.withAgenda q).state = s.state := rfl
@[simp] theorem State.withAgenda_err (s : State) (q : List Event) : (s.withAgenda q).err = s.err := rfl
@[simp] theorem State.withAgenda_inLen (s : State) (q : List Event) :
    (s.withAgenda q).inLen = s.inLen := rfl
@[simp] theorem State.withAgenda_origSize (s : State) (q : List Event) :
    (s.withAgenda q).origSize = s.origSize := rfl
@[simp] theorem State.withAgenda_metaLen (s : State) (q : List Event) :
    (s.withAgenda q).metaLen = s.metaLen := rfl
@[simp] theorem State.withAgenda_res (s : State) (q : List Event) : (s.withAgenda q).res = s.res := rfl
@[simp] theorem State.withAgenda_ibuf (s : State) (q : List Event) : (s.withAgenda q).ibuf = s.ibuf := rfl
@[simp] theorem State.withAgenda_mibuf (s : State) (q : List Event) :
    (s.withAgenda q).mibuf = s.mibuf := rfl
@[simp] theorem State.withAgenda_obuf (s : State) (q : List Event) : (s.withAgenda q).obuf = s.obuf := rfl
@[simp] theorem State.withAgenda_mobuf (s : State) (q : List Event) :
    (s.withAgenda q).mobuf = s.mobuf := rfl
@[simp] theorem State.withAgenda_work (s : State) (q : List Event) : (s.withAgenda q).work = s.work := rfl
@[simp] theorem State.withAgenda_draws (s : State) (q : List Event) :
    (s.withAgenda q).draws = s.draws := rfl
@[simp] theorem State.withAgenda_agenda (s : State) (q : List Event) : (s.withAgenda q).agenda = q := rfl
@[simp] theorem State.withAgenda_readData (s : State) (q : List Event) :
    (s.withAgenda q).readData = s.readData := rfl
@[simp] theorem State.withAgenda_busData (s : State) (q : List Event) :
    (s.withAgenda q).busData = s.busData := rfl

/-! ### `withWork` -/

@[simp] theorem State.withWork_build (s : State) (w : Work) : (s.withWork w).build = s.build := rfl
@[simp] theorem State.withWork_cmd (s : State) (w : Work) : (s.withWork w).cmd = s.cmd := rfl
@[simp] theorem State.withWork_latched (s : State) (w : Work) : (s.withWork w).latched = s.latched := rfl
@[simp] theorem State.withWork_state (s : State) (w : Work) : (s.withWork w).state = s.state := rfl
@[simp] theorem State.withWork_err (s : State) (w : Work) : (s.withWork w).err = s.err := rfl
@[simp] theorem State.withWork_inLen (s : State) (w : Work) : (s.withWork w).inLen = s.inLen := rfl
@[simp] theorem State.withWork_origSize (s : State) (w : Work) : (s.withWork w).origSize = s.origSize := rfl
@[simp] theorem State.withWork_metaLen (s : State) (w : Work) : (s.withWork w).metaLen = s.metaLen := rfl
@[simp] theorem State.withWork_res (s : State) (w : Work) : (s.withWork w).res = s.res := rfl
@[simp] theorem State.withWork_ibuf (s : State) (w : Work) : (s.withWork w).ibuf = s.ibuf := rfl
@[simp] theorem State.withWork_mibuf (s : State) (w : Work) : (s.withWork w).mibuf = s.mibuf := rfl
@[simp] theorem State.withWork_obuf (s : State) (w : Work) : (s.withWork w).obuf = s.obuf := rfl
@[simp] theorem State.withWork_mobuf (s : State) (w : Work) : (s.withWork w).mobuf = s.mobuf := rfl
@[simp] theorem State.withWork_work (s : State) (w : Work) : (s.withWork w).work = w := rfl
@[simp] theorem State.withWork_draws (s : State) (w : Work) : (s.withWork w).draws = s.draws := rfl
@[simp] theorem State.withWork_agenda (s : State) (w : Work) : (s.withWork w).agenda = s.agenda := rfl
@[simp] theorem State.withWork_readData (s : State) (w : Work) : (s.withWork w).readData = s.readData := rfl
@[simp] theorem State.withWork_busData (s : State) (w : Work) : (s.withWork w).busData = s.busData := rfl

/-! ### `returned` -/

@[simp] theorem State.returned_build (s : State) (v : Word) : (s.returned v).build = s.build := rfl
@[simp] theorem State.returned_cmd (s : State) (v : Word) : (s.returned v).cmd = s.cmd := rfl
@[simp] theorem State.returned_latched (s : State) (v : Word) : (s.returned v).latched = s.latched := rfl
@[simp] theorem State.returned_state (s : State) (v : Word) : (s.returned v).state = s.state := rfl
@[simp] theorem State.returned_err (s : State) (v : Word) : (s.returned v).err = s.err := rfl
@[simp] theorem State.returned_inLen (s : State) (v : Word) : (s.returned v).inLen = s.inLen := rfl
@[simp] theorem State.returned_origSize (s : State) (v : Word) : (s.returned v).origSize = s.origSize := rfl
@[simp] theorem State.returned_metaLen (s : State) (v : Word) : (s.returned v).metaLen = s.metaLen := rfl
@[simp] theorem State.returned_res (s : State) (v : Word) : (s.returned v).res = s.res := rfl
@[simp] theorem State.returned_ibuf (s : State) (v : Word) : (s.returned v).ibuf = s.ibuf := rfl
@[simp] theorem State.returned_mibuf (s : State) (v : Word) : (s.returned v).mibuf = s.mibuf := rfl
@[simp] theorem State.returned_obuf (s : State) (v : Word) : (s.returned v).obuf = s.obuf := rfl
@[simp] theorem State.returned_mobuf (s : State) (v : Word) : (s.returned v).mobuf = s.mobuf := rfl
@[simp] theorem State.returned_work (s : State) (v : Word) : (s.returned v).work = s.work := rfl
@[simp] theorem State.returned_draws (s : State) (v : Word) : (s.returned v).draws = s.draws := rfl
@[simp] theorem State.returned_agenda (s : State) (v : Word) : (s.returned v).agenda = s.agenda := rfl
@[simp] theorem State.returned_readData (s : State) (v : Word) : (s.returned v).readData = v := rfl
@[simp] theorem State.returned_busData (s : State) (v : Word) : (s.returned v).busData = s.busData := rfl

/-! ### `returnedAny` -/

@[simp] theorem State.returnedAny_build (s : State) : (s.returnedAny).build = s.build := rfl
@[simp] theorem State.returnedAny_cmd (s : State) : (s.returnedAny).cmd = s.cmd := rfl
@[simp] theorem State.returnedAny_latched (s : State) : (s.returnedAny).latched = s.latched := rfl
@[simp] theorem State.returnedAny_state (s : State) : (s.returnedAny).state = s.state := rfl
@[simp] theorem State.returnedAny_err (s : State) : (s.returnedAny).err = s.err := rfl
@[simp] theorem State.returnedAny_inLen (s : State) : (s.returnedAny).inLen = s.inLen := rfl
@[simp] theorem State.returnedAny_origSize (s : State) : (s.returnedAny).origSize = s.origSize := rfl
@[simp] theorem State.returnedAny_metaLen (s : State) : (s.returnedAny).metaLen = s.metaLen := rfl
@[simp] theorem State.returnedAny_res (s : State) : (s.returnedAny).res = s.res := rfl
@[simp] theorem State.returnedAny_ibuf (s : State) : (s.returnedAny).ibuf = s.ibuf := rfl
@[simp] theorem State.returnedAny_mibuf (s : State) : (s.returnedAny).mibuf = s.mibuf := rfl
@[simp] theorem State.returnedAny_obuf (s : State) : (s.returnedAny).obuf = s.obuf := rfl
@[simp] theorem State.returnedAny_mobuf (s : State) : (s.returnedAny).mobuf = s.mobuf := rfl
@[simp] theorem State.returnedAny_work (s : State) : (s.returnedAny).work = s.work := rfl
@[simp] theorem State.returnedAny_draws (s : State) : (s.returnedAny).draws = s.draws + 1 := rfl
@[simp] theorem State.returnedAny_agenda (s : State) : (s.returnedAny).agenda = s.agenda := rfl
@[simp] theorem State.returnedAny_readData (s : State) :
    (s.returnedAny).readData = Config.freeWord s.draws := rfl
@[simp] theorem State.returnedAny_busData (s : State) :
    (s.returnedAny).busData = s.busData := rfl

/-! ### `returnedLanes` -/

@[simp] theorem State.returnedLanes_build (s : State) (vs : List Byte) :
    (s.returnedLanes vs).build = s.build := rfl
@[simp] theorem State.returnedLanes_cmd (s : State) (vs : List Byte) : (s.returnedLanes vs).cmd = s.cmd := rfl
@[simp] theorem State.returnedLanes_latched (s : State) (vs : List Byte) :
    (s.returnedLanes vs).latched = s.latched := rfl
@[simp] theorem State.returnedLanes_state (s : State) (vs : List Byte) :
    (s.returnedLanes vs).state = s.state := rfl
@[simp] theorem State.returnedLanes_err (s : State) (vs : List Byte) : (s.returnedLanes vs).err = s.err := rfl
@[simp] theorem State.returnedLanes_inLen (s : State) (vs : List Byte) :
    (s.returnedLanes vs).inLen = s.inLen := rfl
@[simp] theorem State.returnedLanes_origSize (s : State) (vs : List Byte) :
    (s.returnedLanes vs).origSize = s.origSize := rfl
@[simp] theorem State.returnedLanes_metaLen (s : State) (vs : List Byte) :
    (s.returnedLanes vs).metaLen = s.metaLen := rfl
@[simp] theorem State.returnedLanes_res (s : State) (vs : List Byte) : (s.returnedLanes vs).res = s.res := rfl
@[simp] theorem State.returnedLanes_ibuf (s : State) (vs : List Byte) :
    (s.returnedLanes vs).ibuf = s.ibuf := rfl
@[simp] theorem State.returnedLanes_mibuf (s : State) (vs : List Byte) :
    (s.returnedLanes vs).mibuf = s.mibuf := rfl
@[simp] theorem State.returnedLanes_obuf (s : State) (vs : List Byte) :
    (s.returnedLanes vs).obuf = s.obuf := rfl
@[simp] theorem State.returnedLanes_mobuf (s : State) (vs : List Byte) :
    (s.returnedLanes vs).mobuf = s.mobuf := rfl
@[simp] theorem State.returnedLanes_work (s : State) (vs : List Byte) :
    (s.returnedLanes vs).work = s.work := rfl
@[simp] theorem State.returnedLanes_draws (s : State) (vs : List Byte) :
    (s.returnedLanes vs).draws = s.draws + 1 := rfl
@[simp] theorem State.returnedLanes_agenda (s : State) (vs : List Byte) :
    (s.returnedLanes vs).agenda = s.agenda := rfl
@[simp] theorem State.returnedLanes_readData (s : State) (vs : List Byte) :
    (s.returnedLanes vs).readData = s.readData := rfl
@[simp] theorem State.returnedLanes_busData (s : State) (vs : List Byte) :
    (s.returnedLanes vs).busData = vs := rfl

/-! ### `startCommand` -/

@[simp] theorem State.startCommand_build (s : State) : (s.startCommand).build = s.build := rfl
@[simp] theorem State.startCommand_cmd (s : State) : (s.startCommand).cmd = s.cmd := rfl
@[simp] theorem State.startCommand_latched (s : State) : (s.startCommand).latched = s.cmd := rfl
@[simp] theorem State.startCommand_state (s : State) : (s.startCommand).state = .busy := rfl
@[simp] theorem State.startCommand_err (s : State) : (s.startCommand).err = none := rfl
@[simp] theorem State.startCommand_inLen (s : State) : (s.startCommand).inLen = s.inLen := rfl
@[simp] theorem State.startCommand_origSize (s : State) : (s.startCommand).origSize = s.origSize := rfl
@[simp] theorem State.startCommand_metaLen (s : State) : (s.startCommand).metaLen = s.metaLen := rfl
@[simp] theorem State.startCommand_res (s : State) : (s.startCommand).res = .zero := rfl
@[simp] theorem State.startCommand_ibuf (s : State) : (s.startCommand).ibuf = s.ibuf := rfl
@[simp] theorem State.startCommand_mibuf (s : State) : (s.startCommand).mibuf = s.mibuf := rfl
@[simp] theorem State.startCommand_obuf (s : State) : (s.startCommand).obuf = .unspecified s.draws := rfl
@[simp] theorem State.startCommand_mobuf (s : State) : (s.startCommand).mobuf = .unspecified s.draws := rfl
@[simp] theorem State.startCommand_work (s : State) : (s.startCommand).work = .init := rfl
@[simp] theorem State.startCommand_draws (s : State) : (s.startCommand).draws = s.draws + 1 := rfl
@[simp] theorem State.startCommand_agenda (s : State) : (s.startCommand).agenda = s.agenda := rfl
@[simp] theorem State.startCommand_readData (s : State) : (s.startCommand).readData = s.readData := rfl
@[simp] theorem State.startCommand_busData (s : State) : (s.startCommand).busData = s.busData := rfl

/-! ### `clearResult` -/

@[simp] theorem State.clearResult_build (s : State) : (s.clearResult).build = s.build := rfl
@[simp] theorem State.clearResult_cmd (s : State) : (s.clearResult).cmd = s.cmd := rfl
@[simp] theorem State.clearResult_latched (s : State) : (s.clearResult).latched = s.latched := rfl
@[simp] theorem State.clearResult_state (s : State) : (s.clearResult).state = .idle := rfl
@[simp] theorem State.clearResult_err (s : State) : (s.clearResult).err = none := rfl
@[simp] theorem State.clearResult_inLen (s : State) : (s.clearResult).inLen = s.inLen := rfl
@[simp] theorem State.clearResult_origSize (s : State) : (s.clearResult).origSize = s.origSize := rfl
@[simp] theorem State.clearResult_metaLen (s : State) : (s.clearResult).metaLen = s.metaLen := rfl
@[simp] theorem State.clearResult_res (s : State) : (s.clearResult).res = .zero := rfl
@[simp] theorem State.clearResult_ibuf (s : State) : (s.clearResult).ibuf = s.ibuf := rfl
@[simp] theorem State.clearResult_mibuf (s : State) : (s.clearResult).mibuf = s.mibuf := rfl
@[simp] theorem State.clearResult_obuf (s : State) : (s.clearResult).obuf = .unspecified s.draws := rfl
@[simp] theorem State.clearResult_mobuf (s : State) : (s.clearResult).mobuf = .unspecified s.draws := rfl
@[simp] theorem State.clearResult_work (s : State) : (s.clearResult).work = s.work := rfl
@[simp] theorem State.clearResult_draws (s : State) : (s.clearResult).draws = s.draws + 1 := rfl
@[simp] theorem State.clearResult_agenda (s : State) : (s.clearResult).agenda = s.agenda := rfl
@[simp] theorem State.clearResult_readData (s : State) : (s.clearResult).readData = s.readData := rfl
@[simp] theorem State.clearResult_busData (s : State) : (s.clearResult).busData = s.busData := rfl

/-! ### `raise` -/

@[simp] theorem State.raise_build (s : State) (k : ErrKind) : (s.raise k).build = s.build := rfl
@[simp] theorem State.raise_cmd (s : State) (k : ErrKind) : (s.raise k).cmd = s.cmd := rfl
@[simp] theorem State.raise_latched (s : State) (k : ErrKind) : (s.raise k).latched = s.latched := rfl
@[simp] theorem State.raise_state (s : State) (k : ErrKind) : (s.raise k).state = .error := rfl
@[simp] theorem State.raise_err (s : State) (k : ErrKind) : (s.raise k).err = some k := rfl
@[simp] theorem State.raise_inLen (s : State) (k : ErrKind) : (s.raise k).inLen = s.inLen := rfl
@[simp] theorem State.raise_origSize (s : State) (k : ErrKind) : (s.raise k).origSize = s.origSize := rfl
@[simp] theorem State.raise_metaLen (s : State) (k : ErrKind) : (s.raise k).metaLen = s.metaLen := rfl
@[simp] theorem State.raise_res (s : State) (k : ErrKind) : (s.raise k).res = errorResults k := rfl
@[simp] theorem State.raise_ibuf (s : State) (k : ErrKind) : (s.raise k).ibuf = s.ibuf := rfl
@[simp] theorem State.raise_mibuf (s : State) (k : ErrKind) : (s.raise k).mibuf = s.mibuf := rfl
@[simp] theorem State.raise_obuf (s : State) (k : ErrKind) : (s.raise k).obuf = .unspecified s.draws := rfl
@[simp] theorem State.raise_mobuf (s : State) (k : ErrKind) :
    (s.raise k).mobuf = .unspecified s.draws := rfl
@[simp] theorem State.raise_work (s : State) (k : ErrKind) : (s.raise k).work = .init := rfl
@[simp] theorem State.raise_draws (s : State) (k : ErrKind) : (s.raise k).draws = s.draws + 1 := rfl
@[simp] theorem State.raise_agenda (s : State) (k : ErrKind) : (s.raise k).agenda = s.agenda := rfl
@[simp] theorem State.raise_readData (s : State) (k : ErrKind) : (s.raise k).readData = s.readData := rfl
@[simp] theorem State.raise_busData (s : State) (k : ErrKind) : (s.raise k).busData = s.busData := rfl

/-! ### `finish` -/

@[simp] theorem State.finish_build (s : State) (r : Results) (o t : List Byte) :
    (s.finish r o t).build = s.build := rfl
@[simp] theorem State.finish_cmd (s : State) (r : Results) (o t : List Byte) :
    (s.finish r o t).cmd = s.cmd := rfl
@[simp] theorem State.finish_latched (s : State) (r : Results) (o t : List Byte) :
    (s.finish r o t).latched = s.latched := rfl
@[simp] theorem State.finish_state (s : State) (r : Results) (o t : List Byte) :
    (s.finish r o t).state = .done := rfl
@[simp] theorem State.finish_err (s : State) (r : Results) (o t : List Byte) :
    (s.finish r o t).err = none := rfl
@[simp] theorem State.finish_inLen (s : State) (r : Results) (o t : List Byte) :
    (s.finish r o t).inLen = s.inLen := rfl
@[simp] theorem State.finish_origSize (s : State) (r : Results) (o t : List Byte) :
    (s.finish r o t).origSize = s.origSize := rfl
@[simp] theorem State.finish_metaLen (s : State) (r : Results) (o t : List Byte) :
    (s.finish r o t).metaLen = s.metaLen := rfl
@[simp] theorem State.finish_res (s : State) (r : Results) (o t : List Byte) :
    (s.finish r o t).res = r := rfl
@[simp] theorem State.finish_ibuf (s : State) (r : Results) (o t : List Byte) :
    (s.finish r o t).ibuf = s.ibuf := rfl
@[simp] theorem State.finish_mibuf (s : State) (r : Results) (o t : List Byte) :
    (s.finish r o t).mibuf = s.mibuf := rfl
@[simp] theorem State.finish_obuf (s : State) (r : Results) (o t : List Byte) :
    (s.finish r o t).obuf = .holding s.draws o := rfl
@[simp] theorem State.finish_mobuf (s : State) (r : Results) (o t : List Byte) :
    (s.finish r o t).mobuf = .holding s.draws t := rfl
@[simp] theorem State.finish_work (s : State) (r : Results) (o t : List Byte) :
    (s.finish r o t).work = .init := rfl
@[simp] theorem State.finish_draws (s : State) (r : Results) (o t : List Byte) :
    (s.finish r o t).draws = s.draws + 1 := rfl
@[simp] theorem State.finish_agenda (s : State) (r : Results) (o t : List Byte) :
    (s.finish r o t).agenda = s.agenda := rfl
@[simp] theorem State.finish_readData (s : State) (r : Results) (o t : List Byte) :
    (s.finish r o t).readData = s.readData := rfl
@[simp] theorem State.finish_busData (s : State) (r : Results) (o t : List Byte) :
    (s.finish r o t).busData = s.busData := rfl

/-! ### `platformReset` -/

@[simp] theorem State.platformReset_build (s : State) : (s.platformReset).build = s.build := rfl
@[simp] theorem State.platformReset_cmd (s : State) : (s.platformReset).cmd = 0 := rfl
@[simp] theorem State.platformReset_latched (s : State) : (s.platformReset).latched = 0 := rfl
@[simp] theorem State.platformReset_state (s : State) : (s.platformReset).state = .idle := rfl
@[simp] theorem State.platformReset_err (s : State) : (s.platformReset).err = none := rfl
@[simp] theorem State.platformReset_inLen (s : State) : (s.platformReset).inLen = 0 := rfl
@[simp] theorem State.platformReset_origSize (s : State) : (s.platformReset).origSize = 0 := rfl
@[simp] theorem State.platformReset_metaLen (s : State) : (s.platformReset).metaLen = 0 := rfl
@[simp] theorem State.platformReset_res (s : State) : (s.platformReset).res = .zero := rfl
@[simp] theorem State.platformReset_ibuf (s : State) : (s.platformReset).ibuf = .unspecified s.draws := rfl
@[simp] theorem State.platformReset_mibuf (s : State) :
    (s.platformReset).mibuf = .unspecified s.draws := rfl
@[simp] theorem State.platformReset_obuf (s : State) : (s.platformReset).obuf = .unspecified s.draws := rfl
@[simp] theorem State.platformReset_mobuf (s : State) :
    (s.platformReset).mobuf = .unspecified s.draws := rfl
@[simp] theorem State.platformReset_work (s : State) : (s.platformReset).work = .init := rfl
@[simp] theorem State.platformReset_draws (s : State) : (s.platformReset).draws = s.draws + 1 := rfl
@[simp] theorem State.platformReset_agenda (s : State) : (s.platformReset).agenda = s.agenda := rfl
@[simp] theorem State.platformReset_readData (s : State) : (s.platformReset).readData = s.readData := rfl
@[simp] theorem State.platformReset_busData (s : State) : (s.platformReset).busData = s.busData := rfl

/-! ### `storeByte` and `writeStored` -/

@[simp] theorem State.storeByte_build (s : State) (id : BufId) (i : Nat) (v : Byte) :
    (s.storeByte id i v).build = s.build := by cases id <;> rfl
@[simp] theorem State.storeByte_cmd (s : State) (id : BufId) (i : Nat) (v : Byte) :
    (s.storeByte id i v).cmd = s.cmd := by cases id <;> rfl
@[simp] theorem State.storeByte_latched (s : State) (id : BufId) (i : Nat) (v : Byte) :
    (s.storeByte id i v).latched = s.latched := by cases id <;> rfl
@[simp] theorem State.storeByte_state (s : State) (id : BufId) (i : Nat) (v : Byte) :
    (s.storeByte id i v).state = s.state := by cases id <;> rfl
@[simp] theorem State.storeByte_err (s : State) (id : BufId) (i : Nat) (v : Byte) :
    (s.storeByte id i v).err = s.err := by cases id <;> rfl
@[simp] theorem State.storeByte_inLen (s : State) (id : BufId) (i : Nat) (v : Byte) :
    (s.storeByte id i v).inLen = s.inLen := by cases id <;> rfl
@[simp] theorem State.storeByte_origSize (s : State) (id : BufId) (i : Nat) (v : Byte) :
    (s.storeByte id i v).origSize = s.origSize := by cases id <;> rfl
@[simp] theorem State.storeByte_metaLen (s : State) (id : BufId) (i : Nat) (v : Byte) :
    (s.storeByte id i v).metaLen = s.metaLen := by cases id <;> rfl
@[simp] theorem State.storeByte_res (s : State) (id : BufId) (i : Nat) (v : Byte) :
    (s.storeByte id i v).res = s.res := by cases id <;> rfl
@[simp] theorem State.storeByte_obuf (s : State) (id : BufId) (i : Nat) (v : Byte) :
    (s.storeByte id i v).obuf = s.obuf := by cases id <;> rfl
@[simp] theorem State.storeByte_mobuf (s : State) (id : BufId) (i : Nat) (v : Byte) :
    (s.storeByte id i v).mobuf = s.mobuf := by cases id <;> rfl
@[simp] theorem State.storeByte_work (s : State) (id : BufId) (i : Nat) (v : Byte) :
    (s.storeByte id i v).work = s.work := by cases id <;> rfl
@[simp] theorem State.storeByte_draws (s : State) (id : BufId) (i : Nat) (v : Byte) :
    (s.storeByte id i v).draws = s.draws := by cases id <;> rfl
@[simp] theorem State.storeByte_agenda (s : State) (id : BufId) (i : Nat) (v : Byte) :
    (s.storeByte id i v).agenda = s.agenda := by cases id <;> rfl
@[simp] theorem State.storeByte_readData (s : State) (id : BufId) (i : Nat) (v : Byte) :
    (s.storeByte id i v).readData = s.readData := by cases id <;> rfl
@[simp] theorem State.storeByte_busData (s : State) (id : BufId) (i : Nat) (v : Byte) :
    (s.storeByte id i v).busData = s.busData := by cases id <;> rfl
@[simp] theorem State.writeStored_build (s : State) (r : Reg) (v : Word) :
    (s.writeStored r v).build = s.build := by cases r <;> rfl
@[simp] theorem State.writeStored_latched (s : State) (r : Reg) (v : Word) :
    (s.writeStored r v).latched = s.latched := by cases r <;> rfl
@[simp] theorem State.writeStored_state (s : State) (r : Reg) (v : Word) :
    (s.writeStored r v).state = s.state := by cases r <;> rfl
@[simp] theorem State.writeStored_err (s : State) (r : Reg) (v : Word) :
    (s.writeStored r v).err = s.err := by cases r <;> rfl
@[simp] theorem State.writeStored_res (s : State) (r : Reg) (v : Word) :
    (s.writeStored r v).res = s.res := by cases r <;> rfl
@[simp] theorem State.writeStored_ibuf (s : State) (r : Reg) (v : Word) :
    (s.writeStored r v).ibuf = s.ibuf := by cases r <;> rfl
@[simp] theorem State.writeStored_mibuf (s : State) (r : Reg) (v : Word) :
    (s.writeStored r v).mibuf = s.mibuf := by cases r <;> rfl
@[simp] theorem State.writeStored_obuf (s : State) (r : Reg) (v : Word) :
    (s.writeStored r v).obuf = s.obuf := by cases r <;> rfl
@[simp] theorem State.writeStored_mobuf (s : State) (r : Reg) (v : Word) :
    (s.writeStored r v).mobuf = s.mobuf := by cases r <;> rfl
@[simp] theorem State.writeStored_work (s : State) (r : Reg) (v : Word) :
    (s.writeStored r v).work = s.work := by cases r <;> rfl
@[simp] theorem State.writeStored_draws (s : State) (r : Reg) (v : Word) :
    (s.writeStored r v).draws = s.draws := by cases r <;> rfl
@[simp] theorem State.writeStored_agenda (s : State) (r : Reg) (v : Word) :
    (s.writeStored r v).agenda = s.agenda := by cases r <;> rfl
@[simp] theorem State.writeStored_readData (s : State) (r : Reg) (v : Word) :
    (s.writeStored r v).readData = s.readData := by cases r <;> rfl
@[simp] theorem State.writeStored_busData (s : State) (r : Reg) (v : Word) :
    (s.writeStored r v).busData = s.busData := by cases r <;> rfl

end Sys2Proof.Machine
end

