-- ==== Sys2Proof/Laws/Bits.lean ====
section
/-! SUPPORT. Fields and numbers: what concatenating and cutting bit fields does to the numbers, and the bytes of
the 16-bit and 32-bit fields. -/

namespace Sys2Proof

theorem toNat_concat {m n : Nat} (x : BitVec m) (y : BitVec n) :
    (x ++ y).toNat = x.toNat * 2 ^ n + y.toNat := by
  rw [BitVec.toNat_append, ← Nat.shiftLeft_add_eq_or_of_lt y.isLt, Nat.shiftLeft_eq]

theorem toNat_field {n : Nat} (x : BitVec n) (i k : Nat) :
    (x.extractLsb' i k).toNat = x.toNat / 2 ^ i % 2 ^ k := by
  rw [BitVec.extractLsb'_toNat, Nat.shiftRight_eq_div_pow]

theorem be16_toNat (a b : Byte) : (be16 a b).toNat = a.toNat * 256 + b.toNat := toNat_concat a b

theorem be32_toNat (a b c d : Byte) :
    (be32 a b c d).toNat = ((a.toNat * 256 + b.toNat) * 256 + c.toNat) * 256 + d.toNat := by
  unfold be32
  refine (toNat_concat _ d).trans (congrArg (· * 256 + d.toNat) ?_)
  refine (toNat_concat _ c).trans (congrArg (· * 256 + c.toNat) ?_)
  exact toNat_concat a b

/-- The bytes of a 16-bit field assemble to it. -/
theorem be16_of_bytes (x : BitVec 16) : be16 (x.extractLsb' 8 8) (x.extractLsb' 0 8) = x := by
  apply BitVec.eq_of_toNat_eq
  rw [be16_toNat, toNat_field, toNat_field]
  have := x.isLt
  omega

/-- The bytes of a 32-bit field assemble to it. -/
theorem be32_of_bytes (x : Word) :
    be32 (x.extractLsb' 24 8) (x.extractLsb' 16 8) (x.extractLsb' 8 8) (x.extractLsb' 0 8) = x := by
  apply BitVec.eq_of_toNat_eq
  rw [be32_toNat, toNat_field, toNat_field, toNat_field, toNat_field]
  have := x.isLt
  omega

/-- The bytes of an assembled 16-bit field. -/
theorem bytes16_be16 (a b : Byte) : bytes16 (be16 a b) = [a, b] := by
  have h1 : (be16 a b).extractLsb' 8 8 = a := by
    apply BitVec.eq_of_toNat_eq; rw [toNat_field, be16_toNat]; have := a.isLt; have := b.isLt; omega
  have h0 : (be16 a b).extractLsb' 0 8 = b := by
    apply BitVec.eq_of_toNat_eq; rw [toNat_field, be16_toNat]; have := a.isLt; have := b.isLt; omega
  rw [bytes16, h1, h0]

/-- The bytes of an assembled 32-bit field. -/
theorem bytes32_be32 (a b c d : Byte) : bytes32 (be32 a b c d) = [a, b, c, d] := by
  have ha := a.isLt; have hb := b.isLt; have hc := c.isLt; have hd := d.isLt
  have h3 : (be32 a b c d).extractLsb' 24 8 = a := by
    apply BitVec.eq_of_toNat_eq; rw [toNat_field, be32_toNat]; omega
  have h2 : (be32 a b c d).extractLsb' 16 8 = b := by
    apply BitVec.eq_of_toNat_eq; rw [toNat_field, be32_toNat]; omega
  have h1 : (be32 a b c d).extractLsb' 8 8 = c := by
    apply BitVec.eq_of_toNat_eq; rw [toNat_field, be32_toNat]; omega
  have h0 : (be32 a b c d).extractLsb' 0 8 = d := by
    apply BitVec.eq_of_toNat_eq; rw [toNat_field, be32_toNat]; omega
  rw [bytes32, h3, h2, h1, h0]

theorem length_bytes16 (x : BitVec 16) : (bytes16 x).length = 2 := rfl

theorem length_bytes32 (x : Word) : (bytes32 x).length = 4 := rfl

end Sys2Proof
end

