-- ==== Sys2Proof/Laws/Memory.lean ====
section
/-! SUPPORT. The laws of the buffers: read after write, the canonical form kept by every operation, whole
buffers, and the operands read from them. -/

namespace Sys2Proof.Machine

open Sys2Proof

/-! ### One byte -/

@[simp] theorem Memory.find_nil (i : Nat) : Memory.find [] i = none := rfl

/-- Read after write: the byte written, and every other byte as before. -/
theorem Memory.find_store (m : Memory) (i j : Nat) (v : Byte) :
    (m.store i v).find j = if j = i then some v else m.find j := by
  induction m with
  | nil => simp [Memory.store, Memory.find, eq_comm]
  | cons c m ih =>
    obtain ⟨k, u⟩ := c
    simp only [Memory.store]
    split
    · simp [Memory.find, eq_comm]
    · split
      · next h =>
        subst h
        by_cases hj : j = i
        · simp [Memory.find, hj]
        · simp [Memory.find, hj, Ne.symm hj]
      · next h =>
        simp only [Memory.find, ih]
        by_cases hj : k = j
        · subst hj; simp [Ne.symm h]
        · simp [hj]

theorem Memory.mem_store {m : Memory} {i : Nat} {v : Byte} {c : Host.Cell} (h : c ∈ m.store i v) :
    c = (i, v) ∨ c ∈ m := by
  induction m with
  | nil => simpa [Memory.store] using h
  | cons d m ih =>
    obtain ⟨k, u⟩ := d
    simp only [Memory.store] at h
    split at h
    · simpa using h
    · split at h
      · rcases List.mem_cons.1 h with h | h <;> simp [h]
      · rcases List.mem_cons.1 h with h | h
        · simp [h]
        · rcases ih h with h | h <;> simp [h]

/-- A write keeps the canonical form. -/
theorem Memory.wf_store {m : Memory} (h : m.wf) (i : Nat) (v : Byte) : (m.store i v).wf := by
  induction m with
  | nil => simp [Memory.store, Memory.wf]
  | cons c m ih =>
    obtain ⟨k, u⟩ := c
    have h' := List.pairwise_cons.1 h
    simp only [Memory.store]
    split
    · next hik =>
      refine List.pairwise_cons.2 ⟨fun d hd => ?_, h⟩
      rcases List.mem_cons.1 hd with rfl | hd
      · exact hik
      · exact hik.trans (h'.1 d hd)
    · split
      · next hik => subst hik; exact List.pairwise_cons.2 ⟨h'.1, h'.2⟩
      · next hik hne =>
        refine List.pairwise_cons.2 ⟨fun d hd => ?_, ih h'.2⟩
        rcases Memory.mem_store hd with rfl | hd
        · exact Nat.lt_of_le_of_ne (Nat.le_of_not_lt hik) (Ne.symm hne)
        · exact h'.1 d hd

/-! ### Whole buffers -/

theorem Memory.find_ofBytes (bs : List Byte) (k i : Nat) :
    (Memory.ofBytes k bs).find i = if i < k then none else bs[i - k]? := by
  induction bs generalizing k with
  | nil => simp [Memory.ofBytes]
  | cons b bs ih =>
    simp only [Memory.ofBytes, Memory.find, ih]
    by_cases h : k = i
    · subst h; simp
    · by_cases hi : i < k
      · simp [hi, h, show i < k + 1 by omega]
      · obtain ⟨d, rfl⟩ : ∃ d, i = k + 1 + d := ⟨i - (k + 1), by omega⟩
        rw [if_neg h, if_neg (by omega), if_neg hi, show k + 1 + d - k = d + 1 by omega,
          show k + 1 + d - (k + 1) = d by omega, List.getElem?_cons_succ]

theorem Memory.mem_ofBytes_le {k : Nat} {bs : List Byte} {c : Host.Cell} (h : c ∈ Memory.ofBytes k bs) :
    k ≤ c.1 := by
  induction bs generalizing k with
  | nil => simp [Memory.ofBytes] at h
  | cons b bs ih =>
    rcases List.mem_cons.1 h with rfl | h
    · exact le_refl k
    · exact Nat.le_of_succ_le (ih h)

theorem Memory.wf_ofBytes (k : Nat) (bs : List Byte) : (Memory.ofBytes k bs).wf := by
  induction bs generalizing k with
  | nil => simp [Memory.ofBytes, Memory.wf]
  | cons b bs ih =>
    exact List.pairwise_cons.2 ⟨fun c hc => Memory.mem_ofBytes_le hc, ih (k + 1)⟩

@[simp] theorem Buffer.holds_holding (gen : Nat) (bs : List Byte) : (Buffer.holding gen bs).Holds bs := by
  intro i; simp [Buffer.holding, Memory.find_ofBytes]

@[simp] theorem Buffer.unspecified_unspecified (gen : Nat) : (Buffer.unspecified gen).Unspecified :=
  fun _ => rfl

@[simp] theorem Buffer.unspecified_holding_nil (gen : Nat) : (Buffer.holding gen []).Unspecified :=
  fun _ => rfl

/-- A buffer that holds a sequence reads as it, byte by byte. -/
theorem Buffer.Holds.read {b : Buffer} {bs : List Byte} (h : b.Holds bs) (id : BufId) {i : Nat}
    (hi : i < bs.length) : b.read id i = bs[i] := by
  simp [Buffer.read, h i, List.getElem?_eq_getElem hi]

/-! ### Operands -/

@[simp] theorem State.length_readBytes (s : State) (id : BufId) (addr n : Nat) :
    (s.readBytes id addr n).length = n := by simp [State.readBytes]

@[simp] theorem State.length_input (s : State) : s.input.length = s.n := by simp [State.input]

theorem State.at0_readBytes (s : State) (id : BufId) {addr n i : Nat} (h : i < n) :
    at0 (s.readBytes id addr n) i = s.readByte id (addr + i) := by
  simp [at0, State.readBytes, h]

theorem State.at0_input (s : State) {i : Nat} (h : i < s.n) : at0 s.input i = s.readByte .ibuf i := by
  rw [State.input, State.at0_readBytes s .ibuf h, Nat.zero_add]

theorem at0_eq_getElem {bs : List Byte} {i : Nat} (h : i < bs.length) : at0 bs i = bs[i] := by
  simp [at0, h]

/-- Two states whose buffers read alike have the same bytes. -/
theorem State.readBytes_congr {s t : State} {id : BufId} {addr n : Nat}
    (h : ∀ i, i < n → t.readByte id (addr + i) = s.readByte id (addr + i)) :
    t.readBytes id addr n = s.readBytes id addr n :=
  List.map_congr_left fun i hi => h i (List.mem_range.1 hi)

end Sys2Proof.Machine
end

