-- ==== Sys2Proof/Laws/Bus.lean ====
section
/-! SUPPORT. The buffers on the bus: where the packing puts a byte and what a place carries, the windows, words as bus
bytes, and what a wide access reads and stores. -/

namespace Sys2Proof.Machine

open Sys2Proof

/-! ### The packing -/

theorem bufId_mem_all (id : BufId) : id ∈ BufId.all := by cases id <;> simp [BufId.all]

/-- Every byte is carried at its own place. -/
theorem carried_busOffset {b : Build} (hp : PackingLegal b) {id : BufId} {i : Nat} (hi : i < b.bufSize id) :
    carried b id (busOffset b id i) = some i := by
  obtain ⟨hne, hnd, hlt⟩ := hp.1 id (bufId_mem_all id)
  have hl : 0 < (b.packing id).lanes.length := List.length_pos_iff.2 hne
  have hk : i % (b.packing id).lanes.length < (b.packing id).lanes.length := Nat.mod_lt _ hl
  have hr := hlt _ (List.getElem_mem hk)
  have e : busOffset b id i = (b.packing id).period * (i / (b.packing id).lanes.length) + (b.packing id).lanes[i % (b.packing id).lanes.length] := by
    rw [busOffset, List.getD_eq_getElem _ _ hk]
  have e1 : busOffset b id i % (b.packing id).period = (b.packing id).lanes[i % (b.packing id).lanes.length] := by
    rw [e, Nat.mul_add_mod, Nat.mod_eq_of_lt hr]
  have e2 : busOffset b id i / (b.packing id).period = i / (b.packing id).lanes.length := by
    rw [e, Nat.mul_add_div (by omega), Nat.div_eq_of_lt hr, Nat.add_zero]
  have e3 : (b.packing id).lanes.length * (i / (b.packing id).lanes.length) + i % (b.packing id).lanes.length = i := Nat.div_add_mod _ _
  simp only [carried, e1, e2, hnd.idxOf_getElem, e3]
  exact if_pos ⟨List.getElem_mem hk, hi⟩

/-- A place carries no byte but the one whose place it is. -/
theorem carried_eq_some {b : Build} (hp : PackingLegal b) {id : BufId} {off i : Nat}
    (h : carried b id off = some i) : off = busOffset b id i ∧ i < b.bufSize id := by
  obtain ⟨hne, hnd, hlt⟩ := hp.1 id (bufId_mem_all id)
  unfold carried at h
  simp only at h
  split at h
  · next hc =>
    cases h
    refine ⟨?_, hc.2⟩
    have hl : 0 < (b.packing id).lanes.length := List.length_pos_iff.2 hne
    have hk := List.idxOf_lt_length_of_mem hc.1
    rw [busOffset, Nat.mul_add_mod, Nat.mod_eq_of_lt hk, Nat.mul_add_div hl, Nat.div_eq_of_lt hk, Nat.add_zero,
      List.getD_eq_getElem _ _ hk, List.getElem_idxOf]
    exact (Nat.div_add_mod _ _).symm
  · cases h

/-- What a place carries is a byte of the buffer. -/
theorem carried_lt {b : Build} {id : BufId} {off i : Nat} (h : carried b id off = some i) : i < b.bufSize id := by
  unfold carried at h
  simp only at h
  split at h
  · next hc => cases h; exact hc.2
  · cases h

/-- A buffer's window holds every byte of it. -/
theorem busOffset_lt {b : Build} (hp : PackingLegal b) {id : BufId} {i : Nat} (hi : i < b.bufSize id) :
    busOffset b id i < windowSize b id := by
  obtain ⟨hne, hnd, hlt⟩ := hp.1 id (bufId_mem_all id)
  have hl : 0 < (b.packing id).lanes.length := List.length_pos_iff.2 hne
  have hk : i % (b.packing id).lanes.length < (b.packing id).lanes.length := Nat.mod_lt _ hl
  have hr := hlt _ (List.getElem_mem hk)
  have hg : i / (b.packing id).lanes.length + 1 ≤ (b.bufSize id + (b.packing id).lanes.length - 1) / (b.packing id).lanes.length := by
    rw [Nat.le_div_iff_mul_le hl, Nat.add_mul, Nat.one_mul]
    have := Nat.div_mul_le_self i (b.packing id).lanes.length
    omega
  have := Nat.mul_le_mul_left (b.packing id).period hg
  rw [Nat.mul_add, Nat.mul_one] at this
  rw [busOffset, List.getD_eq_getElem _ _ hk, windowSize]
  omega

/-! ### The windows -/

theorem windowAt_eq_some {b : Build} {addr n : Nat} {id : BufId} {off : Nat} (h : windowAt b addr n = some (id, off)) :
    addr = b.bufBase id + off ∧ off + n ≤ windowSize b id := by
  obtain ⟨id', -, h⟩ := List.exists_of_findSome?_eq_some h
  split at h <;> cases h
  omega

/-- With the windows apart, an access inside one is found there. -/
theorem windowAt_base {b : Build} (ha : WindowsApart b) {id : BufId} {off n : Nat} (hn : 0 < n)
    (h : off + n ≤ windowSize b id) : windowAt b (b.bufBase id + off) n = some (id, off) := by
  cases hw : windowAt b (b.bufBase id + off) n with
  | none =>
    have := List.findSome?_eq_none_iff.1 hw id (bufId_mem_all id)
    rw [if_pos (by omega)] at this
    cases this
  | some p =>
    obtain ⟨id', off'⟩ := p
    obtain ⟨e, hl⟩ := windowAt_eq_some hw
    by_cases hid : id = id'
    · subst hid
      rw [Nat.add_left_cancel e]
    · have := ha id id' hid
      omega

theorem bufAt_eq_some {b : Build} {addr : Nat} {id : BufId} {i : Nat} (h : bufAt b addr = some (id, i)) :
    ∃ off, windowAt b addr 1 = some (id, off) ∧ carried b id off = some i := by
  unfold bufAt at h
  split at h
  · next id' off hw =>
    cases hc : carried b id' off with
    | none => rw [hc] at h; cases h
    | some j => rw [hc] at h; cases h; exact ⟨off, hw, hc⟩
  · cases h

/-- The byte a bus address selects is a byte of its buffer. -/
theorem bufAt_lt {b : Build} {addr : Nat} {id : BufId} {i : Nat} (h : bufAt b addr = some (id, i)) :
    i < b.bufSize id := by
  obtain ⟨off, -, hc⟩ := bufAt_eq_some h
  exact carried_lt hc

/-- The byte a bus address selects stands at that address. -/
theorem eq_busAddress_of_bufAt {b : Build} (hp : PackingLegal b) {addr : Nat} {id : BufId} {i : Nat}
    (h : bufAt b addr = some (id, i)) : addr = busAddress b id i := by
  obtain ⟨off, hw, hc⟩ := bufAt_eq_some h
  rw [(windowAt_eq_some hw).1, (carried_eq_some hp hc).1, busAddress]

/-- With the windows apart, every byte of a buffer is selected by its bus address. -/
theorem bufAt_busAddress {b : Build} (hp : PackingLegal b) (ha : WindowsApart b) {id : BufId} {i : Nat}
    (hi : i < b.bufSize id) : bufAt b (busAddress b id i) = some (id, i) := by
  have hw := windowAt_base ha Nat.one_pos (busOffset_lt hp hi)
  rw [bufAt, busAddress, hw]
  simp [carried_busOffset hp hi]

/-! ### Words as bus bytes -/

/-- A word's bytes make the word again. -/
theorem wordOfLanes_lanesOfWord {b : Build} (hp : PackingLegal b) (v : Word) :
    wordOfLanes b (lanesOfWord b v) = v := by
  have h := hp.2
  have hl : b.wordLanes.length = 4 := h.length_eq
  have hnd : b.wordLanes.Nodup := h.nodup_iff.2 (by decide)
  have key : ∀ k, k < 4 → (lanesOfWord b v).getD (b.wordLanes.getD k 0) 0 = v.extractLsb' (8 * k) 8 := by
    intro k hk
    have hk' : k < b.wordLanes.length := by omega
    have hm : b.wordLanes[k] < 4 := by
      have := h.mem_iff.1 (List.getElem_mem hk')
      simp at this
      omega
    rw [List.getD_eq_getElem _ _ hk', lanesOfWord, List.getD_eq_getElem _ _ (by simpa using hm)]
    simp [hnd.idxOf_getElem]
  simp only [wordOfLanes, be32, key 0 (by decide), key 1 (by decide), key 2 (by decide), key 3 (by decide)]
  ext i hi
  simp only [BitVec.getElem_append, BitVec.getElem_extractLsb']
  split
  · simp [BitVec.getLsbD_eq_getElem hi]
  · split
    · rw [show 8 * 1 + (i - 8) = i by omega, BitVec.getLsbD_eq_getElem hi]
    · split
      · rw [show 8 * 2 + (i - 8 - 8) = i by omega, BitVec.getLsbD_eq_getElem hi]
      · rw [show 8 * 3 + (i - 8 - 8 - 8) = i by omega, BitVec.getLsbD_eq_getElem hi]

/-! ### Wide accesses -/

@[simp] theorem State.readLanes_length (s : State) (id : BufId) (off n : Nat) : (s.readLanes id off n).length = n := by
  simp [State.readLanes]

/-- What a wide read sees where a byte is carried. -/
theorem State.readLanes_get {s : State} {id : BufId} {off n j i : Nat} (hj : j < n)
    (h : carried s.build id (off + j) = some i) : (s.readLanes id off n)[j]? = some (s.readByte id i) := by
  simp [State.readLanes, hj, h]

/-- A wide store changes nothing but the input buffers. -/
theorem State.storeLanes_frame (s : State) (id : BufId) (off : Nat) (vs : List Byte) :
    s.storeLanes id off vs = { s with ibuf := (s.storeLanes id off vs).ibuf, mibuf := (s.storeLanes id off vs).mibuf } := by
  induction vs generalizing s off with
  | nil => rfl
  | cons v vs ih =>
    simp only [State.storeLanes]
    split
    · rw [ih]; cases id <;> rfl
    · exact ih s _

@[simp] theorem State.storeLanes_build (s : State) (id : BufId) (off : Nat) (vs : List Byte) :
    (s.storeLanes id off vs).build = s.build := by rw [State.storeLanes_frame]

/-- One stored byte, read back. -/
theorem State.readByte_storeByte (s : State) (id id' : BufId) (i j : Nat) (v : Byte) :
    (s.storeByte id i v).readByte id' j =
      if id' = id ∧ j = i ∧ (id = .ibuf ∨ id = .mibuf) then v else s.readByte id' j := by
  cases id <;> cases id' <;>
    simp [State.readByte, State.storeByte, State.buf, Buffer.read, Buffer.write, Memory.find_store, Buffer.unlisted] <;>
    split <;> simp_all

/-- A wide store leaves every byte it does not carry, and the output buffers, as they are. -/
theorem State.readByte_storeLanes_of_not_carried {s : State} {id id' : BufId} {off k : Nat} {vs : List Byte}
    (h : id' = id → id = .obuf ∨ id = .mobuf ∨ ∀ j, j < vs.length → carried s.build id (off + j) ≠ some k) :
    (s.storeLanes id off vs).readByte id' k = s.readByte id' k := by
  induction vs generalizing s off with
  | nil => rfl
  | cons v vs ih =>
    have h' : ∀ s' : State, s'.build = s.build → id' = id → id = .obuf ∨ id = .mobuf ∨
        ∀ j, j < vs.length → carried s'.build id (off + 1 + j) ≠ some k := by
      intro s' hs hid
      rcases h hid with h | h | h
      · exact .inl h
      · exact .inr (.inl h)
      · exact .inr (.inr fun j hj => by
          rw [hs, show off + 1 + j = off + (j + 1) by omega]; exact h (j + 1) (by simpa using hj))
    simp only [State.storeLanes]
    split
    · next i hc =>
      rw [ih (h' _ (State.storeByte_build _ _ _ _)), State.readByte_storeByte, if_neg]
      rintro ⟨hid, rfl, hin⟩
      rcases h hid with rfl | rfl | h
      · simp at hin
      · simp at hin
      · exact h 0 (by simp) hc
    · exact ih (h' s rfl)

/-- A wide store to an input buffer stores each byte where it is carried. -/
theorem State.readByte_storeLanes_of_carried {s : State} (hp : PackingLegal s.build) {id : BufId} {off j k : Nat}
    {vs : List Byte} (hj : j < vs.length) (h : carried s.build id (off + j) = some k)
    (hin : id = .ibuf ∨ id = .mibuf) : (s.storeLanes id off vs).readByte id k = vs.getD j 0 := by
  induction vs generalizing s off j with
  | nil => cases hj
  | cons v vs ih =>
    simp only [State.storeLanes]
    cases j with
    | zero =>
      rw [Nat.add_zero] at h
      simp only [h]
      rw [State.readByte_storeLanes_of_not_carried, State.readByte_storeByte, if_pos ⟨rfl, rfl, hin⟩]
      · rfl
      · refine fun _ => .inr (.inr fun j _ hc => ?_)
        rw [State.storeByte_build] at hc
        have e1 := (carried_eq_some hp h).1
        have e2 := (carried_eq_some hp hc).1
        omega
    | succ j =>
      have hs : off + (j + 1) = off + 1 + j := by omega
      rw [hs] at h
      have hj' : j < vs.length := by simpa using hj
      split
      · exact ih (s := s.storeByte id _ v) (by rw [State.storeByte_build]; exact hp) hj'
          (by rw [State.storeByte_build]; exact h)
      · exact ih hp hj' h

end Sys2Proof.Machine
end

