-- ==== Sys2Proof/Laws/Decode.lean ====
section
/-! SUPPORT. The decoder and the encoder, format by format: what the words of each format decode to, and what the
decoded instruction is written as. -/

namespace Sys2Proof

/-- A field, by the number it holds. -/
theorem field_eq {n k : Nat} (x : BitVec n) (y : BitVec k) (i) (h : x.toNat / 2^i % 2^k = y.toNat) : x.extractLsb' i k = y := by
  apply BitVec.eq_of_toNat_eq; rw [toNat_field, h]

/-- Every command byte decodes to a well-formed command that is written as that byte (rules R80 to R84). -/
theorem encode_decodeCmd : ∀ c : Byte,
    encode (decodeCmd c) = [c] ∧ (decodeCmd c).wellFormed = true ∧ (decodeCmd c).format = .cmd8 := by
  decide +kernel

/-- The command bytes with an `ALG` field (rules R82, R84). -/
theorem decodeCmd_alg : ∀ a : BitVec 6,
    (3 ≤ a.toNat → decodeCmd ((0 : BitVec 2) ++ a) = .compressUnsupported a ∧
      decodeCmd ((1 : BitVec 2) ++ a) = .decompressUnsupported a) ∧
    decodeCmd ((2 : BitVec 2) ++ a) = .smartCompress a ∧
    decodeCmd ((3 : BitVec 2) ++ a) = .listAlgorithms a := by
  decide +kernel

/-- `START` with any other bits (rules R14, R85). -/
theorem decodeCtrl_start (r : BitVec 31) : decodeCtrl (r ++ (1:BitVec 1)) = .ok (.start r) := by
  have e := toNat_concat r (1:BitVec 1)
  have h0 : (r ++ (1:BitVec 1)).extractLsb' 0 1 = 1 := field_eq _ _ _ (by rw [e]; simp)
  have h1 : (r ++ (1:BitVec 1)).extractLsb' 1 31 = r := field_eq _ _ _ (by rw [e]; have := r.isLt; simp; omega)
  unfold decodeCtrl
  rw [if_pos h0, h1]

/-- `CLEAR` with any other bits (rules R14, R85). -/
theorem decodeCtrl_clear (r : BitVec 30) : decodeCtrl (r ++ (2:BitVec 2)) = .ok (.clear r) := by
  have e := toNat_concat r (2:BitVec 2)
  have h0 : (r ++ (2:BitVec 2)).extractLsb' 0 1 = 0 := field_eq _ _ _ (by rw [e]; simp; omega)
  have h1 : (r ++ (2:BitVec 2)).extractLsb' 1 1 = 1 := field_eq _ _ _ (by rw [e]; simp; omega)
  have h2 : (r ++ (2:BitVec 2)).extractLsb' 2 30 = r := field_eq _ _ _ (by rw [e]; have := r.isLt; simp; omega)
  unfold decodeCtrl
  rw [if_neg (by rw [h0]; decide), if_pos h1, h2]

/-- A `CTRL` word that decodes is what its instruction is written as. -/
theorem encode_decodeCtrl (v : Word) (i : Instr) (h : decodeCtrl v = .ok i) : i.format = .ctrl ∧ i.wellFormed = true ∧ encode i = bytes32 v := by
  unfold decodeCtrl at h
  split at h
  · next h0 =>
    cases h
    refine ⟨rfl, rfl, congrArg bytes32 ?_⟩
    have := congrArg BitVec.toNat h0
    rw [toNat_field] at this
    apply BitVec.eq_of_toNat_eq; refine (toNat_concat _ _).trans ?_
    rw [toNat_field]; have := v.isLt; simp at *; omega
  · split at h
    · next h0 h1 =>
      cases h
      refine ⟨rfl, rfl, congrArg bytes32 ?_⟩
      have := congrArg BitVec.toNat h1
      have h0' : (v.extractLsb' 0 1).toNat ≠ 1 := fun h => h0 (BitVec.eq_of_toNat_eq h)
      rw [toNat_field] at this h0'
      apply BitVec.eq_of_toNat_eq; refine (toNat_concat _ _).trans ?_
      rw [toNat_field]; have := v.isLt; simp at *; omega
    · cases h

theorem one_le_of_ne_zero {n} {x : BitVec n} (h : x ≠ 0) : 1 ≤ x.toNat := by
  by_contra hc; exact h (BitVec.eq_of_toNat_eq (by simp; omega))

/-- Every LZ77 record decodes to a well-formed instruction that is written as its bytes (rule R92). -/
theorem encode_decodeLz (a b l c : Byte) : (decodeLz (be16 a b) l c).format = .lz32 ∧ (decodeLz (be16 a b) l c).wellFormed = true ∧ encode (decodeLz (be16 a b) l c) = [a,b,l,c] := by
  have e := bytes16_be16 a b
  unfold decodeLz
  split
  · next h =>
    have := congrArg BitVec.toNat h
    rw [be16_toNat] at this
    have ha : a = 0 := BitVec.eq_of_toNat_eq (by simp at *; omega)
    have hb : b = 0 := BitVec.eq_of_toNat_eq (by simp at *; omega)
    split
    · next h1 => subst h1 ha hb; exact ⟨rfl, rfl, rfl⟩
    · next h1 => subst ha hb; refine ⟨rfl, ?_, rfl⟩; simp [Instr.wellFormed, one_le_of_ne_zero h1]
  · next h =>
    split
    · next h1 =>
      subst h1
      split
      · next h2 => subst h2; refine ⟨rfl, ?_, ?_⟩; simp [Instr.wellFormed, one_le_of_ne_zero h]; simp [encode, e]
      · next h2 => refine ⟨rfl, ?_, ?_⟩; simp [Instr.wellFormed, one_le_of_ne_zero h, one_le_of_ne_zero h2]; simp [encode, e]
    · next h1 => refine ⟨rfl, ?_, ?_⟩; simp [Instr.wellFormed, one_le_of_ne_zero h, one_le_of_ne_zero h1]; simp [encode, e]

/-- Every node record decodes to a well-formed instruction that is written as its bytes (rules R97, R98). -/
theorem encode_decodeNode (f v : Byte) (q0 q1 q2 q3 l0 l1 r0 r1 : Byte) :
   let i := decodeNode f v (be32 q0 q1 q2 q3) (be16 l0 l1) (be16 r0 r1)
   i.format = .node80 ∧ i.wellFormed = true ∧ encode i = [f,v,q0,q1,q2,q3,l0,l1,r0,r1] := by
  simp only [decodeNode]
  split
  · next h => subst h; exact ⟨rfl, rfl, by simp [encode, bytes16_be16, bytes32_be32]⟩
  · split
    · next h => subst h; exact ⟨rfl, rfl, by simp [encode, bytes16_be16, bytes32_be32]⟩
    · next h1 h0 =>
      refine ⟨rfl, ?_, ?_⟩
      · have h1' : f.toNat ≠ 1 := fun h => h1 (BitVec.eq_of_toNat_eq h)
        have h0' : f.toNat ≠ 0 := fun h => h0 (BitVec.eq_of_toNat_eq h)
        simp only [Instr.wellFormed, decide_eq_true_eq]; omega
      · have e0 := toNat_concat (v ++ be32 q0 q1 q2 q3 ++ be16 l0 l1) (be16 r0 r1)
        have e1 := toNat_concat (v ++ be32 q0 q1 q2 q3) (be16 l0 l1)
        have e2 := toNat_concat v (be32 q0 q1 q2 q3)
        have e := e0.trans (congrArg (· * 2^16 + _) (e1.trans (congrArg (· * 2^16 + _) e2)))
        have := (be16 r0 r1).isLt
        have := (be16 l0 l1).isLt
        have := (be32 q0 q1 q2 q3).isLt
        have := v.isLt
        generalize hw : (v ++ be32 q0 q1 q2 q3 ++ be16 l0 l1 ++ be16 r0 r1) = w at e
        have w1 : w.extractLsb' 64 8 = v := field_eq _ _ _ (by rw [e]; omega)
        have w2 : w.extractLsb' 32 32 = be32 q0 q1 q2 q3 := field_eq _ _ _ (by rw [e]; omega)
        have w3 : w.extractLsb' 16 16 = be16 l0 l1 := field_eq _ _ _ (by rw [e]; omega)
        have w4 : w.extractLsb' 0 16 = be16 r0 r1 := field_eq _ _ _ (by rw [e]; omega)
        show [f, BitVec.extractLsb' 64 8 w] ++ bytes32 (w.extractLsb' 32 32) ++ bytes16 (w.extractLsb' 16 16) ++ bytes16 (w.extractLsb' 0 16) = _
        rw [w1, w2, w3, w4, bytes32_be32, bytes16_be16, bytes16_be16]; rfl

end Sys2Proof
end

