-- ==== Sys2Proof/Laws/Loops.lean ====
section
/-! SUPPORT. The loops of Machine/Ops.lean: one spec lemma each, and their induction principles. -/

namespace Sys2Proof.Machine

open Sys2Proof

/-- The output of `emitLoop`, as a function on the output alone. -/
def emitOut (next : List Byte → Byte) : Nat → List Byte → List Byte
  | 0, out => out
  | n + 1, out => emitOut next n (out ++ [next out])

/-- `emitLoop` changes the output and the copy counter, nothing else. -/
theorem emitLoop_eq (next : List Byte → Byte) (n : Nat) (w : Work) :
    emitLoop next n w = { w with out := emitOut next n w.out, copy := w.copy - n } := by
  induction n generalizing w with
  | zero => simp [emitLoop, emitOut]
  | succ n ih => rw [emitLoop, ih, emitOut]; simp only [Work.mk.injEq, true_and, and_true]; omega

/-- Emitting one byte repeatedly appends copies of it. -/
theorem emitOut_const (v : Byte) (n : Nat) (out : List Byte) :
    emitOut (fun _ => v) n out = out ++ List.replicate n v := by
  induction n generalizing out with
  | zero => simp [emitOut]
  | succ n ih => rw [emitOut, ih]; simp [List.replicate_succ]

@[simp] theorem emitOut_length (next : List Byte → Byte) (n : Nat) (out : List Byte) :
    (emitOut next n out).length = out.length + n := by
  induction n generalizing out with
  | zero => simp [emitOut]
  | succ n ih => rw [emitOut, ih]; simp; omega

theorem runLoop_of_done {done : Work → Bool} {body : Work → Work} {w : Work} (h : done w = true)
    (n : Nat) : runLoop done body n w = w := by
  cases n <;> simp [runLoop, h]

theorem runLoop_succ_of_not_done {done : Work → Bool} {body : Work → Work} {w : Work}
    (h : done w = false) (n : Nat) : runLoop done body (n + 1) w = runLoop done body n (body w) := by
  simp [runLoop, h]

/-- What every iteration keeps, the loop keeps. -/
theorem runLoop_keeps {done : Work → Bool} {body : Work → Work} {P : Work → Prop}
    (hb : ∀ w, P w → done w = false → P (body w)) {w : Work} (hw : P w) (n : Nat) :
    P (runLoop done body n w) := by
  induction n generalizing w with
  | zero => exact hw
  | succ n ih =>
    cases h : done w
    · rw [runLoop_succ_of_not_done h]; exact ih (hb w hw h)
    · rwa [runLoop_of_done h]

/-- A loop whose iterations lower a measure is at its end after as many iterations as the measure says. -/
theorem runLoop_ends {done : Work → Bool} {body : Work → Work} {P : Work → Prop} (μ : Work → Nat)
    (hb : ∀ w, P w → done w = false → P (body w) ∧ μ (body w) < μ w) {w : Work} (hw : P w) {n : Nat}
    (hn : μ w ≤ n) : done (runLoop done body n w) = true := by
  induction n generalizing w with
  | zero =>
    cases h : done w
    · have := (hb w hw h).2; omega
    · exact h
  | succ n ih =>
    cases h : done w
    · rw [runLoop_succ_of_not_done h]
      have := hb w hw h
      exact ih this.1 (by omega)
    · rwa [runLoop_of_done h]

theorem tryLoop_of_done {done : Work → Bool} {body : Work → Except ErrKind Work} {w : Work}
    (h : done w = true) (n : Nat) : tryLoop done body n w = .ok w := by
  cases n <;> simp [tryLoop, h]

theorem tryLoop_succ_ok {done : Work → Bool} {body : Work → Except ErrKind Work} {w w' : Work}
    (h : done w = false) (hb : body w = .ok w') (n : Nat) :
    tryLoop done body (n + 1) w = tryLoop done body n w' := by
  simp [tryLoop, h, hb]

theorem tryLoop_succ_error {done : Work → Bool} {body : Work → Except ErrKind Work} {w : Work} {k : ErrKind}
    (h : done w = false) (hb : body w = .error k) (n : Nat) :
    tryLoop done body (n + 1) w = .error k := by
  simp [tryLoop, h, hb]

/-- What every iteration that does not raise keeps, a loop that does not raise keeps. -/
theorem tryLoop_keeps {done : Work → Bool} {body : Work → Except ErrKind Work} {P : Work → Prop}
    (hb : ∀ w w', P w → done w = false → body w = .ok w' → P w') {w w' : Work} (hw : P w) {n : Nat}
    (h : tryLoop done body n w = .ok w') : P w' := by
  induction n generalizing w with
  | zero => simp only [tryLoop, Except.ok.injEq] at h; exact h ▸ hw
  | succ n ih =>
    cases hd : done w
    · cases hbw : body w with
      | ok v => rw [tryLoop_succ_ok hd hbw] at h; exact ih (hb w v hw hd hbw) h
      | error k => rw [tryLoop_succ_error hd hbw] at h; cases h
    · rw [tryLoop_of_done hd] at h; cases h; exact hw

/-- A loop that does not raise and whose iterations lower a measure is at its end. -/
theorem tryLoop_ends {done : Work → Bool} {body : Work → Except ErrKind Work} (μ : Work → Nat)
    (hb : ∀ w w', done w = false → body w = .ok w' → μ w' < μ w) {w w' : Work} {n : Nat}
    (hn : μ w ≤ n) (h : tryLoop done body n w = .ok w')
    (h0 : ∀ w, μ w = 0 → done w = true) : done w' = true := by
  induction n generalizing w with
  | zero => simp only [tryLoop, Except.ok.injEq] at h; exact h ▸ h0 w (by omega)
  | succ n ih =>
    cases hd : done w
    · cases hbw : body w with
      | ok v => rw [tryLoop_succ_ok hd hbw] at h; exact ih (by have := hb w v hd hbw; omega) h
      | error k => rw [tryLoop_succ_error hd hbw] at h; cases h
    · rw [tryLoop_of_done hd] at h; cases h; exact hd

end Sys2Proof.Machine
end

