-- ==== Sys2Proof/Laws/Ops.lean ====
section
/-! SUPPORT. What the shared operations of Machine/Ops.lean can do: the engine's guard, a record's step, the two
forms of the completion step, and the strobes. -/

namespace Sys2Proof.Machine

open Sys2Proof

theorem whenBusy_of_busy {f : State → State} {s : State} (h : s.state = .busy) :
    whenBusy f s = .next (f s) := if_pos h

theorem whenBusy_of_not_busy {f : State → State} {s : State} (h : s.state ≠ .busy) :
    whenBusy f s = .next s := if_neg h

theorem whenBusy_cases {f : State → State} {s t : State} (h : whenBusy f s = .next t) :
    (s.state = .busy ∧ t = f s) ∨ (s.state ≠ .busy ∧ t = s) := by
  by_cases hb : s.state = .busy
  · rw [whenBusy_of_busy hb] at h; exact .inl ⟨hb, by cases h; rfl⟩
  · rw [whenBusy_of_not_busy hb] at h; exact .inr ⟨hb, by cases h; rfl⟩

theorem recordStep_ok {ph : Phase} {op : Work → Except ErrKind Work} {s : State} {w : Work}
    (hb : s.state = .busy) (hp : s.work.phase = ph) (h : op s.work = .ok w) :
    recordStep ph op s = .next (s.withWork w) := by
  simp [recordStep, hb, hp, h]

theorem recordStep_error {ph : Phase} {op : Work → Except ErrKind Work} {s : State} {k : ErrKind}
    (hb : s.state = .busy) (hp : s.work.phase = ph) (h : op s.work = .error k) :
    recordStep ph op s = .next (s.raise k) := by
  simp [recordStep, hb, hp, h]

theorem recordStep_idle {ph : Phase} {op : Work → Except ErrKind Work} {s : State}
    (h : ¬ (s.state = .busy ∧ s.work.phase = ph)) : recordStep ph op s = .next s := if_neg h

/-- All a record can do. -/
theorem recordStep_cases {ph : Phase} {op : Work → Except ErrKind Work} {s t : State}
    (h : recordStep ph op s = .next t) :
    (s.state = .busy ∧ s.work.phase = ph ∧ ∃ w, op s.work = .ok w ∧ t = s.withWork w) ∨
      (s.state = .busy ∧ s.work.phase = ph ∧ ∃ k, op s.work = .error k ∧ t = s.raise k) ∨
      (¬ (s.state = .busy ∧ s.work.phase = ph) ∧ t = s) := by
  by_cases hb : s.state = .busy ∧ s.work.phase = ph
  · cases hop : op s.work with
    | ok w =>
      rw [recordStep_ok hb.1 hb.2 hop] at h
      exact .inl ⟨hb.1, hb.2, w, rfl, by cases h; rfl⟩
    | error k =>
      rw [recordStep_error hb.1 hb.2 hop] at h
      exact .inr (.inl ⟨hb.1, hb.2, k, rfl, by cases h; rfl⟩)
  · rw [recordStep_idle hb] at h; exact .inr (.inr ⟨hb, by cases h; rfl⟩)

theorem SameInputs.refl (s : State) : SameInputs s s :=
  ⟨rfl, rfl, rfl, rfl, rfl, fun _ => rfl, fun _ => rfl, rfl, rfl, rfl⟩

theorem sameInputs_raise (s : State) (k : ErrKind) : SameInputs s (s.raise k) :=
  ⟨rfl, rfl, rfl, rfl, rfl, fun _ => rfl, fun _ => rfl, rfl, rfl, rfl⟩

theorem sameInputs_finish (s : State) (r : Results) (out tree : List Byte) :
    SameInputs s (s.finish r out tree) :=
  ⟨rfl, rfl, rfl, rfl, rfl, fun _ => rfl, fun _ => rfl, rfl, rfl, rfl⟩

theorem sameInputs_withWork (s : State) (w : Work) : SameInputs s (s.withWork w) :=
  ⟨rfl, rfl, rfl, rfl, rfl, fun _ => rfl, fun _ => rfl, rfl, rfl, rfl⟩

theorem sameInputs_startCommand (s : State) : SameInputs s s.startCommand :=
  ⟨rfl, rfl, rfl, rfl, rfl, fun _ => rfl, fun _ => rfl, rfl, rfl, rfl⟩

theorem sameInputs_clearResult (s : State) : SameInputs s s.clearResult :=
  ⟨rfl, rfl, rfl, rfl, rfl, fun _ => rfl, fun _ => rfl, rfl, rfl, rfl⟩

theorem sameOutputs_withWork (s : State) (w : Work) : SameOutputs s (s.withWork w) :=
  ⟨rfl, rfl, rfl, rfl, fun _ => rfl, fun _ => rfl, rfl⟩

theorem allZero_zero : Results.AllZero .zero := ⟨rfl, rfl, rfl, rfl, rfl, rfl, rfl, rfl, rfl, rfl, rfl⟩

/-- `raise` is the error form of rule R286. -/
theorem errorForm_raise (s : State) (k : ErrKind) : ErrorForm s (s.raise k) k := by
  refine ⟨?_, ?_, ?_, ?_, ?_, ?_, ?_, ?_, ?_, ?_, ?_, ?_, fun _ => rfl, fun _ => rfl, rfl, rfl, rfl,
    sameInputs_raise s k⟩ <;> cases k <;> first | rfl | exact fun _ => rfl | exact fun h => by cases h | exact fun h => absurd rfl h

/-- `finish` with bytes alone is the success form of rule R246. -/
theorem doneForm_finish (s : State) (out : List Byte) :
    DoneForm s (s.finish { Results.zero with outLen := BitVec.ofNat 32 out.length } out []) out :=
  { res := rfl, obuf := Buffer.holds_holding _ _, mobuf := fun _ => rfl, err := rfl, state := rfl,
    latched := rfl, same := sameInputs_finish _ _ _ _ }

end Sys2Proof.Machine
end

