-- ==== Sys2Proof/Laws/Exec.lean ====
section
/-! SUPPORT. One equation per instruction, in terms of the shared operations, and all an instruction can do. -/

namespace Sys2Proof.Machine

open Sys2Proof

/-! ### One equation per instruction -/

theorem exec_compress (a : Alg) (s : State) : exec (compressInstr a) s = whenBusy (State.compress a) s := by
  cases a <;> rfl

theorem exec_decompress (a : Alg) (s : State) :
    exec (decompressInstr a) s = whenBusy (State.decompress a) s := by
  cases a <;> rfl

theorem exec_compressUnsupported (alg : BitVec 6) (s : State) :
    exec (.compressUnsupported alg) s = whenBusy (fun s => s.raise .unsupportedAlgorithm) s := rfl

theorem exec_decompressUnsupported (alg : BitVec 6) (s : State) :
    exec (.decompressUnsupported alg) s = whenBusy (fun s => s.raise .unsupportedAlgorithm) s := rfl

theorem exec_smartCompress (alg : BitVec 6) (s : State) :
    exec (.smartCompress alg) s = whenBusy State.smart s := rfl

theorem exec_listAlgorithms (alg : BitVec 6) (s : State) :
    exec (.listAlgorithms alg) s = whenBusy State.list s := rfl

theorem exec_start (rest : BitVec 31) (s : State) :
    exec (.start rest) s = if s.state = .busy then .next s else .next s.startCommand := rfl

theorem exec_clear (rest : BitVec 30) (s : State) :
    exec (.clear rest) s =
      if s.state = .done ∨ s.state = .error then .next s.clearResult else .next s := rfl

theorem exec_rleRun (value count : Byte) (s : State) :
    exec (.rleRun value count) s = recordStep .decRle (rleRunOp s.build.outMax value count) s := rfl

theorem exec_lzLit (lit : Byte) (s : State) :
    exec (.lzLit lit) s = recordStep .decLz (lzLitOp s.build.outMax lit) s := rfl

theorem exec_lzCopylit (off : BitVec 16) (len lit : Byte) (s : State) :
    exec (.lzCopylit off len lit) s =
      recordStep .decLz
        (lzMatchOp s.build.outMax off.toNat len.toNat (some lit) (bytes16 off ++ [len, lit])) s := rfl

theorem exec_lzCopyend (off : BitVec 16) (len : Byte) (s : State) :
    exec (.lzCopyend off len) s =
      recordStep .decLz
        (lzMatchOp s.build.outMax off.toNat len.toNat none (bytes16 off ++ [0, len])) s := rfl

theorem exec_lzRsvdZerolen (off : BitVec 16) (s : State) :
    exec (.lzRsvdZerolen off) s = recordStep .decLz (fun _ => .error .malformedStream) s := rfl

theorem exec_lzRsvdZerooff (len b3 : Byte) (s : State) :
    exec (.lzRsvdZerooff len b3) s = recordStep .decLz (fun _ => .error .malformedStream) s := rfl

theorem exec_htLeaf (value : Byte) (freq : Word) (left right : BitVec 16) (s : State) :
    exec (.htLeaf value freq left right) s = recordStep .tree (htLeafOp value freq left right) s := rfl

theorem exec_htNode (value : Byte) (freq : Word) (left right : BitVec 16) (s : State) :
    exec (.htNode value freq left right) s = recordStep .tree (htNodeOp freq left right) s := rfl

theorem exec_htRsvd (flags : Byte) (rest : BitVec 72) (s : State) :
    exec (.htRsvd flags rest) s = recordStep .tree (fun _ => .error .malformedStream) s := rfl

/-! ### The completion step has two forms -/

/-- The completion step (rule R23): the error form or the success form. -/
def Completes (s t : State) : Prop :=
  (∃ k, t = s.raise k) ∨ ∃ res out tree, t = s.finish res out tree

theorem completes_endCompress (s : State) (c : Candidate) : Completes s (s.endCompress c) := by
  unfold State.endCompress
  split
  · exact .inl ⟨_, rfl⟩
  · exact .inr ⟨_, _, _, rfl⟩

theorem completes_endSmart (s : State) (cs : List Candidate) : Completes s (s.endSmart cs) := by
  unfold State.endSmart
  split
  · exact .inl ⟨_, rfl⟩
  · exact .inr ⟨_, _, _, rfl⟩

theorem completes_endDecompress (s : State) (r : Except ErrKind (List Byte)) :
    Completes s (s.endDecompress r) := by
  cases r with
  | error k => exact .inl ⟨k, rfl⟩
  | ok out => exact .inr ⟨_, _, _, rfl⟩

theorem completes_compress (a : Alg) (s : State) : Completes s (s.compress a) := by
  unfold State.compress
  split
  · exact .inl ⟨_, rfl⟩
  · exact completes_endCompress _ _

theorem completes_decompress (a : Alg) (s : State) : Completes s (s.decompress a) := by
  unfold State.decompress
  split
  · exact .inl ⟨_, rfl⟩
  · exact completes_endDecompress _ _

theorem completes_smart (s : State) : Completes s s.smart := by
  unfold State.smart
  split
  · exact .inl ⟨_, rfl⟩
  · exact completes_endSmart _ _

theorem completes_list (s : State) : Completes s s.list := .inr ⟨_, _, _, rfl⟩

/-! ### All an instruction can do -/

/-- A command is the engine's guard around one completion step. -/
theorem exec_command {i : Instr} (h : i.format = .cmd8) :
    ∃ f, (∀ s, exec i s = whenBusy f s) ∧ ∀ s, Completes s (f s) := by
  cases i <;> cases h
  · exact ⟨_, fun s => exec_compress .rle s, completes_compress .rle⟩
  · exact ⟨_, fun s => exec_compress .huffman s, completes_compress .huffman⟩
  · exact ⟨_, fun s => exec_compress .lz77 s, completes_compress .lz77⟩
  · exact ⟨_, exec_compressUnsupported _, fun s => .inl ⟨_, rfl⟩⟩
  · exact ⟨_, fun s => exec_decompress .rle s, completes_decompress .rle⟩
  · exact ⟨_, fun s => exec_decompress .huffman s, completes_decompress .huffman⟩
  · exact ⟨_, fun s => exec_decompress .lz77 s, completes_decompress .lz77⟩
  · exact ⟨_, exec_decompressUnsupported _, fun s => .inl ⟨_, rfl⟩⟩
  · exact ⟨_, exec_smartCompress _, completes_smart⟩
  · exact ⟨_, exec_listAlgorithms _, completes_list⟩

/-- A record is an operation on the structures of the decoder of its format. -/
theorem exec_record {i : Instr} (h : i.format ≠ .cmd8) (h' : i.format ≠ .ctrl) :
    ∃ op : Nat → Work → Except ErrKind Work, ∀ s, exec i s =
      recordStep (match i.format with
        | .rle16 => .decRle
        | .lz32 => .decLz
        | _ => .tree) (op s.build.outMax) s := by
  cases i <;> first | exact absurd rfl h | exact absurd rfl h' | skip
  · exact ⟨fun m => rleRunOp m _ _, exec_rleRun _ _⟩
  · exact ⟨fun m => lzLitOp m _, exec_lzLit _⟩
  · exact ⟨fun m => lzMatchOp m _ _ _ _, exec_lzCopylit _ _ _⟩
  · exact ⟨fun m => lzMatchOp m _ _ _ _, exec_lzCopyend _ _⟩
  · exact ⟨fun _ _ => .error .malformedStream, exec_lzRsvdZerolen _⟩
  · exact ⟨fun _ _ => .error .malformedStream, exec_lzRsvdZerooff _ _⟩
  · exact ⟨fun _ => htLeafOp _ _ _ _, exec_htLeaf _ _ _ _⟩
  · exact ⟨fun _ => htNodeOp _ _ _, exec_htNode _ _ _ _⟩
  · exact ⟨fun _ _ => .error .malformedStream, exec_htRsvd _ _⟩

/-- All an instruction can do: nothing, complete the command, change the running structures, take `START`, take
`CLEAR`. -/
theorem exec_cases {i : Instr} {s t : State} (h : exec i s = .next t) :
    t = s ∨ (s.state = .busy ∧ Completes s t) ∨ (s.state = .busy ∧ ∃ w, t = s.withWork w) ∨
      (s.state ≠ .busy ∧ t = s.startCommand) ∨
      ((s.state = .done ∨ s.state = .error) ∧ t = s.clearResult) := by
  by_cases hc : i.format = .cmd8
  · obtain ⟨f, hf, hcomp⟩ := exec_command hc
    rw [hf] at h
    rcases whenBusy_cases h with ⟨hb, rfl⟩ | ⟨-, rfl⟩
    · exact .inr (.inl ⟨hb, hcomp s⟩)
    · exact .inl rfl
  · by_cases hs : i.format = .ctrl
    · cases i <;> cases hs
      · rw [exec_start] at h
        split at h
        · cases h; exact .inl rfl
        · next hb => cases h; exact .inr (.inr (.inr (.inl ⟨hb, rfl⟩)))
      · rw [exec_clear] at h
        split at h
        · next hd => cases h; exact .inr (.inr (.inr (.inr ⟨hd, rfl⟩)))
        · cases h; exact .inl rfl
    · obtain ⟨op, hop⟩ := exec_record hc hs
      rw [hop] at h
      rcases recordStep_cases h with ⟨hb, -, w, -, rfl⟩ | ⟨hb, -, k, -, rfl⟩ | ⟨-, rfl⟩
      · exact .inr (.inr (.inl ⟨hb, w, rfl⟩))
      · exact .inr (.inl ⟨hb, .inl ⟨k, rfl⟩⟩)
      · exact .inl rfl

end Sys2Proof.Machine
end

