-- ==== Sys2Proof/Laws/Rle.lean ====
section
/-! SUPPORT. The RLE unit: what a record does, what the encoder's iteration covers, and the decoder as one
function on the stream. -/

namespace Sys2Proof.Machine

open Sys2Proof

/-- What a stream of RLE records stands for (rule R127). -/
def expandRle : List Byte → List Byte
  | v :: c :: r => List.replicate c.toNat v ++ expandRle r
  | _ => []

theorem expandRle_append {a : List Byte} (h : a.length % 2 = 0) (b : List Byte) :
    expandRle (a ++ b) = expandRle a ++ expandRle b := by
  induction a using expandRle.induct with
  | case1 v c r ih =>
    simp only [List.cons_append, expandRle, List.append_assoc, List.append_cancel_left_eq]
    exact ih (by simp only [List.length_cons] at h; omega)
  | case2 a ha =>
    match a, ha with
    | [], _ => simp [expandRle]
    | [x], _ => simp at h
    | x :: y :: r, ha => exact absurd rfl (ha x y r)

/-- `RLE.RUN` in one equation (rule R127). -/
theorem rleRunOp_eq (outMax : Nat) (value count : Byte) (w : Work) :
    rleRunOp outMax value count w =
      if outMax < w.olen + count.toNat then .error .capacityExceeded
      else .ok { w with
        record := [value, count], copy := 0, pos := w.pos + 2,
        out := w.out ++ List.replicate count.toNat value } := by
  unfold rleRunOp
  split
  · rfl
  · simp [emitLoop_eq, emitOut_const, Config.rleRec]

theorem byteOf_toNat {c : Nat} (h : c < 256) : (byteOf c).toNat = c := by
  simp [byteOf, Nat.mod_eq_of_lt h]

theorem runLength_le (v : Byte) (k : Nat) (bs : List Byte) :
    runLength v k bs ≤ k ∧ runLength v k bs ≤ bs.length := by
  induction k generalizing bs with
  | zero => simp [runLength]
  | succ k ih =>
    cases bs with
    | nil => simp [runLength]
    | cons b bs =>
      simp only [runLength]
      split
      · have := ih bs; simp only [List.length_cons]; omega
      · simp

/-- The counted bytes are all `v`. -/
theorem take_runLength (v : Byte) (k : Nat) (bs : List Byte) :
    bs.take (runLength v k bs) = List.replicate (runLength v k bs) v := by
  induction k generalizing bs with
  | zero => simp [runLength]
  | succ k ih =>
    cases bs with
    | nil => simp [runLength]
    | cons b bs =>
      simp only [runLength]
      split
      · next h => simp [List.replicate_succ, ih bs, h]
      · simp

/-- The count ends at the limit, at the end of the input, or at a different byte (rule R121). -/
theorem runLength_maximal (v : Byte) (k : Nat) (bs : List Byte) :
    runLength v k bs = k ∨ bs[runLength v k bs]? ≠ some v := by
  induction k generalizing bs with
  | zero => simp [runLength]
  | succ k ih =>
    cases bs with
    | nil => simp [runLength]
    | cons b bs =>
      simp only [runLength]
      split
      · rcases ih bs with h | h
        · left; omega
        · right; simpa using h
      · next h => right; simpa using h

/-- One iteration of the encoder: a record of 1 to 255 equal bytes, the longest there is (rules R121,
R122). -/
theorem rleEncBody_spec (inp : List Byte) (w : Work) (h : w.pos < inp.length) :
    ∃ v c, 1 ≤ c ∧ c ≤ 255 ∧ w.pos + c ≤ inp.length ∧
      (inp.drop w.pos).take c = List.replicate c v ∧ (c = 255 ∨ inp[w.pos + c]? ≠ some v) ∧
      rleEncBody inp w =
        { w with runValue := v, runCount := c, pos := w.pos + c, out := w.out ++ [v, byteOf c] } := by
  cases hd : inp.drop w.pos with
  | nil => have := congrArg List.length hd; simp at this; omega
  | cons v rest =>
    have hlen := congrArg List.length hd
    simp only [List.length_drop, List.length_cons] at hlen
    have hle := runLength_le v (Config.rleMaxRun - 1) rest
    refine ⟨v, 1 + runLength v (Config.rleMaxRun - 1) rest, by omega, ?_, by omega, ?_, ?_, ?_⟩
    · have := hle.1; simp only [Config.rleMaxRun] at this ⊢; omega
    · rw [Nat.add_comm, List.take_succ_cons, take_runLength, List.replicate_succ]
    · rcases runLength_maximal v (Config.rleMaxRun - 1) rest with h1 | h1
      · left; rw [h1]; rfl
      · right
        have : inp[w.pos + (1 + runLength v (Config.rleMaxRun - 1) rest)]? =
            (inp.drop w.pos)[1 + runLength v (Config.rleMaxRun - 1) rest]? := by
          rw [List.getElem?_drop]
        rw [this, hd, Nat.add_comm 1, List.getElem?_cons_succ]
        exact h1
    · simp only [rleEncBody, hd]

theorem inputDone_iff (inp : List Byte) (w : Work) : inputDone inp w = true ↔ inp.length ≤ w.pos := by
  simp [inputDone]

theorem inputDone_false (inp : List Byte) (w : Work) : inputDone inp w = false ↔ w.pos < inp.length := by
  simp [inputDone]

/-- What the encoder keeps: the records so far stand for the input so far. -/
def RleEncoded (inp : List Byte) (w : Work) : Prop :=
  w.pos ≤ inp.length ∧ w.out.length % 2 = 0 ∧ expandRle w.out = inp.take w.pos

theorem rleEncBody_keeps (inp : List Byte) (w : Work) (h : RleEncoded inp w)
    (hd : inputDone inp w = false) : RleEncoded inp (rleEncBody inp w) := by
  obtain ⟨v, c, h1, h2, h3, h4, -, h5⟩ := rleEncBody_spec inp w ((inputDone_false _ _).1 hd)
  obtain ⟨-, heven, hexp⟩ := h
  rw [h5]
  refine ⟨h3, by simp; omega, ?_⟩
  simp only
  rw [expandRle_append heven, hexp, List.take_add, h4]
  simp [expandRle, byteOf_toNat (show c < 256 by omega)]

/-- The encoder's loop ends with every input byte covered (rule R122). -/
theorem rleEncode_ends (inp : List Byte) (w : Work) : inputDone inp (rleEncode inp w) = true := by
  refine runLoop_ends (P := fun _ => True) (fun w => inp.length - w.pos) ?_ trivial (Nat.sub_le _ _)
  intro w _ hd
  have hp := (inputDone_false _ _).1 hd
  obtain ⟨v, c, h1, -, -, -, -, h5⟩ := rleEncBody_spec inp w hp
  rw [h5]
  exact ⟨trivial, by simp only; omega⟩

/-- The decoder's loop from any cursor, as one function of the rest of the stream. -/
theorem rleDecode_from (outMax : Nat) (inp : List Byte) (n : Nat) (w : Work)
    (heven : (inp.length - w.pos) % 2 = 0) (hn : inp.length - w.pos ≤ 2 * n)
    (hle : w.out.length ≤ outMax) :
    (tryLoop (inputDone inp) (rleDecBody outMax inp) n w).map Work.out =
      if w.out.length + (expandRle (inp.drop w.pos)).length ≤ outMax then
        .ok (w.out ++ expandRle (inp.drop w.pos))
      else .error .capacityExceeded := by
  induction n generalizing w with
  | zero =>
    have : inp.drop w.pos = [] := List.drop_eq_nil_of_le (by omega)
    simp [tryLoop, this, expandRle, hle, Except.map]
  | succ n ih =>
    by_cases hd : inp.length ≤ w.pos
    · have : inp.drop w.pos = [] := List.drop_eq_nil_of_le hd
      rw [tryLoop_of_done (by simpa [inputDone] using hd)]
      simp [this, expandRle, hle, Except.map]
    · have hp : w.pos + 1 < inp.length := by omega
      have hdf : inputDone inp w = false := by simp [inputDone]; omega
      have hdrop : inp.drop w.pos = at0 inp w.pos :: at0 inp (w.pos + 1) :: inp.drop (w.pos + 2) := by
        rw [List.drop_eq_getElem_cons (by omega), List.drop_eq_getElem_cons hp]
        simp [at0, List.getD_eq_getElem?_getD, List.getElem?_eq_getElem (show w.pos < inp.length by omega),
          List.getElem?_eq_getElem hp]
      rw [hdrop, expandRle]
      have hbody : rleDecBody outMax inp w = _ := rleRunOp_eq _ _ _ _
      by_cases hc : outMax < w.olen + (at0 inp (w.pos + 1)).toNat
      · rw [if_pos hc] at hbody
        rw [tryLoop_succ_error hdf hbody]
        simp only [Work.olen] at hc
        simp only [Except.map, List.length_append, List.length_replicate]
        rw [if_neg (by omega)]
      · rw [if_neg hc] at hbody
        rw [tryLoop_succ_ok hdf hbody, ih _ (by simp only; omega) (by simp only; omega)
          (by simp only [Work.olen] at hc; simp only [List.length_append, List.length_replicate]; omega)]
        simp only [List.length_append, List.length_replicate, List.append_assoc, Nat.add_assoc]

/-- `rle_decompress` in one equation (rule R126). -/
theorem rleDecompress_eq (outMax : Nat) (inp : List Byte) :
    rleDecompress outMax inp =
      if inp.length % 2 ≠ 0 then .error .malformedStream
      else if (expandRle inp).length ≤ outMax then .ok (expandRle inp)
      else .error .capacityExceeded := by
  by_cases h : inp.length % 2 ≠ 0
  · rw [rleDecompress, if_pos (show inp.length % Config.rleRec ≠ 0 from h), if_pos h]
  · have := rleDecode_from outMax inp (inp.length / 2) Work.init (by simp; omega) (by simp; omega)
      (by simp)
    rw [rleDecompress, if_neg (show ¬ inp.length % Config.rleRec ≠ 0 from h), if_neg h]
    simpa [rleDecode, Config.rleRec] using this

end Sys2Proof.Machine
end

