-- ==== Sys2Proof/Laws/Huffman.lean ====
section
/-! SUPPORT. The Huffman unit: what the code table holds, what the bit packer writes, what a run of the bit walk
reads, and what the tree loader makes of a serialised tree. -/

namespace Sys2Proof.Machine

open Sys2Proof

/-! ### Trees -/

/-- The bits lead from the node to a leaf of the value, through internal nodes only. -/
inductive LeafAt (arena : List Node) : Nat → List Bool → Byte → Prop where
  | leaf {i : Nat} {v : Byte} {f : Nat} (h : arena[i]? = some (.leaf v f)) : LeafAt arena i [] v
  | node {i f l r : Nat} {b : Bool} {bs : List Bool} {v : Byte} (h : arena[i]? = some (.node f l r))
      (hc : LeafAt arena (if b then r else l) bs v) : LeafAt arena i (b :: bs) v

theorem childOf_node {arena : List Node} {i f l r : Nat} (h : arena[i]? = some (.node f l r)) (b : Bool) :
    childOf arena i b = if b then r else l := by simp [childOf, h]

/-- Following the bits ends at the leaf. -/
theorem LeafAt.descend {arena : List Node} {i : Nat} {bs : List Bool} {v : Byte} (h : LeafAt arena i bs v) :
    ∃ f, arena[descend arena i bs]? = some (.leaf v f) := by
  induction h with
  | leaf h => exact ⟨_, h⟩
  | node h _ ih => rwa [Machine.descend, childOf_node h]

/-- No code word of a tree is a prefix of another (rule R152). -/
theorem LeafAt.prefix_eq {arena : List Node} {i : Nat} {bs bs' : List Bool} {v v' : Byte}
    (h : LeafAt arena i bs v) (h' : LeafAt arena i bs' v') (hp : bs <+: bs') : v = v' := by
  induction h generalizing bs' with
  | leaf h =>
    cases h' with
    | leaf h' => rw [h] at h'; cases h'; rfl
    | node h' _ => rw [h] at h'; cases h'
  | @node i f l r b bs v h _ ih =>
    cases h' with
    | leaf h' => rw [h] at h'; cases h'
    | node h' hc' =>
      rw [h] at h'
      cases h'
      rw [List.cons_prefix_cons] at hp
      obtain ⟨rfl, hp⟩ := hp
      exact ih hc' hp

/-- A leaf of a subtree of `i` that hangs below `j` is a leaf below `j`. -/
theorem LeafAt.of_child {arena : List Node} {p f l r : Nat} (h : arena[p]? = some (.node f l r))
    {i : Nat} (hi : i = l ∨ i = r) {bs : List Bool} {v : Byte} (hv : LeafAt arena i bs v) :
    ∃ b, LeafAt arena p (b :: bs) v := by
  rcases hi with rfl | rfl
  · exact ⟨false, .node h (by simpa using hv)⟩
  · exact ⟨true, .node h (by simpa using hv)⟩

/-- Two arenas of the same shape have the same code words. -/
theorem LeafAt.transport {arena arena' : List Node}
    (hl : ∀ {i : Nat} {v : Byte} {f : Nat}, arena[i]? = some (.leaf v f) →
      ∃ f', arena'[i]? = some (.leaf v f'))
    (hn : ∀ {i f l r : Nat}, arena[i]? = some (.node f l r) → ∃ f', arena'[i]? = some (.node f' l r))
    {i : Nat} {bs : List Bool} {v : Byte} (h : LeafAt arena i bs v) : LeafAt arena' i bs v := by
  induction h with
  | leaf h => obtain ⟨f', h'⟩ := hl h; exact .leaf h'
  | node h _ ih => obtain ⟨f', h'⟩ := hn h; exact .node h' ih

theorem assignCodes_length (arena : List Node) (k i : Nat) (p : List Bool) (code : List (List Bool)) :
    (assignCodes arena k i p code).length = code.length := by
  induction k generalizing i p code with
  | zero => rfl
  | succ k ih =>
    rw [assignCodes]
    split
    · rfl
    · simp
    · rw [ih, ih]

/-- What code assignment writes (rule R150): below the node, the path; elsewhere, nothing. -/
theorem assignCodes_spec {arena : List Node} (ht : TreeOk arena) (k i : Nat) (hk : i < k) (p : List Bool)
    (code : List (List Bool)) (hc : code.length = 256) (v : Byte) :
    ((∃ bs, LeafAt arena i bs v) →
      ∃ bs, LeafAt arena i bs v ∧ (assignCodes arena k i p code).getD v.toNat [] = p ++ bs) ∧
    ((¬ ∃ bs, LeafAt arena i bs v) →
      (assignCodes arena k i p code).getD v.toNat [] = code.getD v.toNat []) := by
  have hv := v.isLt
  induction k generalizing i p code with
  | zero => omega
  | succ k ih =>
    rw [assignCodes]
    cases hi : arena[i]? with
    | none =>
      refine ⟨?_, fun _ => rfl⟩
      rintro ⟨bs, hb⟩
      cases hb with
      | leaf h => rw [hi] at h; cases h
      | node h _ => rw [hi] at h; cases h
    | some nd =>
      cases nd with
      | leaf u f =>
        have hu := u.isLt
        constructor
        · rintro ⟨bs, hb⟩
          cases hb with
          | leaf h =>
            rw [hi] at h
            cases h
            exact ⟨[], .leaf hi, by
              rw [List.getD_eq_getElem?_getD, List.getElem?_set_self (by omega)]; simp⟩
          | node h _ => rw [hi] at h; cases h
        · intro hn
          have : u.toNat ≠ v.toNat := by
            intro h
            exact hn ⟨[], by rw [← BitVec.eq_of_toNat_eq h]; exact .leaf hi⟩
          simp [List.getD, this]
      | node f l r =>
        obtain ⟨hl, hr⟩ := ht i f l r hi
        have L := ih l (by omega) (p ++ [false]) code hc
        have R := ih r (by omega) (p ++ [true]) (assignCodes arena k l (p ++ [false]) code)
          (by rw [assignCodes_length, hc])
        by_cases hvr : ∃ bs, LeafAt arena r bs v
        · obtain ⟨bs, hb, e⟩ := R.1 hvr
          have : LeafAt arena i (true :: bs) v := .node hi (by simpa using hb)
          exact ⟨fun _ => ⟨_, this, by simp only [e]; simp⟩, fun hn => absurd ⟨_, this⟩ hn⟩
        · have e := R.2 hvr
          by_cases hvl : ∃ bs, LeafAt arena l bs v
          · obtain ⟨bs, hb, e'⟩ := L.1 hvl
            have : LeafAt arena i (false :: bs) v := .node hi (by simpa using hb)
            exact ⟨fun _ => ⟨_, this, by simp only [e, e']; simp⟩, fun hn => absurd ⟨_, this⟩ hn⟩
          · refine ⟨?_, fun _ => by simp only [e, L.2 hvl]⟩
            rintro ⟨bs, hb⟩
            cases hb with
            | leaf h => rw [hi] at h; cases h
            | @node _ _ _ _ b bs _ h hc' =>
              rw [hi] at h
              cases h
              cases b
              · exact absurd ⟨bs, by simpa using hc'⟩ hvl
              · exact absurd ⟨bs, by simpa using hc'⟩ hvr

/-! ### The bit packer -/

/-- The packer has taken exactly the bits `bs` since it began (rule R31). -/
structure Packed (bs : List Bool) (w : Work) : Prop where
  fill : w.fill = bs.length % 8
  bytes : w.out.length = bs.length / 8
  written : ∀ i, i < 8 * w.out.length → bs[i]? = some (payloadBit w.out i)
  held : ∀ j, j < w.fill → bs[8 * w.out.length + j]? = some (w.acc.getLsbD (7 - j))
  free : ∀ j, w.fill ≤ j → j < 8 → w.acc.getLsbD (7 - j) = false

theorem payloadBit_append_left {a : List Byte} (b : List Byte) {i : Nat} (h : i < 8 * a.length) :
    payloadBit (a ++ b) i = payloadBit a i := by
  unfold payloadBit at0
  rw [List.getD_append _ _ _ _ (by omega)]

theorem payloadBit_append_right (a b : List Byte) (i : Nat) :
    payloadBit (a ++ b) (8 * a.length + i) = payloadBit b i := by
  unfold payloadBit at0
  rw [List.getD_append_right _ _ _ _ (by omega)]
  congr 2 <;> omega

theorem getLsbD_or_bit (acc : Byte) (b : Bool) (k j : Nat) (hk : k < 8) (hj : j < 8) :
    (acc ||| (if b then (1 : Byte) <<< (7 - k) else 0)).getLsbD (7 - j) =
      (acc.getLsbD (7 - j) || (b && decide (j = k))) := by
  cases b
  · simp
  · have : ∀ k : Fin 8, ∀ j : Fin 8,
        ((1 : Byte) <<< (7 - k.val)).getLsbD (7 - j.val) = decide (j.val = k.val) := by decide
    rw [BitVec.getLsbD_or, if_pos rfl, this ⟨k, hk⟩ ⟨j, hj⟩, Bool.true_and]

/-- One more bit packed (rule R153). -/
theorem Packed.push {bs : List Bool} {w : Work} (h : Packed bs w) (b : Bool) :
    Packed (bs ++ [b]) (pushBit w b) := by
  obtain ⟨h1, h2, h3, h4, h5⟩ := h
  have hf : w.fill < 8 := by omega
  have hlen : bs.length = 8 * w.out.length + w.fill := by omega
  have key : ∀ j, j ≤ w.fill → (bs ++ [b])[8 * w.out.length + j]? =
      some ((w.acc ||| (if b then (1 : Byte) <<< (7 - w.fill) else 0)).getLsbD (7 - j)) := by
    intro j hj
    rw [getLsbD_or_bit _ _ _ _ hf (by omega)]
    by_cases hjf : j = w.fill
    · subst hjf
      rw [h5 _ le_rfl hf, ← hlen]
      simp
    · rw [List.getElem?_append_left (by omega), h4 j (by omega)]
      simp [hjf]
  unfold pushBit
  simp only
  split
  · next h7 =>
    constructor
    · simp; omega
    · simp; omega
    · intro i hi
      simp only [List.length_append, List.length_cons, List.length_nil] at hi ⊢
      by_cases hi' : i < 8 * w.out.length
      · rw [payloadBit_append_left _ hi', ← h3 i hi', List.getElem?_append_left (by omega)]
      · obtain ⟨j, rfl⟩ : ∃ j, i = 8 * w.out.length + j := ⟨i - 8 * w.out.length, by omega⟩
        rw [payloadBit_append_right, key j (by omega), payloadBit,
          show j / 8 = 0 from by omega, show j % 8 = j from by omega]
        rfl
    · intro j hj; simp at hj
    · intro j _ _; simp
  · next h7 =>
    constructor
    · simp; omega
    · simp; omega
    · intro i hi
      rw [List.getElem?_append_left (by simp only at hi; omega)]
      exact h3 i hi
    · intro j hj; exact key j (by simp only at hj; omega)
    · intro j hj hj8
      simp only at hj ⊢
      rw [getLsbD_or_bit _ _ _ _ hf hj8, h5 j (by omega) hj8]
      simp; omega

theorem Packed.pushAll {bs : List Bool} {w : Work} (h : Packed bs w) (more : List Bool) :
    Packed (bs ++ more) (more.foldl pushBit w) := by
  induction more generalizing bs w with
  | nil => simpa using h
  | cons b more ih => have := ih (h.push b); simpa using this

/-- The bits of the padded payload (rule R154). -/
theorem Packed.flush {bs : List Bool} {w : Work} (h : Packed bs w) :
    (flushBits w).out.length = (bs.length + 7) / 8 ∧
    (∀ i, i < bs.length → bs[i]? = some (payloadBit (flushBits w).out i)) ∧
    (∀ i, bs.length ≤ i → i < 8 * (flushBits w).out.length → payloadBit (flushBits w).out i = false) := by
  obtain ⟨h1, h2, h3, h4, h5⟩ := h
  unfold flushBits
  split
  · refine ⟨by omega, fun i hi => h3 i (by omega), fun i _ _ => by omega⟩
  · refine ⟨by simp; omega, fun i hi => ?_, fun i hi hi' => ?_⟩
    · by_cases hi' : i < 8 * w.out.length
      · rw [payloadBit_append_left _ hi', h3 i hi']
      · obtain ⟨j, rfl⟩ : ∃ j, i = 8 * w.out.length + j := ⟨i - 8 * w.out.length, by omega⟩
        rw [payloadBit_append_right, h4 j (by omega), payloadBit,
          show j / 8 = 0 from by omega, show j % 8 = j from by omega]
        rfl
    · simp only [List.length_append, List.length_cons, List.length_nil] at hi'
      obtain ⟨j, rfl⟩ : ∃ j, i = 8 * w.out.length + j := ⟨i - 8 * w.out.length, by omega⟩
      rw [payloadBit_append_right, payloadBit,
        show j / 8 = 0 from by omega, show j % 8 = j from by omega]
      exact h5 j (by omega) (by omega)

/-! ### The bit walk -/

theorem walkDone_false {size : Nat} {w : Work} (h : w.out.length < size) : walkDone size w = false :=
  decide_eq_false (by unfold Work.olen; omega)

/-- From an internal root, the bits of a code word bring its byte out and the walk back to the root (rules
R166, R169). -/
theorem walk_code {inp : List Byte} {size : Nat} {bs : List Bool} {v : Byte} (w : Work)
    (hl : LeafAt w.arena w.cur bs v) (hne : bs ≠ [])
    (hroot : ∃ f l r : Nat, w.arena[rootOf w.arena]? = some (.node f l r))
    (hbits : ∀ i, i < bs.length → bs[i]? = some (payloadBit inp (w.bitpos + i)))
    (hin : w.bitpos + bs.length ≤ 8 * inp.length) (hout : w.out.length < size) (n : Nat) :
    tryLoop (walkDone size) (walkBody inp) (n + bs.length) w =
      tryLoop (walkDone size) (walkBody inp) n
        { w with bitpos := w.bitpos + bs.length, out := w.out ++ [v], cur := rootOf w.arena } := by
  obtain ⟨rf, rl, rr, hr⟩ := hroot
  induction bs generalizing w with
  | nil => exact absurd rfl hne
  | cons b bs ih =>
    have hb := hbits 0 (by simp)
    simp only [List.getElem?_cons_zero, Nat.add_zero, Option.some.injEq] at hb
    simp only [List.length_cons] at hin
    rw [List.length_cons, ← Nat.add_assoc]
    cases hl with
    | node hcur hc =>
      have hch := childOf_node hcur b
      cases hc with
      | leaf h =>
        rw [tryLoop_succ_ok (walkDone_false hout)
          (w' := { w with bitpos := w.bitpos + 1, out := w.out ++ [v], cur := rootOf w.arena })]
        · simp
        · rw [walkBody, if_neg (by omega)]
          simp only [hr, ← hb, hch, h]
      | @node _ f' l' r' b' bs' _ h hc' =>
        rw [tryLoop_succ_ok (walkDone_false hout)
          (w' := { w with bitpos := w.bitpos + 1, cur := if b then _ else _ })]
        · rw [ih { w with bitpos := w.bitpos + 1, cur := if b then _ else _ } (.node h hc') (by simp)]
          · simp [Nat.add_assoc, Nat.add_comm 1]
          · intro i hi
            have := hbits (i + 1) (by simpa using hi)
            simpa [Nat.add_assoc, Nat.add_comm 1] using this
          · simpa [Nat.add_assoc, Nat.add_comm 1] using hin
          · exact hout
          · exact hr
        · rw [walkBody, if_neg (by omega)]
          simp only [hr, ← hb, hch, h]

/-- At a root that is a leaf, each payload bit brings the leaf's byte out (rule R167). -/
theorem walkBody_leafRoot {inp : List Byte} {w : Work} {v : Byte} {f : Nat}
    (hr : w.arena[rootOf w.arena]? = some (.leaf v f)) :
    walkBody inp w =
      if 8 * inp.length ≤ w.bitpos then .error .malformedStream
      else .ok { w with bitpos := w.bitpos + 1, out := w.out ++ [v] } := by
  unfold walkBody
  split
  · rfl
  · simp only [hr]

/-! ### The tree loader -/

@[simp] theorem Node.bytes_length (nd : Node) : nd.bytes.length = 10 := by cases nd <;> rfl

@[simp] theorem serialise_length (tree : List Node) : (serialise tree).length = 10 * tree.length := by
  induction tree with
  | nil => rfl
  | cons nd tree ih => simp only [serialise, List.flatMap_cons] at ih ⊢; simp [ih]; omega

/-- Byte `c` of record `i` of a serialised tree (rule R97). -/
theorem at0_serialise {tree : List Node} {i : Nat} {nd : Node} (h : tree[i]? = some nd) {c : Nat}
    (hc : c < 10) : at0 (serialise tree) (10 * i + c) = at0 nd.bytes c := by
  induction tree generalizing i with
  | nil => simp at h
  | cons a tree ih =>
    have e : serialise (a :: tree) = a.bytes ++ serialise tree := rfl
    unfold at0 at ih ⊢
    cases i with
    | zero =>
      simp only [List.getElem?_cons_zero, Option.some.injEq] at h
      rw [e, h, Nat.mul_zero, Nat.zero_add, List.getD_append _ _ _ _ (by rw [Node.bytes_length]; exact hc)]
    | succ i =>
      rw [List.getElem?_cons_succ] at h
      rw [e, List.getD_append_right _ _ _ _ (by rw [Node.bytes_length]; omega), Node.bytes_length,
        show 10 * (i + 1) + c - 10 = 10 * i + c from by omega, ih h]

/-- A node as a record carries it: the frequency modulo 2^32 (rule R97). -/
def Node.stored : Node → Node
  | .leaf v f => .leaf v (f % 2 ^ 32)
  | .node f l r => .node (f % 2 ^ 32) l r

/-- Loading one record of a serialised tree (rules R163, R164). -/
theorem loadBody_serialise {tree : List Node} (ht : TreeOk tree) (hlen : tree.length ≤ 65535) {w : Work}
    {nd : Node} (h : tree[w.arena.length]? = some nd) :
    loadBody (serialise tree) w = .ok { w with arena := w.arena ++ [nd.stored] } := by
  have hi : w.arena.length < tree.length := (List.getElem?_eq_some_iff.1 h).1
  unfold loadBody
  have e0 := at0_serialise h (c := 0) (by omega)
  rw [Nat.add_zero] at e0
  simp only [Config.nodeRec]
  rw [e0, at0_serialise h (by omega), at0_serialise h (by omega), at0_serialise h (by omega),
    at0_serialise h (by omega), at0_serialise h (by omega), at0_serialise h (by omega),
    at0_serialise h (by omega), at0_serialise h (by omega), at0_serialise h (by omega)]
  cases nd with
  | leaf v f =>
    show htRecordOp 1 v (be32 _ _ _ _) (be16 _ _) (be16 _ _) w = _
    rw [show be32 (at0 (Node.leaf v f).bytes 2) (at0 (Node.leaf v f).bytes 3) (at0 (Node.leaf v f).bytes 4) (at0 (Node.leaf v f).bytes 5) =
        BitVec.ofNat 32 f from be32_of_bytes _,
      show be16 (at0 (Node.leaf v f).bytes 6) (at0 (Node.leaf v f).bytes 7) = 0xFFFF from
        be16_of_bytes _,
      show be16 (at0 (Node.leaf v f).bytes 8) (at0 (Node.leaf v f).bytes 9) = 0xFFFF from
        be16_of_bytes _]
    simp [htRecordOp, htLeafOp, Node.stored]
  | node f l r =>
    obtain ⟨hl, hr⟩ := ht _ _ _ _ h
    show htRecordOp 0 0 (be32 _ _ _ _) (be16 _ _) (be16 _ _) w = _
    rw [show be32 (at0 (Node.node f l r).bytes 2) (at0 (Node.node f l r).bytes 3) (at0 (Node.node f l r).bytes 4) (at0 (Node.node f l r).bytes 5) =
        BitVec.ofNat 32 f from be32_of_bytes _,
      show be16 (at0 (Node.node f l r).bytes 6) (at0 (Node.node f l r).bytes 7) = BitVec.ofNat 16 l from
        be16_of_bytes _,
      show be16 (at0 (Node.node f l r).bytes 8) (at0 (Node.node f l r).bytes 9) = BitVec.ofNat 16 r from
        be16_of_bytes _]
    have hl' : (BitVec.ofNat 16 l).toNat = l := by simp; omega
    have hr' : (BitVec.ofNat 16 r).toNat = r := by simp; omega
    rw [htRecordOp, if_neg (by decide), if_pos rfl, htNodeOp, hl', hr', if_pos ⟨hl, hr⟩]
    simp [Node.stored]

/-- Loading a serialised tree gives it back (rule R158). -/
theorem loadTree_serialise {tree : List Node} (ht : TreeOk tree) (hlen : tree.length ≤ 65535) (w : Work)
    (hw : w.arena = []) :
    loadTree tree.length (serialise tree) w = .ok { w with arena := tree.map Node.stored } := by
  have key : ∀ (n : Nat) (w : Work), w.arena = (tree.take w.arena.length).map Node.stored →
      w.arena.length + n = tree.length →
      tryLoop (loadDone tree.length) (loadBody (serialise tree)) n w =
        .ok { w with arena := tree.map Node.stored } := by
    intro n
    induction n with
    | zero =>
      intro w h1 h2
      rw [List.take_of_length_le (by omega)] at h1
      simp [tryLoop, ← h1]
    | succ n ih =>
      intro w h1 h2
      have hi : w.arena.length < tree.length := by omega
      rw [tryLoop_succ_ok (by simp [loadDone]; omega)
        (loadBody_serialise ht hlen (List.getElem?_eq_getElem hi)), ih]
      · simp only [List.length_append, List.length_cons, List.length_nil]
        rw [List.take_add_one, List.map_append, ← h1]
        simp [List.getElem?_eq_getElem hi]
      · simp; omega
  exact key tree.length w (by simp [hw]) (by simp [hw])

end Sys2Proof.Machine
end

