-- ==== Sys2Proof/Laws/Inv.lean ====
section
/-! SUPPORT. The invariant across the named operations: the two forms of the completion step, the strobes, the
host's accesses, and a change of the working structures. -/

namespace Sys2Proof.Machine

open Sys2Proof

theorem Buffer.inside_unspecified (g size : Nat) : (Buffer.unspecified g).Inside size := by
  intro i h; cases h

theorem Buffer.inside_holding {g : Nat} {bs : List Byte} {size : Nat} (h : bs.length ≤ size) :
    (Buffer.holding g bs).Inside size := by
  intro i hi
  rw [Buffer.holds_holding g bs i] at hi
  simp at hi
  omega

theorem Buffer.isSome_holding (g : Nat) (bs : List Byte) (i : Nat) :
    ((Buffer.holding g bs).cells.find i).isSome ↔ i < bs.length := by
  rw [Buffer.holds_holding g bs i]; simp

/-- The structures of a command not yet dispatched are in order. -/
theorem Work.ok_init (b : Build) (n o m : Nat) : Work.init.Ok b n o m where
  cands := by intro c h; cases h
  inMax := fun h => absurd rfl h
  pos := Nat.zero_le _
  fill := Nat.zero_le _
  freq := List.length_replicate
  counted := by intro h; cases h
  merging := by intro h; cases h
  packing := by intro h; cases h
  records := by rintro (h | h) <;> cases h
  rleAligned := by intro h; cases h
  lzAligned := by intro h; cases h
  loading := by intro h; cases h
  walking := by intro h; cases h

theorem ratio_errorResults (k : ErrKind) : (errorResults k).rRatio.toNat ≤ 10000 := by
  cases k <;> exact Nat.zero_le _

theorem flags_errorResults (k : ErrKind) :
    ¬ (infoFallback (errorResults k).rInfo = true ∧ infoEffective (errorResults k).rInfo = true) := by
  cases k <;> decide

theorem State.Inv.withAgenda {s : State} (h : s.Inv) (q : List Event) : (s.withAgenda q).Inv :=
  ⟨h.legal, fun id => by have := h.wf id; cases id <;> exact this,
    fun id => by have := h.inside id; cases id <;> exact this, h.err, h.noResult, h.errorResult, h.outBytes,
    h.treeBytes, h.ratio, h.flags, h.unspecified, h.atRest, h.running⟩

theorem State.Inv.returned {s : State} (h : s.Inv) (v : Word) : (s.returned v).Inv :=
  ⟨h.legal, fun id => by have := h.wf id; cases id <;> exact this,
    fun id => by have := h.inside id; cases id <;> exact this, h.err, h.noResult, h.errorResult, h.outBytes,
    h.treeBytes, h.ratio, h.flags, h.unspecified, h.atRest, h.running⟩

theorem State.Inv.returnedAny {s : State} (h : s.Inv) : s.returnedAny.Inv :=
  ⟨h.legal, fun id => by have := h.wf id; cases id <;> exact this,
    fun id => by have := h.inside id; cases id <;> exact this, h.err, h.noResult, h.errorResult, h.outBytes,
    h.treeBytes, h.ratio, h.flags, h.unspecified, h.atRest, h.running⟩

theorem State.Inv.writeStored {s : State} (h : s.Inv) (hb : s.state ≠ .busy) (r : Reg) (v : Word) :
    (s.writeStored r v).Inv := by
  cases r <;> first
  | exact h
  | exact ⟨h.legal, fun id => by have := h.wf id; cases id <;> exact this,
      fun id => by have := h.inside id; cases id <;> exact this, h.err, h.noResult, h.errorResult,
      h.outBytes, h.treeBytes, h.ratio, h.flags, h.unspecified, h.atRest, fun h => absurd h hb⟩

theorem Buffer.inside_write {b : Buffer} {size i : Nat} (h : b.Inside size) (hi : i < size) (v : Byte) :
    (b.write i v).Inside size := by
  intro j hj
  simp only [Buffer.write, Memory.find_store] at hj
  split at hj
  · omega
  · exact h j hj

theorem State.Inv.storeByte {s : State} (h : s.Inv) (hb : s.state ≠ .busy) (id : BufId) (i : Nat) (v : Byte)
    (hi : i < s.build.bufSize id) : (s.storeByte id i v).Inv := by
  have w1 := Memory.wf_store (h.wf id) i v
  have i1 := Buffer.inside_write (h.inside id) hi v
  cases id <;> first
  | exact h
  | refine ⟨h.legal, fun id => ?_, fun id => ?_, h.err, h.noResult, h.errorResult,
      h.outBytes, h.treeBytes, h.ratio, h.flags, h.unspecified, h.atRest, fun h => absurd h hb⟩
    · have := h.wf id; cases id <;> first | exact w1 | exact this
    · have := h.inside id; cases id <;> first | exact i1 | exact this

/-- A wide store keeps the invariant: every place it stores to carries a byte of the buffer. -/
theorem State.Inv.storeLanes {s : State} (h : s.Inv) (hb : s.state ≠ .busy) (id : BufId) (off : Nat) (vs : List Byte) :
    (s.storeLanes id off vs).Inv := by
  induction vs generalizing s off with
  | nil => exact h
  | cons v vs ih =>
    simp only [State.storeLanes]
    split
    · next hc => exact ih (h.storeByte hb id _ v (carried_lt hc)) (by rw [State.storeByte_state]; exact hb) _
    · exact ih h hb _

/-- The values host reads return, and the draws, are no part of the invariant. -/
theorem State.Inv.withReads {s : State} (h : s.Inv) (v : Word) (vs : List Byte) (k : Nat) :
    State.Inv { s with readData := v, busData := vs, draws := k } :=
  ⟨h.legal, fun id => by have := h.wf id; cases id <;> exact this,
    fun id => by have := h.inside id; cases id <;> exact this, h.err, h.noResult, h.errorResult, h.outBytes,
    h.treeBytes, h.ratio, h.flags, h.unspecified, h.atRest, h.running⟩

theorem State.Inv.readRegister {s : State} (h : s.Inv) (addr : Nat) : (s.readRegister addr).Inv := by
  unfold State.readRegister
  split
  · exact h.returned _
  · split
    · exact h.returnedAny
    · exact h.returned _

theorem State.Inv.withWork {s : State} (h : s.Inv) (hb : s.state = .busy) {w : Work}
    (hw : w.Ok s.build s.n s.origSize.toNat s.metaLen.toNat) : (s.withWork w).Inv :=
  ⟨h.legal, fun id => by have := h.wf id; cases id <;> exact this,
    fun id => by have := h.inside id; cases id <;> exact this, h.err, h.noResult, h.errorResult, h.outBytes,
    h.treeBytes, h.ratio, h.flags, h.unspecified, fun h => absurd hb h, fun _ => hw⟩

theorem State.Inv.raise {s : State} (h : s.Inv) (k : ErrKind) : (s.raise k).Inv where
  legal := h.legal
  wf := fun id => by
    have := h.wf id
    cases id <;> first | exact this | exact List.Pairwise.nil
  inside := fun id => by
    have := h.inside id
    cases id <;> first | exact this | exact Buffer.inside_unspecified _ _
  err := ⟨fun h => (nomatch h), fun h => absurd rfl h⟩
  noResult := by rintro (h | h) <;> cases h
  errorResult := fun k' h => by cases h; rfl
  outBytes := fun h => by cases h
  treeBytes := fun h => by cases h
  ratio := ratio_errorResults k
  flags := flags_errorResults k
  unspecified := fun _ => ⟨fun _ => rfl, fun _ => rfl⟩
  atRest := fun _ => rfl
  running := fun h => by cases h

theorem State.Inv.finish {s : State} (h : s.Inv) {res : Results} {out tree : List Byte}
    (hout : out.length ≤ s.build.outMax) (hol : res.outLen.toNat = out.length)
    (htree : tree.length ≤ Config.nodeMax * Config.nodeRec)
    (hml : Config.nodeRec * res.rMetaLen.toNat = tree.length) (hr : res.rRatio.toNat ≤ 10000)
    (hf : ¬ (infoFallback res.rInfo = true ∧ infoEffective res.rInfo = true)) :
    (s.finish res out tree).Inv where
  legal := h.legal
  wf := fun id => by
    have := h.wf id
    cases id <;> first | exact this | exact Memory.wf_ofBytes _ _
  inside := fun id => by
    have := h.inside id
    cases id <;> first | exact this | exact Buffer.inside_holding hout | exact Buffer.inside_holding htree
  err := ⟨fun _ h => (nomatch h), fun _ => rfl⟩
  noResult := by rintro (h | h) <;> cases h
  errorResult := fun k' h => by cases h
  outBytes := fun _ i => by
    show _ ↔ i < res.outLen.toNat
    rw [hol]; exact Buffer.isSome_holding _ _ _
  treeBytes := fun _ i => by
    show _ ↔ i < Config.nodeRec * res.rMetaLen.toNat
    rw [hml]; exact Buffer.isSome_holding _ _ _
  ratio := hr
  flags := hf
  unspecified := fun h => absurd rfl h
  atRest := fun _ => rfl
  running := fun h => by cases h

theorem State.Inv.startCommand {s : State} (h : s.Inv) : s.startCommand.Inv where
  legal := h.legal
  wf := fun id => by
    have := h.wf id
    cases id <;> first | exact this | exact List.Pairwise.nil
  inside := fun id => by
    have := h.inside id
    cases id <;> first | exact this | exact Buffer.inside_unspecified _ _
  err := ⟨fun _ h => (nomatch h), fun _ => rfl⟩
  noResult := fun _ => rfl
  errorResult := fun k' h => by cases h
  outBytes := fun h => by cases h
  treeBytes := fun h => by cases h
  ratio := Nat.zero_le _
  flags := by show ¬ (infoFallback 0 = true ∧ infoEffective 0 = true); decide
  unspecified := fun _ => ⟨fun _ => rfl, fun _ => rfl⟩
  atRest := fun h => absurd rfl h
  running := fun _ => Work.ok_init _ _ _ _

theorem State.Inv.clearResult {s : State} (h : s.Inv) (hb : s.state ≠ .busy) : s.clearResult.Inv where
  legal := h.legal
  wf := fun id => by
    have := h.wf id
    cases id <;> first | exact this | exact List.Pairwise.nil
  inside := fun id => by
    have := h.inside id
    cases id <;> first | exact this | exact Buffer.inside_unspecified _ _
  err := ⟨fun _ h => (nomatch h), fun _ => rfl⟩
  noResult := fun _ => rfl
  errorResult := fun k' h => by cases h
  outBytes := fun h => by cases h
  treeBytes := fun h => by cases h
  ratio := Nat.zero_le _
  flags := by show ¬ (infoFallback 0 = true ∧ infoEffective 0 = true); decide
  unspecified := fun _ => ⟨fun _ => rfl, fun _ => rfl⟩
  atRest := fun _ => h.atRest hb
  running := fun h => by cases h

theorem State.Inv.platformReset {s : State} (h : s.Inv) : s.platformReset.Inv where
  legal := h.legal
  wf := fun id => by cases id <;> exact List.Pairwise.nil
  inside := fun id => by cases id <;> exact Buffer.inside_unspecified _ _
  err := ⟨fun _ h => (nomatch h), fun _ => rfl⟩
  noResult := fun _ => rfl
  errorResult := fun k' h => by cases h
  outBytes := fun h => by cases h
  treeBytes := fun h => by cases h
  ratio := Nat.zero_le _
  flags := by show ¬ (infoFallback 0 = true ∧ infoEffective 0 = true); decide
  unspecified := fun _ => ⟨fun _ => rfl, fun _ => rfl⟩
  atRest := fun _ => rfl
  running := fun h => by cases h

/-- `endDecompress` keeps the invariant when the bytes fit in `OUT_MAX`. -/
theorem State.Inv.endDecompress {s : State} (h : s.Inv) {r : Except ErrKind (List Byte)}
    (hr : ∀ out, r = .ok out → out.length ≤ s.build.outMax) : (s.endDecompress r).Inv := by
  cases r with
  | error k => exact h.raise k
  | ok out =>
    have h1 := hr out rfl
    have h2 := h.legal.2.2.2.1.2
    refine h.finish h1 ?_ (Nat.zero_le _) rfl (Nat.zero_le _) ?_
    · rw [BitVec.toNat_ofNat, Nat.mod_eq_of_lt (by omega)]
    · show ¬ (infoFallback 0 = true ∧ infoEffective 0 = true); decide

end Sys2Proof.Machine
end

