-- ==== Sys2Proof/Laws/Lz77.lean ====
section
/-! SUPPORT. The LZ77 unit: what a record does, what the search finds, the encoder's output as tokens, and the
decoder's iteration on a token. -/

namespace Sys2Proof.Machine

open Sys2Proof

/-! ### Records -/

/-- The byte a copy takes next (rule R213). -/
def copyByte (off : Nat) (out : List Byte) : Byte := at0 out (out.length - off)

/-- A match record in one equation (rules R213 to R216). -/
theorem lzMatchOp_eq (outMax off len : Nat) (lit : Option Byte) (rec : List Byte) (w : Work) :
    lzMatchOp outMax off len lit rec w =
      if w.olen < off then .error .malformedStream
      else if outMax < w.olen + len + lit.toList.length then .error .capacityExceeded
      else .ok { w with
        record := rec, copy := 0, pos := w.pos + 4,
        out := emitOut (copyByte off) len w.out ++ lit.toList } := by
  unfold lzMatchOp
  simp only [emitLoop_eq, Config.lzRec, Nat.sub_self]
  rfl

/-- A pure literal in one equation (rules R210, R212). -/
theorem lzLitOp_eq (outMax : Nat) (lit : Byte) (w : Work) :
    lzLitOp outMax lit w =
      if outMax < w.olen + 1 then .error .capacityExceeded
      else .ok { w with
        record := [0, 0, 0, lit], copy := 0, pos := w.pos + 4, out := w.out ++ [lit] } := rfl

theorem emitOut_succ (next : List Byte → Byte) (n : Nat) (out : List Byte) :
    emitOut next (n + 1) out = emitOut next n out ++ [next (emitOut next n out)] := by
  induction n generalizing out with
  | zero => rfl
  | succ n ih => rw [emitOut, ih]; rfl

/-! ### Search -/

/-- What a common prefix is: equal so far, and the next bytes differ or the limit or an end is reached. -/
theorem commonPrefix_spec (k : Nat) (as bs : List Byte) :
    commonPrefix k as bs ≤ k ∧ commonPrefix k as bs ≤ as.length ∧ commonPrefix k as bs ≤ bs.length ∧
      (∀ j, j < commonPrefix k as bs → as[j]? = bs[j]?) ∧
      (commonPrefix k as bs < k → commonPrefix k as bs < as.length → commonPrefix k as bs < bs.length →
        as[commonPrefix k as bs]? ≠ bs[commonPrefix k as bs]?) := by
  induction k generalizing as bs with
  | zero => simp [commonPrefix]
  | succ k ih =>
    match as, bs with
    | [], _ => simp [commonPrefix]
    | _ :: _, [] => simp [commonPrefix]
    | a :: as, b :: bs =>
      simp only [commonPrefix]
      split
      · next h =>
        subst h
        obtain ⟨h1, h2, h3, h4, h5⟩ := ih as bs
        refine ⟨by omega, by simpa using h2, by simpa using h3, ?_, ?_⟩
        · intro j hj
          cases j with
          | zero => rfl
          | succ j => simpa using h4 j (by omega)
        · intro g1 g2 g3
          simpa using h5 (by omega) (by simpa using g2) (by simpa using g3)
      · next h => simpa using h

/-- The match a cell finds lies inside the lookahead and repeats the input (rules R194, R195). -/
theorem matchLength_spec (l : Nat) (inp : List Byte) (pos d : Nat) :
    matchLength l inp pos d ≤ l ∧ matchLength l inp pos d ≤ inp.length - pos ∧
      ∀ j, j < matchLength l inp pos d → inp[pos - d + j]? = inp[pos + j]? := by
  obtain ⟨h1, -, -, h4, -⟩ := commonPrefix_spec (maxLen l inp pos) (inp.drop (pos - d)) (inp.drop pos)
  refine ⟨h1.trans (Nat.min_le_left _ _), h1.trans (Nat.min_le_right _ _), fun j hj => ?_⟩
  simpa using h4 j hj

/-- A match found by the search comes from an offset in the window. -/
theorem search_found (w l : Nat) (inp : List Byte) (pos : Nat) (h : 0 < (search w l inp pos).1) :
    1 ≤ (search w l inp pos).2 ∧ (search w l inp pos).2 ≤ min w pos ∧
      (search w l inp pos).1 = matchLength l inp pos (search w l inp pos).2 := by
  have key : ∀ (ds : List Nat) (b : Nat × Nat),
      (∀ d ∈ ds, 1 ≤ d ∧ d ≤ min w pos) →
      (b.1 = 0 ∨ (1 ≤ b.2 ∧ b.2 ≤ min w pos ∧ b.1 = matchLength l inp pos b.2)) →
      (ds.foldl (takeLonger l inp pos) b).1 = 0 ∨
        (1 ≤ (ds.foldl (takeLonger l inp pos) b).2 ∧ (ds.foldl (takeLonger l inp pos) b).2 ≤ min w pos ∧
          (ds.foldl (takeLonger l inp pos) b).1 =
            matchLength l inp pos (ds.foldl (takeLonger l inp pos) b).2) := by
    intro ds
    induction ds with
    | nil => intro b _ hb; exact hb
    | cons d ds ih =>
      intro b hds hb
      have hd := hds d (by simp)
      refine ih _ (fun x hx => hds x (by simp [hx])) ?_
      unfold takeLonger
      split
      · exact .inr ⟨hd.1, hd.2, rfl⟩
      · exact hb
  rcases key ((List.range (min w pos)).map (· + 1)) (0, 0)
    (by intro d hd; simp only [List.mem_map, List.mem_range] at hd; omega) (.inl rfl) with h0 | h1
  · exact absurd h0 (Nat.ne_of_gt h)
  · exact h1

/-! ### The encoder as tokens -/

/-- The tokens the encoder writes from a position on (rule R191). -/
def lzTokens (b : Build) (inp : List Byte) : Nat → Nat → List Instr
  | 0, _ => []
  | n + 1, pos =>
    if inp.length ≤ pos then []
    else
      let m := search b.w b.l inp pos
      lzToken inp pos m.1 m.2 :: lzTokens b inp n (pos + lzAdvance inp pos m.1)

theorem lzEncode_out (b : Build) (inp : List Byte) (n : Nat) (w : Work) :
    (runLoop (inputDone inp) (lzEncBody b inp) n w).out =
      w.out ++ (lzTokens b inp n w.pos).flatMap encode := by
  induction n generalizing w with
  | zero => simp [runLoop, lzTokens]
  | succ n ih =>
    by_cases h : inp.length ≤ w.pos
    · rw [runLoop_of_done ((inputDone_iff _ _).2 h), lzTokens, if_pos h]; simp
    · rw [runLoop_succ_of_not_done ((inputDone_false _ _).2 (by omega)), ih, lzTokens, if_neg h]
      simp [lzEncBody]

/-- The encoder's output is its tokens' bytes. -/
theorem lzCompress_eq (b : Build) (inp : List Byte) :
    lzCompress b inp = (lzTokens b inp inp.length 0).flatMap encode := by
  rw [lzCompress, lzEncode, lzEncode_out]; simp

/-! ### The decoder on a token -/

/-- One iteration on the bytes that stand at the cursor. -/
theorem lzDecBody_of_drop {outMax : Nat} {inp : List Byte} {w : Work} {o0 o1 l b : Byte} {rest : List Byte}
    (h : inp.drop w.pos = o0 :: o1 :: l :: b :: rest) :
    lzDecBody outMax inp w = lzRecordOp outMax (be16 o0 o1) l b w := by
  have g : ∀ i, at0 inp (w.pos + i) = at0 (inp.drop w.pos) i := by
    intro i; simp [at0, List.getD_eq_getElem?_getD]
  have g0 := g 0
  rw [Nat.add_zero] at g0
  rw [lzDecBody, g0, g 1, g 2, g 3, h]
  rfl

end Sys2Proof.Machine
end

