-- ==== Sys2Proof/Laws/PerInstr.lean ====
section
/-! SUPPORT. Statements made per instruction. Family `EncodeLength`: an instruction is written in as many bytes as
its format has (rules R80, R85, R86, R91, R97). -/

namespace Sys2Proof.Laws.EncodeLength

open Sys2Proof

/-- The instruction is written in its format's length. -/
def Statement (i : Instr) : Prop := (encode i).length = i.format.size

theorem compressRle : Statement (.compressRle) := rfl
theorem compressHuffman : Statement (.compressHuffman) := rfl
theorem compressLz77 : Statement (.compressLz77) := rfl
theorem compressUnsupported (alg : BitVec 6) : Statement (.compressUnsupported alg) := rfl
theorem decompressRle : Statement (.decompressRle) := rfl
theorem decompressHuffman : Statement (.decompressHuffman) := rfl
theorem decompressLz77 : Statement (.decompressLz77) := rfl
theorem decompressUnsupported (alg : BitVec 6) : Statement (.decompressUnsupported alg) := rfl
theorem smartCompress (alg : BitVec 6) : Statement (.smartCompress alg) := rfl
theorem listAlgorithms (alg : BitVec 6) : Statement (.listAlgorithms alg) := rfl
theorem start (rest : BitVec 31) : Statement (.start rest) := rfl
theorem clear (rest : BitVec 30) : Statement (.clear rest) := rfl
theorem rleRun (value count : Byte) : Statement (.rleRun value count) := rfl
theorem lzLit (lit : Byte) : Statement (.lzLit lit) := rfl
theorem lzCopylit (off : BitVec 16) (len lit : Byte) : Statement (.lzCopylit off len lit) := rfl
theorem lzCopyend (off : BitVec 16) (len : Byte) : Statement (.lzCopyend off len) := rfl
theorem lzRsvdZerolen (off : BitVec 16) : Statement (.lzRsvdZerolen off) := rfl
theorem lzRsvdZerooff (len b3 : Byte) : Statement (.lzRsvdZerooff len b3) := rfl
theorem htLeaf (value : Byte) (freq : Word) (left right : BitVec 16) : Statement (.htLeaf value freq left right) := rfl
theorem htNode (value : Byte) (freq : Word) (left right : BitVec 16) : Statement (.htNode value freq left right) := rfl
theorem htRsvd (flags : Byte) (rest : BitVec 72) : Statement (.htRsvd flags rest) := rfl

end Sys2Proof.Laws.EncodeLength
end

