-- ==== Sys2Proof/Laws/Step.lean ====
section
/-! SUPPORT. The step, split at the agenda's head, and the addresses of the register block. -/

namespace Sys2Proof.Machine

open Sys2Proof

/-- What an act answers. -/
def Act.outcome : Act → Host.Outcome State Fault Refusal
  | .run i t => exec i t
  | .settled o => o

@[simp] theorem Act.outcome_run (i : Instr) (t : State) : (Act.run i t).outcome = exec i t := rfl

@[simp] theorem Act.outcome_settled (o : Host.Outcome State Fault Refusal) :
    (Act.settled o).outcome = o := rfl

theorem step_eq (s : State) : step s = s.act.outcome := by
  unfold step Act.outcome
  cases s.act <;> rfl

/-- The head of the agenda acts, in the state without it. -/
theorem step_of_cons {s : State} {e : Event} {q : List Event} (h : s.agenda = e :: q) :
    step s = ((s.withAgenda q).turn e).outcome := by
  rw [step_eq, State.act, h]

/-- With an empty agenda the engine acts. -/
theorem step_of_nil {s : State} (h : s.agenda = []) : step s = s.engineTurn.outcome := by
  rw [step_eq, State.act, h]

theorem addrAligned_base (b : Build) {off : Nat} (h : off % 4 = 0) : addrAligned b (b.base + off) = true := by
  simp only [addrAligned, decide_eq_true_eq]; omega

theorem regAt_base (b : Build) (off : Nat) : regAt b (b.base + off) = Reg.ofOffset off := by
  simp [regAt]

/-- The offset of a register (rule R12). -/
def Reg.offset : Reg → Nat
  | .cmd => 0x00
  | .ctrl => 0x04
  | .status => 0x08
  | .inLen => 0x0C
  | .origSize => 0x10
  | .metaLen => 0x14
  | .outLen => 0x18
  | .rOrig => 0x1C
  | .rComp => 0x20
  | .rRatio => 0x24
  | .rInfo => 0x28
  | .rAvoid => 0x2C
  | .rMetaLen => 0x30
  | .rTime => 0x34
  | .t0Info => 0x40
  | .t0Size => 0x44
  | .t0Ratio => 0x48
  | .t1Info => 0x50
  | .t1Size => 0x54
  | .t1Ratio => 0x58
  | .t2Info => 0x60
  | .t2Size => 0x64
  | .t2Ratio => 0x68

/-- A register stands at its offset and at no other. -/
theorem Reg.ofOffset_eq_some {off : Nat} {r : Reg} : Reg.ofOffset off = some r ↔ off = r.offset := by
  constructor
  · intro h
    unfold Reg.ofOffset at h
    split at h <;> cases h <;> rfl
  · rintro rfl
    cases r <;> rfl

/-- A register is a word of the register block. -/
theorem wordAt_of_regAt {b : Build} {addr : Nat} {r : Reg} (h : regAt b addr = some r) : wordAt b addr = true := by
  simp [wordAt, h]

/-- A word offset is one when it is listed or lies in no buffer's window. -/
theorem wordAt_base {b : Build} {off : Nat}
    (h : (Reg.ofOffset off).isSome ∨ (off % 4 = 0 ∧ windowAt b (b.base + off) 4 = none)) :
    wordAt b (b.base + off) = true := by
  rw [wordAt, regAt_base]
  rcases h with h | ⟨h, hw⟩
  · simp [h]
  · simp [hw, addrAligned_base b h]

/-- A host write of a register offset. -/
theorem hostWrite_base (s : State) {off : Nat} (h : wordAt s.build (s.build.base + off) = true) (v : Word) :
    s.hostWrite (s.build.base + off) v =
      match Reg.ofOffset off with
      | none => .settled (.next s)
      | some .ctrl =>
        match decodeCtrl v with
        | .ok i => .run i s
        | .error _ => .settled (.next s)
      | some r =>
        if s.state = .busy then .settled (.next s) else .settled (.next (s.writeStored r v)) := by
  rw [State.hostWrite, if_pos h, regAt_base] <;> rfl

/-- A host read of a register offset. -/
theorem hostRead_base (s : State) {off : Nat} (h : wordAt s.build (s.build.base + off) = true) :
    s.hostRead (s.build.base + off) =
      match Reg.ofOffset off with
      | none => .settled (.next (s.returned 0))
      | some r =>
        if s.state = .busy ∧ r ≠ .status then .settled (.next s.returnedAny)
        else .settled (.next (s.returned (s.regValue r))) := by
  rw [State.hostRead, if_pos h, State.readRegister, regAt_base]
  cases Reg.ofOffset off with
  | none => rfl
  | some r => simp only; split <;> rfl

/-! ### Accesses by bus address -/

/-- An access by bus address to a byte of a buffer is the access to that byte. -/
theorem hostBus_of_bufAt {s : State} {addr : Nat} {id : BufId} {i : Nat} (h : bufAt s.build addr = some (id, i))
    (access : BufId → Nat → Act) (gap : State) : s.hostBus addr access gap = access id i := by rw [State.hostBus, h]

/-- All a byte access by bus address can be. -/
theorem hostBus_cases (s : State) (addr : Nat) (access : BufId → Nat → Act) (gap : State) :
    (∃ id i, bufAt s.build addr = some (id, i) ∧ s.hostBus addr access gap = access id i) ∨
      (bufAt s.build addr = none ∧ (windowAt s.build addr 1).isSome ∧
        s.hostBus addr access gap = .settled (.next gap)) ∨
      (windowAt s.build addr 1 = none ∧ s.hostBus addr access gap = .settled (.fault (.unmappedByte addr))) := by
  cases h : bufAt s.build addr with
  | some p => exact .inl ⟨p.1, p.2, rfl, hostBus_of_bufAt h _ _⟩
  | none =>
    cases hw : windowAt s.build addr 1 with
    | some p => exact .inr (.inl ⟨rfl, rfl, by simp [State.hostBus, h, hw]⟩)
    | none => exact .inr (.inr ⟨rfl, by simp [State.hostBus, h, hw]⟩)

/-! ### Records as the decoder finds them -/

/-- The LZ77 record with any fields, executed (rule R210). -/
theorem exec_decodeLz (off : BitVec 16) (lenf b3 : Byte) (s : State) :
    exec (decodeLz off lenf b3) s = recordStep .decLz (lzRecordOp s.build.outMax off lenf b3) s := by
  unfold decodeLz lzRecordOp
  by_cases h0 : off = 0
  · by_cases h1 : lenf = 0
    · simp only [h0, h1, if_true]; exact exec_lzLit _ _
    · simp only [h0, h1, if_true, if_false]; exact exec_lzRsvdZerooff _ _ _
  · by_cases h1 : lenf = 0
    · by_cases h2 : b3 = 0
      · simp only [h0, h1, h2, if_true, if_false]; exact exec_lzRsvdZerolen _ _
      · simp only [h0, h1, h2, if_true, if_false]; exact exec_lzCopyend _ _ _
    · simp only [h0, h1, if_false]; exact exec_lzCopylit _ _ _ _

/-- The node record with any fields, executed (rules R163, R164). -/
theorem exec_decodeNode (flags value : Byte) (freq : Word) (left right : BitVec 16) (s : State) :
    exec (decodeNode flags value freq left right) s =
      recordStep .tree (htRecordOp flags value freq left right) s := by
  unfold decodeNode htRecordOp
  by_cases h0 : flags = 1
  · simp only [h0, if_true]; exact exec_htLeaf _ _ _ _ _
  · by_cases h1 : flags = 0
    · simp only [h1]; exact exec_htNode _ _ _ _ _
    · simp only [h0, h1, if_false]; exact exec_htRsvd _ _ _

/-! ### Runs of steps -/

/-- A run takes its first step first. -/
theorem run_succ_of_next (M : Host.Core) (k : Nat) {x y : M.State} (h : M.step x = .next y) :
    M.run (k + 1) x = M.run k y := by
  show (match M.step x with
    | .next s' => M.run k s'
    | .fault r => .fault r
    | .refused r => .refused r) = _
  rw [h]

end Sys2Proof.Machine
end

