-- ==== Sys2Proof/Tests/Slice0.lean ====
section
/-! SUPPORT. Tests and witnesses. Words are written out from spec 30; expected results are the vectors of spec 95
(named in the comments) or hand calculation from the cited rule. A witness shows a concrete state and operands
that meet the hypotheses of the obligation it is named after. -/

namespace Sys2Proof.Tests

open Sys2Proof Sys2Proof.Machine

/-! ### Small states -/

/-- A small build: capacities 32 and 64, the register block at 0x40. -/
def small : Build :=
  { w := 4096, l := 255, inMax := 32, outMax := 64, base := 0x40, ibufBase := 0x100, mibufBase := 0x2000,
    obufBase := 0x1000, mobufBase := 0x4000, ibufPacking := ⟨1, [0]⟩, mibufPacking := ⟨1, [0]⟩,
    obufPacking := ⟨1, [0]⟩, mobufPacking := ⟨1, [0]⟩, wordLanes := [0, 1, 2, 3],
    descRle := [], descHuffman := [], descLz77 := [] }

/-- A build whose bus carries an input byte in the lowest lane of each group of two addresses, and a word's most
significant byte first. -/
def sparse : Build := { small with ibufPacking := ⟨2, [0]⟩, wordLanes := [3, 2, 1, 0] }

/-- A build whose bus carries four input bytes a word, the last of them first. -/
def swapped : Build := { small with ibufPacking := ⟨4, [3, 2, 1, 0]⟩, mibufPacking := ⟨4, [3, 2, 1, 0]⟩ }

/-- Just reset. -/
def idle : State := { State.reset with build := small }

/-- A started command with its input. -/
def started (c : Byte) (inp : List Byte) : State :=
  { idle with
    latched := c, state := .busy, inLen := BitVec.ofNat 32 inp.length, ibuf := .holding 0 inp }

/-- A started `DECOMPRESS.HUFFMAN` with its tree and original size. -/
def startedHuffman (inp tree : List Byte) (size : Word) : State :=
  { started 0x41 inp with
    metaLen := BitVec.ofNat 32 (tree.length / 10), mibuf := .holding 0 tree, origSize := size }

/-- A decoder in its loop, with the output so far. -/
def inLoop (ph : Phase) (inp out : List Byte) : State :=
  { started 0x42 inp with work := { Work.init with phase := ph, out := out } }

/-- A tree loader with the arena so far. -/
def inTree (arena : List Node) (metaLen : Word) : State :=
  { idle with
    latched := 0x41, state := .busy, metaLen := metaLen,
    work := { Work.init with phase := .tree, arena := arena } }

/-- The next state, if there is one. -/
def nextOf : Host.Outcome State Fault Refusal → State
  | .next t => t
  | .fault _ => idle
  | .refused _ => idle

/-- The specified bytes of a buffer, in order. -/
def bytesOf (b : Buffer) : List Byte := b.cells.map Prod.snd

/-- A state with one event next. -/
def withEvent (s : State) (e : Event) : State := { s with agenda := [e] }

/-- "ABRACADABRA" -/
def abra : List Byte := [0x41, 0x42, 0x52, 0x41, 0x43, 0x41, 0x44, 0x41, 0x42, 0x52, 0x41]

/-- "ABCABCABC" -/
def abc : List Byte := [0x41, 0x42, 0x43, 0x41, 0x42, 0x43, 0x41, 0x42, 0x43]

/-- tree(H6), the tree of "AB". -/
def treeAB : List Byte :=
  [0x01, 0x41, 0, 0, 0, 1, 0xFF, 0xFF, 0xFF, 0xFF] ++ [0x01, 0x42, 0, 0, 0, 1, 0xFF, 0xFF, 0xFF, 0xFF] ++
    [0x00, 0x00, 0, 0, 0, 2, 0, 0, 0, 1]

/-! ### Well-formedness: one ill-formed term for each check -/

theorem test_illFormed_compressUnsupported : (Instr.compressUnsupported 2).wellFormed = false := by decide
theorem test_illFormed_decompressUnsupported : (Instr.decompressUnsupported 0).wellFormed = false := by
  decide
theorem test_illFormed_lzCopylit_off : (Instr.lzCopylit 0 1 9).wellFormed = false := by decide
theorem test_illFormed_lzCopylit_len : (Instr.lzCopylit 1 0 9).wellFormed = false := by decide
theorem test_illFormed_lzCopyend_off : (Instr.lzCopyend 0 1).wellFormed = false := by decide
theorem test_illFormed_lzCopyend_len : (Instr.lzCopyend 1 0).wellFormed = false := by decide
theorem test_illFormed_lzRsvdZerolen : (Instr.lzRsvdZerolen 0).wellFormed = false := by decide
theorem test_illFormed_lzRsvdZerooff : (Instr.lzRsvdZerooff 0 7).wellFormed = false := by decide
theorem test_illFormed_htRsvd : (Instr.htRsvd 1 0).wellFormed = false := by decide

/-! ### Decoding: words written out from the encodings of spec 30 -/

/-- Rules R80, R82, R83: `OP` in bits 7:6, `ALG` in bits 5:0. -/
theorem test_decode_commands :
    decodeTableWord 8 0b00000000 = some .compressRle ∧ decodeTableWord 8 0b00000001 = some .compressHuffman ∧
    decodeTableWord 8 0b00000010 = some .compressLz77 ∧
    decodeTableWord 8 0b00000011 = some (.compressUnsupported 3) ∧
    decodeTableWord 8 0b01000000 = some .decompressRle ∧
    decodeTableWord 8 0b01000001 = some .decompressHuffman ∧
    decodeTableWord 8 0b01000010 = some .decompressLz77 ∧
    decodeTableWord 8 0b01111111 = some (.decompressUnsupported 63) ∧
    decodeTableWord 8 0b10000101 = some (.smartCompress 5) ∧
    decodeTableWord 8 0b11000000 = some (.listAlgorithms 0) := by decide

/-- Rules R14, R85: bit 0 `START`, bit 1 `CLEAR`; both: `START`. -/
theorem test_decode_strobes :
    decodeCtrl 0x00000001 = .ok (.start 0) ∧ decodeCtrl 0x00000002 = .ok (.clear 0) ∧
    decodeCtrl 0x00000003 = .ok (.start 1) ∧ decodeCtrl 0xFFFFFFFE = .ok (.clear 0x3FFFFFFF) ∧
    decodeCtrl 0x00000004 = .error .noStrobe := by decide

/-- Rules R86, R91, R92, R97: byte 0 first, 16-bit and 32-bit fields big-endian. -/
theorem test_decode_records :
    decode .rle16 [0x41, 0x0A] = .ok (.rleRun 0x41 10) ∧
    decode .lz32 [0x00, 0x00, 0x00, 0x58] = .ok (.lzLit 0x58) ∧
    decode .lz32 [0x01, 0x02, 0x04, 0x5A] = .ok (.lzCopylit 0x0102 4 0x5A) ∧
    decode .lz32 [0x00, 0x07, 0x00, 0x03] = .ok (.lzCopyend 7 3) ∧
    decode .lz32 [0x00, 0x07, 0x00, 0x00] = .ok (.lzRsvdZerolen 7) ∧
    decode .lz32 [0x00, 0x00, 0x01, 0x58] = .ok (.lzRsvdZerooff 1 0x58) ∧
    decode .node80 [0x01, 0x41, 0x00, 0x00, 0x01, 0x05, 0xFF, 0xFF, 0xFF, 0xFF] =
      .ok (.htLeaf 0x41 0x105 0xFFFF 0xFFFF) ∧
    decode .node80 [0x00, 0x00, 0x00, 0x00, 0x00, 0x0B, 0x00, 0x01, 0x00, 0x07] =
      .ok (.htNode 0 11 1 7) ∧
    decode .node80 [0x02, 0x41, 0x00, 0x00, 0x00, 0x05, 0xFF, 0xFF, 0xFF, 0xFE] =
      .ok (.htRsvd 2 0x4100000005FFFFFFFE) ∧
    decode .lz32 [0x00, 0x00, 0x00] = .error (.truncated .lz32) := by decide

/-- The table's numbering: a record's first byte holds its most significant bits. -/
theorem test_decode_table_order :
    decodeTableWord 16 0x410A = some (.rleRun 0x41 10) ∧
    decodeTableWord 32 0x00070003 = some (.lzCopyend 7 3) ∧
    decodeTableWord 32 0x00000001 = some (.start 0) ∧
    decodeTableWord 80 0x0000000000000B00010007 = some (.htNode 0 11 1 7) := by decide

/-- Placed after reset, one word of each format is what the next step runs. -/
theorem test_withFetchWord_command :
    (nextOf (step (State.reset.withFetchWord 8 0x05))).statusWord = 0x13 := by decide +kernel
theorem test_withFetchWord_strobe :
    (nextOf (step (State.reset.withFetchWord 32 1))).statusWord = 0x01 := by decide +kernel
theorem test_withFetchWord_rleRun :
    (nextOf (step (State.reset.withFetchWord 16 0x4103))).work.out = [0x41, 0x41, 0x41] := by decide +kernel
theorem test_withFetchWord_lzLit :
    (nextOf (step (State.reset.withFetchWord 32 0x00000058))).work.out = [0x58] := by decide +kernel
theorem test_withFetchWord_htLeaf :
    (nextOf (step (State.reset.withFetchWord 80 0x014100000005FFFFFFFF))).work.arena = [.leaf 0x41 5] := by
  decide +kernel

/-! ### Commands -/

/-- S1 as a command: rule R243's registers. -/
theorem test_compressRle_effective :
    let t := nextOf (exec .compressRle (started 0x00 (List.replicate 10 0x41)))
    (bytesOf t.obuf, t.res.outLen, t.res.rOrig, t.res.rRatio, t.res.rInfo, t.statusWord) =
      ([0x41, 0x0A], 2, 10, 8000, 0x200, 2) := by decide +kernel

/-- G6, second part: a raw size equal to the input is a fallback with nothing avoided. -/
theorem test_compressRle_fallback :
    let t := nextOf (exec .compressRle (started 0x00 [0x48, 0x69, 0x69, 0x0A, 0x0A, 0x0A]))
    (bytesOf t.obuf, t.res.rAvoid, t.res.rInfo) = ([0x48, 0x69, 0x69, 0x0A, 0x0A, 0x0A], 0, 0x100) := by
  decide +kernel

/-- G1, lines 6 to 8. -/
theorem test_compressHuffman :
    let t := nextOf (exec .compressHuffman (started 0x01 abra))
    (bytesOf t.obuf, t.res.rRatio, t.res.rInfo, t.res.rMetaLen) = ([0x6E, 0x8A, 0xDC], 7273, 0x201, 9) := by
  decide +kernel

/-- G1, line 9: the root of tree(H3). -/
theorem test_compressHuffman_root :
    ((bytesOf (nextOf (exec .compressHuffman (started 0x01 abra))).mobuf).drop 80) =
      [0x00, 0x00, 0x00, 0x00, 0x00, 0x0B, 0x00, 0x00, 0x00, 0x07] := by decide +kernel

/-- S2: the tokens of "ABCABCABC"; 16 bytes against 9, a fallback that avoids 7. -/
theorem test_compressLz77 :
    lzCompress small abc =
        [0, 0, 0, 0x41] ++ [0, 0, 0, 0x42] ++ [0, 0, 0, 0x43] ++ [0x00, 0x03, 0x00, 0x06] ∧
      (nextOf (exec .compressLz77 (started 0x02 abc))).res.rAvoid = 7 := by decide +kernel

/-- E1. -/
theorem test_compressUnsupported :
    (nextOf (exec (.compressUnsupported 5) (started 0x05 []))).statusWord = 0x13 := by decide +kernel

/-- RL22. -/
theorem test_decompressRle :
    bytesOf (nextOf (exec .decompressRle (started 0x40 [0x41, 3, 0x42, 0, 0x43, 2]))).obuf =
      [0x41, 0x41, 0x41, 0x43, 0x43] := by decide +kernel

/-- E5: an odd length; nothing is returned. -/
theorem test_decompressRle_odd :
    let t := nextOf (exec .decompressRle (started 0x40 [0x41, 3, 0x42]))
    (t.statusWord, t.res.outLen, t.obuf.cells) = (0x33, 0, []) := by decide +kernel

/-- H6 decoded. -/
theorem test_decompressHuffman :
    bytesOf (nextOf (exec .decompressHuffman (startedHuffman [0x40] treeAB 2))).obuf = [0x41, 0x42] := by
  decide +kernel

/-- Rule R169: the ninth bit of a one-byte payload is not there. -/
theorem test_decompressHuffman_short :
    (nextOf (exec .decompressHuffman (startedHuffman [0x40] treeAB 9))).statusWord = 0x33 := by
  decide +kernel

/-- G5. -/
theorem test_decompressLz77 :
    bytesOf (nextOf (exec .decompressLz77 (started 0x42
      ([0, 0, 0, 0x58] ++ [0, 0, 0, 0x59] ++ [0, 2, 4, 0x5A] ++ [0, 7, 0, 3] ++ [0, 0, 0, 0x21])))).obuf =
      [0x58, 0x59, 0x58, 0x59, 0x58, 0x59, 0x5A, 0x58, 0x59, 0x58, 0x21] := by decide +kernel

/-- G5, changed record 4: offset 8 > 7. -/
theorem test_decompressLz77_far :
    (nextOf (exec .decompressLz77 (started 0x42
      ([0, 0, 0, 0x58] ++ [0, 0, 0, 0x59] ++ [0, 2, 4, 0x5A] ++ [0, 8, 0, 3])))).statusWord = 0x33 := by
  decide +kernel

/-- E2: dispatch is tested before the input length. -/
theorem test_decompressUnsupported :
    (nextOf (exec (.decompressUnsupported 63) { started 0x7F [] with inLen := 33 })).statusWord = 0x13 := by
  decide +kernel

/-- G2, lines 6 to 10. -/
theorem test_smartCompress :
    let t := nextOf (exec (.smartCompress 0) (started 0x80 abc))
    (t.res.rInfo, t.res.t0.info, t.res.t1, t.res.t2.info, bytesOf t.obuf) =
      (0x3201, 0x80000000, ⟨0x80000201, 2, 7778⟩, 0x80000002, [0xB5, 0xAC]) := by decide +kernel

/-- E4: no attempt runs on an input that is too long. -/
theorem test_smartCompress_long :
    let t := nextOf (exec (.smartCompress 0) { started 0x80 [] with inLen := 33 })
    (t.statusWord, t.res.rInfo) = (0x43, 0) := by decide +kernel

/-- G4. -/
theorem test_listAlgorithms :
    bytesOf (nextOf (exec (.listAlgorithms 0) (started 0xC0 []))).obuf =
      [0x03] ++ [0x00, 0x03, 0x72, 0x6C, 0x65, 0x00, 0x00] ++
        [0x01, 0x07, 0x68, 0x75, 0x66, 0x66, 0x6D, 0x61, 0x6E, 0x00, 0x00] ++
        [0x02, 0x04, 0x6C, 0x7A, 0x37, 0x37, 0x00, 0x00] := by decide +kernel

/-- E12: `START` from `ERROR`; `CMD` is latched. -/
theorem test_start :
    let t := nextOf (exec (.start 0) { idle with state := .error, err := some .malformedStream, cmd := 0x47 })
    (t.statusWord, t.latched) = (0x01, 0x47) := by decide

/-- E11. -/
theorem test_clear :
    let t := nextOf (exec (.clear 0) { idle with state := .error, err := some .malformedStream, cmd := 0x40 })
    (t.statusWord, t.cmd) = (0x00, 0x40) := by decide

/-! ### Records -/

/-- RL22: a count of 0 emits nothing and the cursor passes. -/
theorem test_rleRun_zero :
    let t := nextOf (exec (.rleRun 0x42 0) (inLoop .decRle [0x42, 0] [0x41]))
    (t.work.out, t.work.pos) = ([0x41], 2) := by decide

/-- G5, step 1. -/
theorem test_lzLit :
    (nextOf (exec (.lzLit 0x58) (inLoop .decLz [0, 0, 0, 0x58] []))).work.out = [0x58] := by decide

/-- G5, step 3: the copy overlaps what it writes. -/
theorem test_lzCopylit :
    (nextOf (exec (.lzCopylit 2 4 0x5A) (inLoop .decLz [0, 2, 4, 0x5A] [0x58, 0x59]))).work.out =
      [0x58, 0x59, 0x58, 0x59, 0x58, 0x59, 0x5A] := by decide

/-- Rule R214: the farthest legal offset, no literal. -/
theorem test_lzCopyend :
    (nextOf (exec (.lzCopyend 3 2) (inLoop .decLz [0, 3, 0, 2] [0x58, 0x59, 0x5A]))).work.out =
      [0x58, 0x59, 0x5A, 0x58, 0x59] := by decide

/-- Rule R211. -/
theorem test_lzRsvd :
    (nextOf (exec (.lzRsvdZerolen 1) (inLoop .decLz [0, 1, 0, 0] [0x58]))).statusWord = 0x33 ∧
      (nextOf (exec (.lzRsvdZerooff 1 0) (inLoop .decLz [0, 0, 1, 0] [0x58]))).statusWord = 0x33 := by decide

/-- tree(H6), record 1. -/
theorem test_htLeaf :
    (nextOf (exec (.htLeaf 0x42 1 0xFFFF 0xFFFF) (inTree [.leaf 0x41 1] 3))).work.arena =
      [.leaf 0x41 1, .leaf 0x42 1] := by decide

/-- tree(H6), record 2; and rule R98 (d): a node may not be its own child. -/
theorem test_htNode :
    (nextOf (exec (.htNode 0 2 0 1) (inTree [.leaf 0x41 1, .leaf 0x42 1] 3))).work.arena =
        [.leaf 0x41 1, .leaf 0x42 1, .node 2 0 1] ∧
      (nextOf (exec (.htNode 0 2 0 2) (inTree [.leaf 0x41 1, .leaf 0x42 1] 3))).statusWord = 0x33 := by
  decide

/-- Rule R163: reserved `FLAGS`. -/
theorem test_htRsvd :
    (nextOf (exec (.htRsvd 2 0) (inTree [] 1))).statusWord = 0x33 := by decide

/-! ### Witnesses: encoding and host -/

theorem witness_EncodeThenDecode :
    (Instr.compressUnsupported 3).wellFormed = true ∧ (Instr.compressUnsupported 63).wellFormed = true ∧
    (Instr.decompressUnsupported 3).wellFormed = true ∧ (Instr.lzCopylit 1 1 0).wellFormed = true ∧
    (Instr.lzCopylit 0xFFFF 0xFF 0xFF).wellFormed = true ∧ (Instr.lzCopyend 1 1).wellFormed = true ∧
    (Instr.lzRsvdZerolen 1).wellFormed = true ∧ (Instr.lzRsvdZerooff 1 0).wellFormed = true ∧
    (Instr.htRsvd 2 0).wellFormed = true ∧ (Instr.htRsvd 255 0).wellFormed = true := by decide

theorem witness_DecodeThenEncode : decode .lz32 [0, 1, 0, 1, 7] = .ok (.lzCopyend 1 1) := by decide

/-- Every format at its shortest, and the `CTRL` clause on both sides: each strobe, and none. -/
theorem witness_EveryPatternIsAnInstruction :
    (∀ f ∈ [Format.cmd8, .ctrl, .rle16, .lz32, .node80], f.size ≤ (List.replicate f.size (0xFF : Byte)).length) ∧
      (at0 [0, 0, 0, 1] 3).extractLsb' 0 2 ≠ 0 ∧ (at0 [0, 0, 0, 2] 3).extractLsb' 0 2 ≠ 0 ∧
      (at0 [0xFF, 0xFF, 0xFF, 0xFC] 3).extractLsb' 0 2 = 0 := by decide

theorem witness_ResetState : idle.state ≠ .busy := by decide

theorem witness_PlatformResetZeroes : (withEvent (started 0x40 [1]) .reset).agenda = .reset :: [] := rfl

theorem witness_PackedWords : 63 < 64 ∧ 3 < 4 ∧ 7 < 8 := by decide

/-- A listed, a read-only and an unlisted offset. -/
theorem witness_HostWritesRegisters : ∀ off ∈ [0x00, 0x0C, 0x10, 0x14, 0x18, 0x38, 0x6C],
    (withEvent idle (.host (.writeReg (idle.build.base + off) 5))).agenda =
        .host (.writeReg (idle.build.base + off) 5) :: [] ∧
      ((Reg.ofOffset off).isSome ∨ (off % 4 = 0 ∧ windowAt idle.build (idle.build.base + off) 4 = none)) ∧
      off ≠ 4 ∧ idle.state ≠ .busy := by decide

/-- The lane clauses: `CMD`, `CTRL`, the last table word and an unlisted offset, and builds with a legal packing. -/
theorem witness_HostWritesRegisters_lanes :
    (∀ off ∈ [0x00, 0x04, 0x68, 0x6C], wordAt idle.build (0x40 + off) = true ∧
      ([1, 2, 3, 4] : List Byte).length = 4 ∧
      (withEvent idle (.host (.writeWide (0x40 + off) [1, 2, 3, 4]))).agenda =
        .host (.writeWide (0x40 + off) [1, 2, 3, 4]) :: []) ∧
      PackingLegal small ∧ PackingLegal sparse ∧ PackingLegal swapped ∧ PackingLegal Config.defaultBuild := by
  decide

theorem witness_HostReadsRegisters : ∀ off ∈ [0x00, 0x04, 0x08, 0x34, 0x38, 0x68, 0x6C],
    (withEvent idle (.host (.readReg (idle.build.base + off)))).agenda =
        .host (.readReg (idle.build.base + off)) :: [] ∧
      ((Reg.ofOffset off).isSome ∨ (off % 4 = 0 ∧ windowAt idle.build (idle.build.base + off) 4 = none)) ∧
      idle.state ≠ .busy := by decide

/-- The lane clauses: a register and an unlisted offset, and each end of a word. -/
theorem witness_HostReadsRegisters_lanes :
    (∀ off ∈ [0x00, 0x68, 0x6C], wordAt idle.build (0x40 + off) = true ∧
      (withEvent idle (.host (.readWide (0x40 + off) 4))).agenda = .host (.readWide (0x40 + off) 4) :: []) ∧
      PackingLegal sparse ∧ 0 < 4 ∧ 3 < 4 := by decide

/-- `STATUS` in `BUSY`. -/
theorem witness_HostReadsRegisters_busy :
    (withEvent (started 0 []) (.host (.readReg (small.base + 8)))).agenda =
      .host (.readReg (small.base + 8)) :: [] := rfl

/-- The last byte of each buffer, written and read. -/
theorem witness_HostAccessesBuffers : ∀ id ∈ BufId.all,
    idle.state ≠ .busy ∧ small.bufSize id - 1 < idle.build.bufSize id ∧
      (withEvent idle (.host (.writeBuf id (small.bufSize id - 1) 7))).agenda =
        .host (.writeBuf id (small.bufSize id - 1) 7) :: [] ∧
      (withEvent idle (.host (.readBuf id (small.bufSize id - 1)))).agenda =
        .host (.readBuf id (small.bufSize id - 1)) :: [] := by decide

/-- The bus clauses: the first and the last byte of each buffer, on builds whose windows are apart. -/
theorem witness_HostAccessesBuffers_bus :
    WindowsApart small ∧ WindowsApart sparse ∧ WindowsApart swapped ∧ WindowsApart Config.defaultBuild ∧
      bufAt small 0x100 = some (.ibuf, 0) ∧ bufAt small 0x11F = some (.ibuf, 31) ∧
      bufAt small 0x2000 = some (.mibuf, 0) ∧ bufAt small 0x33F5 = some (.mibuf, 5109) ∧
      bufAt small 0x1000 = some (.obuf, 0) ∧ bufAt small 0x103F = some (.obuf, 63) ∧
      bufAt small 0x4000 = some (.mobuf, 0) ∧ bufAt small 0x53F5 = some (.mobuf, 5109) ∧
      (withEvent idle (.host (.writeBus 0x11F 7))).agenda = .host (.writeBus 0x11F 7) :: [] := by
  refine ⟨?_, ?_, ?_, ?_, by decide, by decide, by decide, by decide, by decide, by decide, by decide, by decide, rfl⟩ <;>
  · intro id id' h
    cases id <;> cases id' <;> first | exact absurd rfl h | decide

/-- The packing of two other builds, written out: a byte at every second address, and words with their last byte first. -/
theorem witness_HostAccessesBuffers_packing :
    PackingLegal sparse ∧ PackingLegal swapped ∧ 31 < sparse.bufSize .ibuf ∧
      busAddress sparse .ibuf 31 = 0x13E ∧ bufAt sparse 0x13E = some (.ibuf, 31) ∧ bufAt sparse 0x13F = none ∧
      busAddress swapped .ibuf 4 = 0x107 ∧ bufAt swapped 0x107 = some (.ibuf, 4) ∧
      small.packing .obuf = ⟨1, [0]⟩ ∧
      carried swapped .mibuf 5108 = none ∧ carried swapped .mibuf 5110 = some 5109 ∧
      windowSize swapped .mibuf = 5112 := by decide

/-- The clauses on wide accesses: from the first place of a window and up to its last, four bytes and other widths; places
that carry a byte, and one that carries none. -/
theorem witness_HostAccessesBuffers_wide :
    idle.state ≠ .busy ∧
      windowAt swapped 0x100 ([1, 2, 3, 4] : List Byte).length = some (.ibuf, 0) ∧
      windowAt swapped 0x11C 4 = some (.ibuf, 28) ∧ windowAt swapped 0x11D 4 = none ∧
      regAt swapped 0x100 = none ∧ windowAt swapped 0x100 4 ≠ none ∧
      windowAt small 0x100 32 = some (.ibuf, 0) ∧ (32 : Nat) ≠ 4 ∧
      carried swapped .ibuf (28 + 3) = some 28 ∧ carried swapped .ibuf (28 + 0) = some 31 ∧
      carried sparse .ibuf (0 + 1) = none ∧
      (∀ j, j < 4 → carried swapped .ibuf (28 + j) ≠ some 27) ∧
      0 < 4 ∧ 28 + 4 ≤ windowSize swapped .ibuf ∧
      (withEvent { idle with build := swapped } (.host (.writeWide 0x100 [1, 2, 3, 4]))).agenda =
        .host (.writeWide 0x100 [1, 2, 3, 4]) :: [] ∧
      (withEvent { idle with build := swapped } (.host (.readWide 0x11C 4))).agenda =
        .host (.readWide 0x11C 4) :: [] := by decide

/-- The places next to a window belong to none, and a misaligned word there is none of the register block: the access
stops. -/
theorem witness_OnlyStrayHostAccessesFault :
    (∀ addr ∈ [0xFF, 0x120, 0x1FFF, 0x33F6, 0xFFF, 0x1040, 0x3FFF, 0x53F6], windowAt idle.build addr 1 = none) ∧
      (0x41 % 4 ≠ idle.build.base % 4 ∧ windowAt idle.build 0x41 4 = none) ∧
      (0x11D % 4 ≠ idle.build.base % 4 ∧ windowAt idle.build 0x11D 4 = none) ∧
      (¬ ((2 : Nat) = 4 ∧ 0x40 % 4 = idle.build.base % 4) ∧ windowAt idle.build 0x40 2 = none) := by decide

/-- Rules R54, R60: a byte stored by its bus address, and read back. -/
theorem test_bus_write :
    (nextOf (step (withEvent idle (.host (.writeBus 0x103 7))))).ibuf.cells = [(3, 7)] := by decide +kernel
theorem test_bus_read :
    (nextOf (step (withEvent { idle with ibuf := .holding 0 [9, 8] } (.host (.readBus 0x101))))).readData = 8 := by
  decide +kernel

/-- Rule R54: a word written and read in a window of `swapped`, whose packing puts index 0 in the last lane, and the
number's least significant byte in the first. -/
theorem test_word_in_window :
    (nextOf (step (withEvent { idle with build := swapped } (.host (.writeReg 0x104 0x04030201))))).ibuf.cells =
        [(4, 4), (5, 3), (6, 2), (7, 1)] ∧
      (nextOf (step (withEvent { idle with build := swapped, ibuf := .holding 0 [4, 3, 2, 1] }
        (.host (.readReg 0x100))))).readData = 0x04030201 := by decide +kernel

/-- Rule R54: bytes written and read by their bus addresses; every second address of `sparse` carries nothing. -/
theorem test_wide :
    (nextOf (step (withEvent { idle with build := sparse } (.host (.writeWide 0x102 [7, 8, 9]))))).ibuf.cells =
        [(1, 7), (2, 9)] ∧
      (nextOf (step (withEvent { idle with build := swapped, ibuf := .holding 0 [4, 3, 2, 1, 5, 6, 7, 8] }
        (.host (.readWide 0x102 4))))).busData = [3, 4, 8, 7] := by decide +kernel

/-- Rule R54: the lanes of a register word, most significant byte first on `sparse`. -/
theorem test_register_lanes :
    (nextOf (step (withEvent { idle with build := sparse } (.host (.writeWide 0x4C [0, 0, 1, 2]))))).inLen = 0x102 ∧
      (nextOf (step (withEvent { idle with build := sparse, inLen := 0x102 }
        (.host (.readWide 0x4C 4))))).busData = [0, 0, 1, 2] := by decide +kernel

theorem witness_BusyLocksTheHostOut_bus :
    let s := started 0 []
    s.state = .busy ∧ windowAt s.build 0x103F 1 ≠ none ∧ windowAt s.build 0x11C 4 ≠ none ∧
      windowAt s.build 0x100 ([1, 2] : List Byte).length ≠ none ∧ regAt s.build 0x11C = none ∧
      regAt s.build 0x48 = some .status ∧ regAt s.build 0xA8 = some .t2Ratio ∧ (32 : Nat) ≠ 4 ∧
      windowAt s.build 0x100 32 ≠ none ∧
      (([1, 2, 3, 4] : List Byte).length = 4 ∧ 0x44 % 4 = s.build.base % 4) := by decide

theorem witness_BusyLocksTheHostOut : ∀ off ∈ [0x00, 0x08, 0x68],
    (started 0 []).state = .busy ∧ (small.base + off) % 4 = (started 0 []).build.base % 4 ∧
      (regAt (started 0 []).build (small.base + off)).isSome = true ∧
      31 < (started 0 []).build.bufSize .ibuf := by decide

/-- The clauses' premises: each strobe word in each state. -/
theorem witness_CtrlStrobes :
    (1 : Word).getLsbD 0 = true ∧ (3 : Word).getLsbD 0 = true ∧ (2 : Word).getLsbD 0 = false ∧
    (2 : Word).getLsbD 1 = true ∧ (4 : Word).getLsbD 0 = false ∧ (4 : Word).getLsbD 1 = false ∧
    idle.state = .idle ∧ (started 0 []).state = .busy ∧ ({ idle with state := .done } : State).state = .done ∧
    (withEvent idle (.host (.writeReg (idle.build.base + 4) 3))).agenda =
      .host (.writeReg (idle.build.base + 4) 3) :: [] := by decide

/-! ### Witnesses: commands and steps -/

theorem witness_StartTakesTheCommand : idle.state ≠ .busy := by decide

theorem witness_ClearReturnsToIdle :
    ({ idle with state := .done } : State).state = .done ∧
      ({ idle with state := .error, err := some .malformedStream } : State).state = .error := by decide

theorem witness_StepRunsTheDecodedInstruction :
    decode .cmd8 [(started 0x05 []).latched] = .ok (.compressUnsupported 5) ∧
    (started 0x05 []).agenda = [] ∧ decode .ctrl [0, 0, 0, 3] = .ok (.start 1) ∧
    (let s := inLoop .decRle [0x41, 2] []
     s.state = .busy ∧ s.work.phase = .decRle ∧ s.work.pos < s.n ∧
       decode .rle16 (s.readBytes .ibuf s.work.pos 2) = .ok (.rleRun 0x41 2)) ∧
    (let s := inLoop .decLz [0, 0, 0, 0x58] []
     s.state = .busy ∧ s.work.phase = .decLz ∧ s.work.pos < s.n ∧
       decode .lz32 (s.readBytes .ibuf s.work.pos 4) = .ok (.lzLit 0x58)) ∧
    (let s : State := { inTree [] 1 with mibuf := .holding 0 [1, 0x41, 0, 0, 0, 1, 255, 255, 255, 255] }
     s.state = .busy ∧ s.work.phase = .tree ∧ s.work.arena.length < s.metaLen.toNat ∧
       decode .node80 (s.readBytes .mibuf (10 * s.work.arena.length) 10) =
         .ok (.htLeaf 0x41 1 0xFFFF 0xFFFF)) := by decide +kernel

theorem witness_NothingRunsOutsideItsPlace :
    Instr.format .compressRle = .cmd8 ∧ idle.state ≠ .busy ∧ (Instr.rleRun 1 1).format = .rle16 ∧
    ¬ ((inLoop .decLz [] []).state = .busy ∧ (inLoop .decLz [] []).work.phase = .decRle) ∧
    (Instr.lzLit 1).format = .lz32 ∧ ¬ ((inLoop .decRle [] []).work.phase = .decLz) ∧
    (Instr.htRsvd 2 0).format = .node80 ∧ ¬ ((inLoop .decRle [] []).work.phase = .tree) := by decide

theorem witness_NoInstructionWritesTheInputs :
    ∃ t, exec (.lzLit 0x58) (inLoop .decLz [0, 0, 0, 0x58] []) = .next t := ⟨_, rfl⟩

theorem witness_EveryErrorTakesTheErrorForm :
    ∃ t, exec (.htRsvd 2 0) (inTree [] 1) = .next t ∧ (inTree [] 1).state = .busy ∧ t.state = .error :=
  ⟨_, rfl, rfl, rfl⟩

theorem witness_CommandsAreAllOrNothing :
    (Instr.listAlgorithms 0).format = .cmd8 ∧ (started 0xC0 []).state = .busy := by decide

theorem witness_DispatchAndUnsupported : (started 0x3F []).state = .busy := rfl

/-- One byte more than `IN_MAX`. -/
theorem witness_InputTooLongRaises :
    let s : State := { started 0x00 [] with inLen := 33 }
    s.state = .busy ∧ s.build.inMax < s.n := by decide

/-- An effective and an ineffective result, and an input of exactly `IN_MAX` bytes. -/
theorem witness_CompressWritesItsResult :
    (let s := started 0x00 (List.replicate 10 0x41)
     s.state = .busy ∧ s.n ≤ s.build.inMax ∧ (rawOutput s.build s.input .rle).length < s.n) ∧
    (let s := started 0x02 abc
     s.n ≤ s.build.inMax ∧ s.n ≤ (rawOutput s.build s.input .lz77).length) ∧
    (started 0x00 (List.replicate 32 0)).n = small.inMax := by decide +kernel

theorem witness_EmptyInputFallsBack : (started 0x01 []).state = .busy ∧ (started 0x01 []).inLen = 0 := by
  decide

theorem witness_RatioRoundsHalfUp : 0 < 1 ∧ 29999 < 30000 := by decide

/-- For each algorithm, an input it decodes and one it rejects. -/
theorem witness_DecompressWritesItsBytes :
    (started 0x40 [0x41, 1]).state = .busy ∧ (started 0x40 [0x41, 1]).n ≤ small.inMax ∧
    rleDecompress 64 [0x41, 1] = .ok [0x41] ∧ rleDecompress 64 [0x41] = .error .malformedStream ∧
    huffDecompress 64 [0x40] 3 treeAB 2 = .ok [0x41, 0x42] ∧
    huffDecompress 64 [0x40] 3 treeAB 9 = .error .malformedStream ∧
    lzDecompress 64 [0, 0, 0, 7] = .ok [7] ∧ lzDecompress 64 [0, 1, 0, 1] = .error .malformedStream := by
  decide +kernel

theorem witness_SmartWritesTheBestResult :
    (started 0x80 abc).state = .busy ∧ (started 0x80 abc).n ≤ (started 0x80 abc).build.inMax := by decide

/-- With an effective entry, and without one. -/
theorem witness_SmartResultIsSmallest :
    (let t := nextOf (exec (.smartCompress 0) (started 0x80 abc))
     t.state = .done ∧ testedValid t.res.t1.info = true ∧ infoEffective t.res.t1.info = true) ∧
    (let t := nextOf (exec (.smartCompress 0) (started 0x80 [0x5A]))
     t.state = .done ∧ (∀ e ∈ [t.res.t0, t.res.t1, t.res.t2],
       testedValid e.info = true ∧ infoEffective e.info = false)) := by decide +kernel

/-- An attempt that raised, and one that did not. -/
theorem witness_FailedAttemptsAreExcluded :
    let bad := fun a => Candidate.mk a 0 (some .capacityExceeded) [] []
    let good := fun a => Candidate.mk a 3 none [1, 2, 3] []
    [bad .rle, bad .huffman, bad .lz77].filter (fun c => c.err.isNone) = [] ∧
      [bad .rle, good .huffman, bad .lz77].filter (fun c => c.err.isNone) ≠ [] ∧
      (good .huffman).alg = .huffman := by decide

theorem witness_ListReturnsTheListing : (started 0xC0 []).state = .busy := rfl

theorem witness_MissingTreeRaises :
    (let s := startedHuffman [] [] 0
     s.state = .busy ∧ s.n ≤ s.build.inMax ∧ s.metaLen = 0 ∧ s.origSize = 0 ∧ s.inLen = 0) ∧
    (let s := startedHuffman [0x40] [] 2
     s.state = .busy ∧ s.n ≤ s.build.inMax ∧ s.metaLen = 0 ∧ ¬ (s.origSize = 0 ∧ s.inLen = 0)) := by decide

/-! ### Witnesses: records -/

/-- The output ends exactly at `OUT_MAX`. -/
theorem witness_RleRunRepeatsItsValue :
    let s := inLoop .decRle [0x41, 1] (List.replicate 63 0)
    s.state = .busy ∧ s.work.phase = .decRle ∧ s.work.out.length + (1 : Byte).toNat ≤ s.build.outMax := by
  decide

theorem witness_LzLitAppendsItsByte :
    let s := inLoop .decLz [0, 0, 0, 7] (List.replicate 63 0)
    s.state = .busy ∧ s.work.phase = .decLz ∧ s.work.out.length + 1 ≤ s.build.outMax := by decide

theorem witness_LzCopylitCopiesForward :
    let s := inLoop .decLz [0, 62, 1, 7] (List.replicate 62 0)
    s.state = .busy ∧ s.work.phase = .decLz ∧ 1 ≤ (62 : BitVec 16).toNat ∧ 1 ≤ (1 : Byte).toNat ∧
      (62 : BitVec 16).toNat ≤ s.work.out.length ∧
      s.work.out.length + (1 : Byte).toNat + 1 ≤ s.build.outMax := by decide

theorem witness_LzCopyendCopiesForward :
    let s := inLoop .decLz [0, 63, 0, 1] (List.replicate 63 0)
    s.state = .busy ∧ s.work.phase = .decLz ∧ 1 ≤ (63 : BitVec 16).toNat ∧ 1 ≤ (1 : Byte).toNat ∧
      (63 : BitVec 16).toNat ≤ s.work.out.length ∧
      s.work.out.length + (1 : Byte).toNat ≤ s.build.outMax := by decide

/-- Rule R56: every length next to a multiple of 4. -/
theorem witness_LzMalformedRecordsRaise_length : ∀ n ∈ [1, 3, 5, 7], (List.replicate n (0 : Byte)).length % 4 ≠ 0 := by
  decide

/-- One more than the output so far. -/
theorem witness_LzMalformedRecordsRaise :
    let s := inLoop .decLz [0, 4, 1, 7] [1, 2, 3]
    s.state = .busy ∧ s.work.phase = .decLz ∧ s.work.out.length < (4 : BitVec 16).toNat := by decide

/-- One byte too many, for each record. -/
theorem witness_RecordsThatOverflowRaise :
    (let s := inLoop .decRle [0, 2] (List.replicate 63 0)
     s.state = .busy ∧ s.work.phase = .decRle ∧ s.build.outMax < s.work.out.length + (2 : Byte).toNat) ∧
    (let s := inLoop .decLz [0, 0, 0, 7] (List.replicate 64 0)
     s.state = .busy ∧ s.work.phase = .decLz ∧ s.build.outMax < s.work.out.length + 1 ∧
       (64 : BitVec 16).toNat ≤ s.work.out.length ∧
       s.build.outMax < s.work.out.length + (1 : Byte).toNat) ∧
    (let s := inLoop .decLz [0, 63, 1, 7] (List.replicate 63 0)
     (63 : BitVec 16).toNat ≤ s.work.out.length ∧
       s.build.outMax < s.work.out.length + (1 : Byte).toNat + 1) := by decide

/-- A leaf with a child, a node with loaded children, and a node that is its own child. -/
theorem witness_NodeRecordsLoadOrRaise :
    let s := inTree [.leaf 0x41 1, .leaf 0x42 1] 3
    s.state = .busy ∧ s.work.phase = .tree ∧
      ¬ ((0 : BitVec 16) = 0xFFFF ∧ (0xFFFF : BitVec 16) = 0xFFFF) ∧
      (1 : BitVec 16).toNat < s.work.arena.length ∧ (0 : BitVec 16).toNat < s.work.arena.length ∧
      ¬ ((0 : BitVec 16).toNat < s.work.arena.length ∧ (2 : BitVec 16).toNat < s.work.arena.length) := by
  decide

/-! ### Witnesses: codecs -/

theorem witness_RleDecodesEveryStream : ([0x41] : List Byte).length % 2 ≠ 0 := by decide

/-- Adjacent records of one value, and a sequence without adjacent equals. -/
theorem witness_RleOutputProperties :
    rleCompress (List.replicate 256 0x41) = [0x41, 255, 0x41, 1] ∧
      (∀ i, i + 1 < 2 → ([1, 2] : List Byte)[i]? ≠ ([1, 2] : List Byte)[i + 1]?) := by
  refine ⟨by decide +kernel, fun i hi => ?_⟩
  obtain rfl : i = 0 := by omega
  decide

/-- Runs of 1, 255 and 256 between other values. -/
theorem witness_RleSplitsRunsGreedily : ∀ r ∈ [1, 255, 256],
    1 ≤ r ∧ ([0x40] : List Byte).getLast? ≠ some 0x41 ∧ ([0x42] : List Byte).head? ≠ some 0x41 := by decide

theorem witness_RleRoundTrip : abra.length ≤ 11 := by decide

/-- The nearest and the farthest cell at a position past the window, and a match that is found. -/
theorem witness_LzSearchPicksTheLongestNearestMatch :
    3 ≤ abc.length ∧ 1 ≤ 1 ∧ 1 ≤ min 3 3 ∧ 3 ≤ min 3 3 ∧ search 3 255 abc 3 = (6, 3) ∧
      search 3 255 abc 0 = (0, 0) := by decide

theorem witness_LzOutputProperties :
    1 ≤ small.w ∧ small.w ≤ 65535 ∧ 1 ≤ small.l ∧ small.l ≤ 255 := by decide

theorem witness_LzRoundTrip :
    1 ≤ small.w ∧ small.w ≤ 65535 ∧ 1 ≤ small.l ∧ small.l ≤ 255 ∧ abc.length ≤ 9 := by decide

theorem witness_HuffmanMergesTheTwoLowest :
    let w : Work := { Work.init with arena := [.leaf 0x41 1, .leaf 0x42 1], active := [0, 1] }
    w.active.Nodup ∧ 2 ≤ w.active.length := by decide

theorem witness_HuffmanTreeProperties : abra ≠ [] := by decide

theorem witness_HuffmanCodesArePrefixFree : (0x41 : Byte) ∈ abra ∧ (0x42 : Byte) ∈ abra ∧
    (0x41 : Byte) ≠ 0x42 ∧ abra ≠ [] := by decide

theorem witness_HuffmanPayloadIsThePackedCodeString : ([0x5A] : List Byte) ≠ [] := by decide

theorem witness_SerialisedTreeReloads : abra ≠ [] ∧ abra.length < 2 ^ 32 := by decide

theorem witness_SuppliedTreeIsCheckedAsR98 : treeAB.length = 10 * 3 ∧ 1 ≤ 3 := by decide

theorem witness_HuffmanStopsAtOrigSize :
    1 ≤ 3 ∧ huffDecompress 64 [0x40] 3 treeAB 2 = .ok [0x41, 0x42] ∧ 2 ≤ 2 ∧ 0 ≤ 2 := by decide +kernel

/-- A tree with an internal root; one byte too many for `OUT_MAX`, as many as fit, one byte more than bits. -/
theorem witness_HuffmanStopsAtOrigSize_loaded :
    ∃ w : Work, 1 ≤ 3 ∧ 3 ≤ 511 ∧ loadTree 3 treeAB .init = .ok w ∧
      w.arena[rootOf w.arena]? = some (.node 2 0 1) ∧ 64 < 65 ∧ 64 ≤ 64 ∧ 8 * ([0x40] : List Byte).length < 9 :=
  ⟨{ Work.init with arena := [.leaf 0x41 1, .leaf 0x42 1, .node 2 0 1] }, by decide, by decide, by decide +kernel, rfl,
    by decide, by decide, by decide⟩

theorem witness_HuffmanLeafRoot :
    ∃ w : Work, loadTree 1 [1, 0x5A, 0, 0, 0, 3, 255, 255, 255, 255] .init = .ok w ∧
      w.arena[rootOf w.arena]? = some (.leaf 0x5A 3) ∧ 8 ≤ 64 :=
  ⟨{ Work.init with arena := [.leaf 0x5A 3] }, by decide +kernel, rfl, by decide⟩

theorem witness_HuffmanRoundTrip : abra.length ≤ 11 := by decide

/-! ### Witnesses: the whole machine -/

/-- Two states that differ in all that is not an input. -/
theorem witness_OutcomeDependsOnTheInputsAlone :
    let s := started 0x40 [0x41, 2]
    let s' : State := { s with cmd := 7, obuf := .holding 9 [1], draws := 50, readData := 3 }
    s.state = .busy ∧ s'.state = .busy ∧ s'.build = s.build ∧ s'.latched = s.latched ∧
      s'.inLen = s.inLen ∧ s'.origSize = s.origSize ∧ s'.metaLen = s.metaLen ∧
      (∀ i, i < s.inLen.toNat → s'.readByte .ibuf i = s.readByte .ibuf i) ∧
      (∀ i, i < 10 * s.metaLen.toNat → s'.readByte .mibuf i = s.readByte .mibuf i) :=
  ⟨rfl, rfl, rfl, rfl, rfl, rfl, rfl, fun _ _ => rfl, fun _ _ => rfl⟩

/-- A decoder in the middle of its stream. -/
def midStream : State :=
  { started 0x40 [0x41, 2, 0x42, 1] with
    work := { Work.init with phase := .decRle, pos := 2, out := [0x41, 0x41], record := [0x41, 2] } }

theorem midStream_inv : midStream.Inv where
  legal := by decide
  wf := fun id => by cases id <;> first | exact List.Pairwise.nil | exact Memory.wf_ofBytes _ _
  inside := fun id => by
    cases id <;> first | exact Buffer.inside_unspecified _ _ | exact Buffer.inside_holding (by decide)
  err := ⟨fun _ h => (nomatch h), fun _ => rfl⟩
  noResult := fun _ => rfl
  errorResult := fun _ h => (nomatch h)
  outBytes := fun h => (nomatch h)
  treeBytes := fun h => (nomatch h)
  ratio := Nat.zero_le _
  flags := by decide
  unspecified := fun _ => ⟨fun _ => rfl, fun _ => rfl⟩
  atRest := fun h => absurd rfl h
  running := fun _ =>
    { cands := fun _ h => (nomatch h)
      inMax := fun _ => by decide
      pos := by decide
      fill := by decide
      freq := List.length_replicate
      counted := fun h => (nomatch h)
      merging := fun h => (nomatch h)
      packing := fun h => (nomatch h)
      records := fun _ => by decide
      rleAligned := fun _ => by decide
      lzAligned := fun h => (nomatch h)
      loading := fun h => (nomatch h)
      walking := fun h => (nomatch h) }

/-- The invariant holds in a state from which a step is taken. -/
theorem witness_EveryStepKeepsTheInvariant :
    (midStream.withAgenda [.work]).Inv ∧ ∃ t, step (midStream.withAgenda [.work]) = .next t :=
  ⟨midStream_inv.withAgenda _, _, rfl⟩

theorem witness_PiecesMakeTheCompletionStep :
    let s := started 0x40 [0x41, 2]
    s.state = .busy ∧ s.work = .init ∧ s.agenda = [] := ⟨rfl, rfl, rfl⟩

/-- S1 compressed. -/
def packed : State := nextOf (exec (compressInstr .rle) (started 0x00 (List.replicate 10 0x41)))

/-- The state that is fed S1's result. -/
def fed : State := { started 0x40 [0x41, 10] with origSize := 10 }

theorem witness_EffectiveResultsDecompress :
    (started 0x00 (List.replicate 10 0x41)).state = .busy ∧ small.Legal ∧
      exec (compressInstr .rle) (started 0x00 (List.replicate 10 0x41)) = .next packed ∧
      packed.state = .done ∧ packed.res.rInfo.getLsbD 8 = false ∧ fed.state = .busy ∧
      fed.build = small ∧ fed.inLen = packed.res.outLen ∧ fed.metaLen = packed.res.rMetaLen ∧
      fed.origSize = packed.res.rOrig ∧
      (∀ i, i < packed.res.outLen.toNat → fed.readByte .ibuf i = packed.readByte .obuf i) ∧
      (∀ i, i < 10 * packed.res.rMetaLen.toNat → fed.readByte .mibuf i = packed.readByte .mobuf i) :=
  ⟨rfl, by decide, rfl, rfl, by decide +kernel, rfl, rfl, by decide +kernel, by decide +kernel,
    by decide +kernel, by decide +kernel, by decide +kernel⟩

end Sys2Proof.Tests
end

section
/-! Proofs of the statements on the host-visible state (spec 10): reset, the `CTRL` strobes, and what the outcome of a
command depends on. -/

namespace Sys2Proof.Machine

open Sys2Proof

/-! ### The strobes where they are taken -/

theorem exec_start_of_not_busy {s : State} (h : s.state ≠ .busy) (rest : BitVec 31) :
    exec (.start rest) s = .next s.startCommand := by
  rw [exec_start, if_neg h]

theorem exec_start_of_busy {s : State} (h : s.state = .busy) (rest : BitVec 31) :
    exec (.start rest) s = .next s := by
  rw [exec_start, if_pos h]

theorem exec_clear_of_ended {s : State} (h : s.state = .done ∨ s.state = .error) (rest : BitVec 30) :
    exec (.clear rest) s = .next s.clearResult := by
  rw [exec_clear, if_pos h]

theorem exec_clear_of_not_ended {s : State} (h : ¬ (s.state = .done ∨ s.state = .error)) (rest : BitVec 30) :
    exec (.clear rest) s = .next s := by
  rw [exec_clear, if_neg h]

/-- `START` overwrites the per-call structures. -/
theorem startCommand_withWork (s : State) (w : Work) : (s.withWork w).startCommand = s.startCommand := rfl

/-! ### Reset -/

theorem unspecified_buf_reset (id : BufId) : (State.reset.buf id).Unspecified := by
  cases id <;> exact Buffer.unspecified_unspecified 0

/-- Settles O5: the reset values are read off `State.reset`, and `START` overwrites the per-call structures. -/
theorem resetState : Obligations.ResetState := by
  refine ⟨⟨rfl, rfl, rfl, rfl, rfl, rfl, rfl, rfl, allZero_zero⟩, unspecified_buf_reset, ?_⟩
  intro s w rest h
  rw [exec_start_of_not_busy h, exec_start_of_not_busy (s := s.withWork w) h, startCommand_withWork]

/-! ### `START` and `CLEAR` as instructions -/

/-- Settles O14: outside `BUSY`, `START` is `State.startCommand`. -/
theorem startTakesTheCommand : Obligations.StartTakesTheCommand := fun s rest h =>
  ⟨s.startCommand, exec_start_of_not_busy h rest, rfl, allZero_zero, rfl, rfl,
    Buffer.unspecified_unspecified _, Buffer.unspecified_unspecified _, sameInputs_startCommand s⟩

/-- Settles O15: in `DONE` and `ERROR`, `CLEAR` is `State.clearResult` and `START` is `State.startCommand`. -/
theorem clearReturnsToIdle : Obligations.ClearReturnsToIdle := by
  intro s rest h
  have hb : s.state ≠ .busy := by rcases h with h | h <;> simp [h]
  constructor
  · exact ⟨s.clearResult, exec_clear_of_ended h rest, allZero_zero, rfl, rfl,
      Buffer.unspecified_unspecified _, Buffer.unspecified_unspecified _, rfl, sameInputs_clearResult s⟩
  · exact fun rest' => ⟨s.startCommand, exec_start_of_not_busy hb rest', allZero_zero, rfl,
      Buffer.unspecified_unspecified _, Buffer.unspecified_unspecified _⟩

/-! ### A write of `CTRL` -/

/-- A field of one bit is the bit. -/
theorem extractLsb'_one_eq_one_iff {n : Nat} (x : BitVec n) (i : Nat) :
    x.extractLsb' i 1 = 1 ↔ x.getLsbD i = true := by
  rw [BitVec.eq_of_getLsbD_eq_iff]
  simp

theorem extractLsb'_one_ne_one {n : Nat} {x : BitVec n} {i : Nat} (h : x.getLsbD i = false) :
    x.extractLsb' i 1 ≠ 1 := fun he => by
  simp [(extractLsb'_one_eq_one_iff x i).1 he] at h

theorem decodeCtrl_of_start {v : Word} (h : v.getLsbD 0 = true) :
    decodeCtrl v = .ok (.start (v.extractLsb' 1 31)) := by
  rw [decodeCtrl, if_pos ((extractLsb'_one_eq_one_iff v 0).2 h)]

theorem decodeCtrl_of_clear {v : Word} (h0 : v.getLsbD 0 = false) (h1 : v.getLsbD 1 = true) :
    decodeCtrl v = .ok (.clear (v.extractLsb' 2 30)) := by
  rw [decodeCtrl, if_neg (extractLsb'_one_ne_one h0),
    if_pos ((extractLsb'_one_eq_one_iff v 1).2 h1)]

theorem decodeCtrl_of_neither {v : Word} (h0 : v.getLsbD 0 = false) (h1 : v.getLsbD 1 = false) :
    decodeCtrl v = .error .noStrobe := by
  rw [decodeCtrl, if_neg (extractLsb'_one_ne_one h0),
    if_neg (extractLsb'_one_ne_one h1)]

/-- `CTRL` is a word of the register block wherever the windows are. -/
theorem wordAt_ctrl (b : Build) : wordAt b (b.base + 4) = true := wordAt_of_regAt (regAt_base b 4)

section
variable {s : State} {v : Word} {q : List Event}

/-- A word with a strobe, written to `CTRL`, is its instruction. -/
theorem step_ctrl_ok {i : Instr} (h : s.agenda = .host (.writeReg (s.build.base + 4) v) :: q)
    (hd : decodeCtrl v = .ok i) : step s = exec i (s.withAgenda q) := by
  have hw : (s.withAgenda q).hostWrite (s.build.base + 4) v = .run i (s.withAgenda q) := by
    rw [← State.withAgenda_build s q, hostWrite_base _ (wordAt_ctrl _)]
    simp [Reg.ofOffset, hd]
  rw [step_of_cons h, State.turn, State.hostTurn, hw, Act.outcome_run]

/-- A word with no strobe, written to `CTRL`, does nothing. -/
theorem step_ctrl_error {e : DecodeError} (h : s.agenda = .host (.writeReg (s.build.base + 4) v) :: q)
    (hd : decodeCtrl v = .error e) : step s = .next (s.withAgenda q) := by
  have hw : (s.withAgenda q).hostWrite (s.build.base + 4) v = .settled (.next (s.withAgenda q)) := by
    rw [← State.withAgenda_build s q, hostWrite_base _ (wordAt_ctrl _)]
    simp [Reg.ofOffset, hd]
  rw [step_of_cons h, State.turn, State.hostTurn, hw, Act.outcome_settled]

/-- A write of `CTRL` without `START` does nothing where `CLEAR` is not taken. -/
theorem step_ctrl_of_not_ended (h : s.agenda = .host (.writeReg (s.build.base + 4) v) :: q)
    (h0 : v.getLsbD 0 = false) (hs : ¬ (s.state = .done ∨ s.state = .error)) :
    step s = .next (s.withAgenda q) := by
  cases h1 : v.getLsbD 1 with
  | true =>
    exact (step_ctrl_ok h (decodeCtrl_of_clear h0 h1)).trans
      (exec_clear_of_not_ended (s := s.withAgenda q) hs _)
  | false => exact step_ctrl_error h (decodeCtrl_of_neither h0 h1)

/-- A write of `CTRL` is dropped in `BUSY`. -/
theorem step_ctrl_of_busy (h : s.agenda = .host (.writeReg (s.build.base + 4) v) :: q)
    (hb : s.state = .busy) : step s = .next (s.withAgenda q) := by
  cases h0 : v.getLsbD 0 with
  | true =>
    exact (step_ctrl_ok h (decodeCtrl_of_start h0)).trans (exec_start_of_busy (s := s.withAgenda q) hb _)
  | false => exact step_ctrl_of_not_ended h h0 (by simp [hb])

end

/-- Settles O12: by the strobe bits of the word and the state. -/
theorem ctrlStrobes : Obligations.CtrlStrobes := by
  intro s v q h
  refine ⟨fun h0 hb => ?_, fun h0 h1 hs => ?_, step_ctrl_of_busy h, fun h0 hi => ?_, fun h0 h1 => ?_, rfl⟩
  · exact (step_ctrl_ok h (decodeCtrl_of_start h0)).trans
      (exec_start_of_not_busy (s := s.withAgenda q) hb _)
  · exact (step_ctrl_ok h (decodeCtrl_of_clear h0 h1)).trans
      (exec_clear_of_ended (s := s.withAgenda q) hs _)
  · exact step_ctrl_of_not_ended h h0 (by simp [hi])
  · exact step_ctrl_error h (decodeCtrl_of_neither h0 h1)

/-! ### What the outcome of a command depends on -/

/-- The two states agree in the inputs of rule R11: the build, the operand registers and the input bytes they
name. -/
structure SameOperands (s s' : State) : Prop where
  build : s'.build = s.build
  inLen : s'.inLen = s.inLen
  origSize : s'.origSize = s.origSize
  metaLen : s'.metaLen = s.metaLen
  ibuf : ∀ i, i < s.inLen.toNat → s'.readByte .ibuf i = s.readByte .ibuf i
  mibuf : ∀ i, i < 10 * s.metaLen.toNat → s'.readByte .mibuf i = s.readByte .mibuf i

/-- The two states agree in the outcome of rule R11: `STATUS`, the result registers but `R_TIME`, and the output
bytes below their result lengths. -/
structure SameOutcome (t t' : State) : Prop where
  status : t'.statusWord = t.statusWord
  res : { t'.res with rTime := t.res.rTime } = t.res
  obuf : ∀ i, i < t.res.outLen.toNat → t'.readByte .obuf i = t.readByte .obuf i
  mobuf : ∀ i, i < 10 * t.res.rMetaLen.toNat → t'.readByte .mobuf i = t.readByte .mobuf i

/-- A completion step whose outcome depends on the inputs alone. -/
def OutcomeOfOperands (f : State → State) : Prop := ∀ s s', SameOperands s s' → SameOutcome (f s) (f s')

theorem SameOperands.n {s s' : State} (h : SameOperands s s') : s'.n = s.n := by rw [State.n, h.inLen, State.n]

theorem SameOperands.input {s s' : State} (h : SameOperands s s') : s'.input = s.input := by
  rw [State.input, State.input, h.n]
  exact State.readBytes_congr fun i hi => by simpa using h.ibuf i hi

theorem SameOperands.metaBytes {s s' : State} (h : SameOperands s s') : s'.metaBytes = s.metaBytes := by
  rw [State.metaBytes, State.metaBytes, h.metaLen]
  exact State.readBytes_congr fun i hi => by simpa using h.mibuf i hi

theorem SameOperands.decompressed {s s' : State} (h : SameOperands s s') (a : Alg) :
    s'.decompressed a = s.decompressed a := by
  cases a <;> simp only [State.decompressed, h.build, h.input, h.metaLen, h.metaBytes, h.origSize]

/-- Buffers that hold the same bytes read alike below their number. -/
theorem read_holding_congr (id : BufId) (g g' : Nat) {bs : List Byte} {i : Nat} (hi : i < bs.length) :
    (Buffer.holding g' bs).read id i = (Buffer.holding g bs).read id i := by
  rw [(Buffer.holds_holding g' bs).read id hi, (Buffer.holds_holding g bs).read id hi]

/-- The error form of the completion step has result lengths 0: nothing in the output buffers counts. -/
theorem sameOutcome_raise (s s' : State) (k : ErrKind) : SameOutcome (s.raise k) (s'.raise k) := by
  have e := errorForm_raise s k
  refine ⟨rfl, rfl, fun i hi => ?_, fun i hi => ?_⟩
  · rw [e.outLen] at hi; exact absurd hi (Nat.not_lt_zero i)
  · rw [e.rMetaLen] at hi; exact absurd hi (Nat.not_lt_zero i)

/-- Two completion steps with one result: the output lengths must not exceed the bytes written. -/
theorem sameOutcome_finish (s s' : State) {r r' : Results} {out tree : List Byte}
    (hr : { r' with rTime := r.rTime } = r) (ho : r.outLen.toNat ≤ out.length)
    (ht : 10 * r.rMetaLen.toNat ≤ tree.length) :
    SameOutcome (s.finish r out tree) (s'.finish r' out tree) where
  status := rfl
  res := hr
  obuf _ hi := read_holding_congr .obuf _ _ (hi.trans_le ho)
  mobuf _ hi := read_holding_congr .mobuf _ _ (hi.trans_le ht)

/-- A length in a register is at most the length: it is the length modulo 2^32 (log 22). -/
theorem toNat_ofNat_le (n : Nat) : (BitVec.ofNat 32 n).toNat ≤ n := by
  rw [BitVec.toNat_ofNat]; exact Nat.mod_le _ _

/-- Bytes alone, as `DECOMPRESS` and `LIST_ALGORITHMS` answer them. -/
theorem sameOutcome_finish_bytes (s s' : State) (out : List Byte) :
    SameOutcome (s.finish { Results.zero with outLen := BitVec.ofNat 32 out.length } out [])
      (s'.finish { Results.zero with outLen := BitVec.ofNat 32 out.length } out []) :=
  sameOutcome_finish s s' rfl (toNat_ofNat_le _) (by simp)

/-- A compress result: only `R_TIME` is drawn (rule R19). -/
theorem sameOutcome_publish (s s' : State) (r : Result) (tested : List Result) (mask : Nat) :
    SameOutcome (s.publish r tested mask) (s'.publish r tested mask) :=
  sameOutcome_finish s s' rfl (toNat_ofNat_le _)
    (by rw [serialise_length]; exact Nat.mul_le_mul_left 10 (toNat_ofNat_le _))

theorem outcomeOfOperands_raise (k : ErrKind) : OutcomeOfOperands (fun s => s.raise k) :=
  fun s s' _ => sameOutcome_raise s s' k

theorem outcomeOfOperands_compress (a : Alg) : OutcomeOfOperands (State.compress a) := by
  intro s s' h
  simp only [State.compress, State.endCompress, h.build, h.n, h.input]
  split
  · exact sameOutcome_raise s s' _
  · split
    · exact sameOutcome_raise s s' _
    · exact sameOutcome_publish s s' _ _ _

theorem outcomeOfOperands_decompress (a : Alg) : OutcomeOfOperands (State.decompress a) := by
  intro s s' h
  simp only [State.decompress, h.build, h.n, h.decompressed]
  split
  · exact sameOutcome_raise s s' _
  · cases s.decompressed a with
    | error k => exact sameOutcome_raise s s' k
    | ok out => exact sameOutcome_finish_bytes s s' out

theorem outcomeOfOperands_smart : OutcomeOfOperands State.smart := by
  intro s s' h
  simp only [State.smart, State.endSmart, h.build, h.n, h.input]
  split
  · exact sameOutcome_raise s s' _
  · split
    · exact sameOutcome_raise s s' _
    · exact sameOutcome_publish s s' _ _ _

theorem outcomeOfOperands_list : OutcomeOfOperands State.list := by
  intro s s' h
  rw [State.list, State.list, h.build]
  exact sameOutcome_finish_bytes s s' _

/-- A command is the engine's guard around a completion step whose outcome depends on the inputs alone. -/
theorem exec_command_outcomeOfOperands {i : Instr} (h : i.format = .cmd8) :
    ∃ f, (∀ s, exec i s = whenBusy f s) ∧ OutcomeOfOperands f := by
  cases i <;> cases h
  · exact ⟨_, exec_compress .rle, outcomeOfOperands_compress .rle⟩
  · exact ⟨_, exec_compress .huffman, outcomeOfOperands_compress .huffman⟩
  · exact ⟨_, exec_compress .lz77, outcomeOfOperands_compress .lz77⟩
  · exact ⟨_, exec_compressUnsupported _, outcomeOfOperands_raise _⟩
  · exact ⟨_, exec_decompress .rle, outcomeOfOperands_decompress .rle⟩
  · exact ⟨_, exec_decompress .huffman, outcomeOfOperands_decompress .huffman⟩
  · exact ⟨_, exec_decompress .lz77, outcomeOfOperands_decompress .lz77⟩
  · exact ⟨_, exec_decompressUnsupported _, outcomeOfOperands_raise _⟩
  · exact ⟨_, exec_smartCompress _, outcomeOfOperands_smart⟩
  · exact ⟨_, exec_listAlgorithms _, outcomeOfOperands_list⟩

/-- Settles O56: every command byte is a command, and each command's completion step reads nothing but its inputs. -/
theorem outcomeDependsOnTheInputsAlone : Obligations.OutcomeDependsOnTheInputsAlone := by
  intro s s' hb hb' hbuild hlatched hin horig hmeta hibuf hmibuf
  obtain ⟨-, -, hcmd⟩ := encode_decodeCmd s.latched
  obtain ⟨f, hf, hdep⟩ := exec_command_outcomeOfOperands hcmd
  obtain ⟨hstatus, hres, hobuf, hmobuf⟩ := hdep s s' ⟨hbuild, hin, horig, hmeta, hibuf, hmibuf⟩
  refine ⟨f s, f s', ?_, ?_, hstatus, hres, hobuf, hmobuf⟩
  · rw [hf, whenBusy_of_busy hb]
  · rw [hlatched, hf, whenBusy_of_busy hb']

end Sys2Proof.Machine
end

section
/-! Proofs of the statements on the RLE codec (spec 41). A stream is read as its list of records; the streams the
encoder writes are those of the canonical lists, of which every input has exactly one. -/

namespace Sys2Proof.Machine

open Sys2Proof

/-! ### Records and their bytes -/

/-- The stream of a list of records `(value, count)`. -/
def recordBytes (recs : List (Byte × Byte)) : List Byte := recs.flatMap fun r => [r.1, r.2]

/-- The bytes a list of records stands for. -/
def recordOutput (recs : List (Byte × Byte)) : List Byte := recs.flatMap fun r => List.replicate r.2.toNat r.1

@[simp] theorem recordBytes_nil : recordBytes [] = [] := rfl

@[simp] theorem recordBytes_cons (r : Byte × Byte) (recs : List (Byte × Byte)) :
    recordBytes (r :: recs) = r.1 :: r.2 :: recordBytes recs := rfl

@[simp] theorem recordBytes_append (a b : List (Byte × Byte)) :
    recordBytes (a ++ b) = recordBytes a ++ recordBytes b := List.flatMap_append

@[simp] theorem recordOutput_nil : recordOutput [] = [] := rfl

@[simp] theorem recordOutput_cons (r : Byte × Byte) (recs : List (Byte × Byte)) :
    recordOutput (r :: recs) = List.replicate r.2.toNat r.1 ++ recordOutput recs := rfl

@[simp] theorem recordOutput_append (a b : List (Byte × Byte)) :
    recordOutput (a ++ b) = recordOutput a ++ recordOutput b := List.flatMap_append

@[simp] theorem recordBytes_length (recs : List (Byte × Byte)) : (recordBytes recs).length = 2 * recs.length := by
  induction recs with
  | nil => rfl
  | cons r recs ih => simp only [recordBytes_cons, List.length_cons, ih]; omega

theorem recordOutput_replicate (k : Nat) (r : Byte × Byte) :
    recordOutput (List.replicate k r) = List.replicate (k * r.2.toNat) r.1 := by
  simp [recordOutput, List.flatMap_replicate]

theorem recordBytes_replicate (k : Nat) (r : Byte × Byte) :
    recordBytes (List.replicate k r) = (List.replicate k [r.1, r.2]).flatten := by
  simp [recordBytes, List.flatMap_replicate]

theorem recordOutput_length (recs : List (Byte × Byte)) :
    (recordOutput recs).length = (recs.map fun r => r.2.toNat).sum := by
  simp [recordOutput, List.length_flatMap]

/-- What a stream of records stands for, in the words of the model's decoder. -/
theorem expandRle_recordBytes (recs : List (Byte × Byte)) : expandRle (recordBytes recs) = recordOutput recs := by
  induction recs with
  | nil => rfl
  | cons r recs ih => rw [recordBytes_cons, expandRle, ih, recordOutput_cons]

/-- The decoder on a stream of records (rule R126). -/
theorem rleDecompress_recordBytes (outMax : Nat) (recs : List (Byte × Byte)) :
    rleDecompress outMax (recordBytes recs) =
      if (recordOutput recs).length ≤ outMax then .ok (recordOutput recs) else .error .capacityExceeded := by
  rw [rleDecompress_eq, expandRle_recordBytes, if_neg (by simp)]

/-- Settles O39: the decoder's equation, read on the stream of a list of records and on one of odd length. -/
theorem rleDecodesEveryStream : Obligations.RleDecodesEveryStream := by
  refine ⟨fun outMax recs => ?_, fun outMax inp hodd => ?_⟩
  · rw [← recordOutput_length]
    exact rleDecompress_recordBytes outMax recs
  · rw [rleDecompress_eq, if_pos hodd]

/-! ### Canonical lists of records -/

/-- No record is empty, and a run goes on in the next record only where the first holds all it can (rule R123 (a),
(c)). -/
structure RleCanonical (recs : List (Byte × Byte)) : Prop where
  count_pos : ∀ r ∈ recs, 1 ≤ r.2.toNat
  split_full : recs.IsChain fun a b => a.1 = b.1 → a.2.toNat = 255

theorem RleCanonical.nil : RleCanonical [] := ⟨by simp, .nil⟩

/-- A list of non-empty records begins with the value of its first record. -/
theorem head?_recordOutput {recs : List (Byte × Byte)} (h : ∀ r ∈ recs, 1 ≤ r.2.toNat) :
    (recordOutput recs).head? = recs.head?.map Prod.fst := by
  cases recs with
  | nil => rfl
  | cons r recs =>
    have hr : r.2.toNat ≠ 0 := Nat.one_le_iff_ne_zero.1 (h r List.mem_cons_self)
    simp [List.head?_append, List.head?_replicate, hr]

/-- A list of non-empty records ends with the value of its last record. -/
theorem getLast?_recordOutput {recs : List (Byte × Byte)} {r : Byte × Byte} (h : ∀ r ∈ recs, 1 ≤ r.2.toNat)
    (hr : r ∈ recs.getLast?) : (recordOutput recs).getLast? = some r.1 := by
  obtain ⟨init, rfl⟩ := List.getLast?_eq_some_iff.1 hr
  have hr : r.2.toNat ≠ 0 := Nat.one_le_iff_ne_zero.1 (h r (by simp))
  simp [List.getLast?_append, List.getLast?_replicate, hr]

/-- A canonical list is a run that ends at 255 bytes or at a different byte, and a canonical list after it. -/
theorem rleCanonical_cons {r : Byte × Byte} {recs : List (Byte × Byte)} :
    RleCanonical (r :: recs) ↔
      1 ≤ r.2.toNat ∧ (r.2.toNat = 255 ∨ (recordOutput recs).head? ≠ some r.1) ∧ RleCanonical recs := by
  have key : (∀ r ∈ recs, 1 ≤ r.2.toNat) → ((∀ b ∈ recs.head?, r.1 = b.1 → r.2.toNat = 255) ↔
      (r.2.toNat = 255 ∨ (recordOutput recs).head? ≠ some r.1)) := by
    intro h
    rw [head?_recordOutput h]
    cases recs.head? with
    | none => simp
    | some b => simp [or_iff_not_imp_right, eq_comm]
  constructor
  · rintro ⟨hpos, hsplit⟩
    obtain ⟨hr, hrecs⟩ := List.forall_mem_cons.1 hpos
    obtain ⟨hhead, hchain⟩ := List.isChain_cons.1 hsplit
    exact ⟨hr, (key hrecs).1 hhead, hrecs, hchain⟩
  · rintro ⟨hr, hmax, hrecs, hchain⟩
    exact ⟨List.forall_mem_cons.2 ⟨hr, hrecs⟩, List.isChain_cons.2 ⟨(key hrecs).2 hmax, hchain⟩⟩

/-- Canonical lists join where the byte changes. -/
theorem RleCanonical.append {a b : List (Byte × Byte)} (ha : RleCanonical a) (hb : RleCanonical b)
    (h : ∀ v, (recordOutput a).getLast? = some v → (recordOutput b).head? ≠ some v) : RleCanonical (a ++ b) where
  count_pos r hr := (List.mem_append.1 hr).elim (ha.count_pos r) (hb.count_pos r)
  split_full := ha.split_full.append hb.split_full fun r hr s hs he => by
    refine absurd ?_ (h r.1 (getLast?_recordOutput ha.count_pos hr))
    rw [head?_recordOutput hb.count_pos, Option.mem_def.1 hs, he, Option.map_some]

/-- A run cut at 255 bytes or at a different byte is at least as long as any other run the bytes begin with. -/
theorem run_le_run {v : Byte} {c d : Nat} {a b : List Byte} (h : List.replicate c v ++ a = List.replicate d v ++ b)
    (hd : d ≤ 255) (hmax : c = 255 ∨ a.head? ≠ some v) : d ≤ c := by
  by_contra hlt
  have ha : a = List.replicate (d - c) v ++ b := by
    rw [show d = c + (d - c) by omega, ← List.replicate_append_replicate, List.append_assoc] at h
    exact List.append_cancel_left h
  rcases hmax with hc | hhead
  · omega
  · exact hhead (by simp [ha, List.head?_append, List.head?_replicate, show d - c ≠ 0 by omega])

/-- Canonical lists that stand for the same bytes begin with the same value. -/
theorem RleCanonical.head?_eq {a b : List (Byte × Byte)} (ha : RleCanonical a) (hb : RleCanonical b)
    (h : recordOutput a = recordOutput b) : a.head?.map Prod.fst = b.head?.map Prod.fst := by
  rw [← head?_recordOutput ha.count_pos, ← head?_recordOutput hb.count_pos, h]

/-- Every input has at most one canonical list. -/
theorem RleCanonical.eq_of_output {a b : List (Byte × Byte)} (ha : RleCanonical a) (hb : RleCanonical b)
    (h : recordOutput a = recordOutput b) : a = b := by
  induction a generalizing b with
  | nil => cases b with
    | nil => rfl
    | cons s b => simpa using ha.head?_eq hb h
  | cons r a ih => cases b with
    | nil => simpa using ha.head?_eq hb h
    | cons s b =>
      obtain ⟨v, c⟩ := r
      obtain ⟨v', d⟩ := s
      obtain rfl : v = v' := by simpa using ha.head?_eq hb h
      obtain ⟨-, hc, ha'⟩ := rleCanonical_cons.1 ha
      obtain ⟨-, hd, hb'⟩ := rleCanonical_cons.1 hb
      simp only [recordOutput_cons] at h
      obtain rfl : c = d := BitVec.eq_of_toNat_eq
        (Nat.le_antisymm (run_le_run h.symm (by omega) hd) (run_le_run h (by omega) hc))
      rw [ih ha' hb' (List.append_cancel_left h)]

/-! ### The encoder writes the canonical list -/

/-- The encoder's loop from any cursor: the canonical list of the rest of the input is appended. -/
theorem rleLoop_emits (inp : List Byte) (n : Nat) (w : Work) (hn : inp.length ≤ w.pos + n) :
    ∃ recs, RleCanonical recs ∧ recordOutput recs = inp.drop w.pos ∧
      (runLoop (inputDone inp) (rleEncBody inp) n w).out = w.out ++ recordBytes recs := by
  induction n generalizing w with
  | zero => exact ⟨[], .nil, (List.drop_eq_nil_of_le hn).symm, by simp [runLoop]⟩
  | succ n ih =>
    by_cases hp : inp.length ≤ w.pos
    · rw [runLoop_of_done ((inputDone_iff _ _).2 hp)]
      exact ⟨[], .nil, (List.drop_eq_nil_of_le hp).symm, by simp⟩
    · obtain ⟨v, c, hc, hc', hle, htake, hmax, hbody⟩ := rleEncBody_spec inp w (not_le.1 hp)
      obtain ⟨recs, hcanon, hout, hloop⟩ := ih (rleEncBody inp w) (by rw [hbody]; simp only; omega)
      have hcount : (byteOf c).toNat = c := byteOf_toNat (by omega)
      rw [hbody] at hout
      refine ⟨(v, byteOf c) :: recs, rleCanonical_cons.2 ⟨?_, ?_, hcanon⟩, ?_, ?_⟩
      · rwa [hcount]
      · rwa [hcount, hout, List.head?_drop]
      · rw [recordOutput_cons, hcount, hout, ← htake, ← List.drop_drop, List.take_append_drop]
      · rw [runLoop_succ_of_not_done ((inputDone_false _ _).2 (not_le.1 hp)), hloop, hbody]
        simp

/-- The encoder on any input (rules R121, R123). -/
theorem exists_rleCompress_eq (x : List Byte) :
    ∃ recs, RleCanonical recs ∧ recordOutput recs = x ∧ rleCompress x = recordBytes recs :=
  rleLoop_emits x x.length .init (Nat.le_add_left _ _)

/-- The encoder on what a canonical list stands for gives that list. -/
theorem rleCompress_recordOutput {recs : List (Byte × Byte)} (h : RleCanonical recs) :
    rleCompress (recordOutput recs) = recordBytes recs := by
  obtain ⟨recs', h', hout, hcomp⟩ := exists_rleCompress_eq (recordOutput recs)
  rw [hcomp, h'.eq_of_output h hout]

/-- Settles O42: the encoder's stream is one of records that stand for the input; the record `(v, 0)` decodes to no
byte, and no byte is encoded as no record. -/
theorem rleRoundTrip : Obligations.RleRoundTrip := by
  refine ⟨fun x outMax hx => ?_, [0x41, 0], [], by decide, by decide⟩
  obtain ⟨recs, -, rfl, hcomp⟩ := exists_rleCompress_eq x
  rw [hcomp, rleDecompress_recordBytes, if_pos hx]

/-- Non-empty records are no more than their bytes. -/
theorem length_le_recordOutput {recs : List (Byte × Byte)} (h : ∀ r ∈ recs, 1 ≤ r.2.toNat) :
    recs.length ≤ (recordOutput recs).length := by
  induction recs with
  | nil => simp
  | cons r recs ih =>
    obtain ⟨hr, hrecs⟩ := List.forall_mem_cons.1 h
    have := ih hrecs
    simp only [recordOutput_cons, List.length_cons, List.length_append, List.length_replicate]
    omega

/-- Where no two adjacent bytes are equal, every non-empty record stands for one byte. -/
theorem length_eq_recordOutput {recs : List (Byte × Byte)} (h : ∀ r ∈ recs, 1 ≤ r.2.toNat)
    (hne : (recordOutput recs).IsChain (· ≠ ·)) : (recordOutput recs).length = recs.length := by
  induction recs with
  | nil => rfl
  | cons r recs ih =>
    obtain ⟨hr, hrecs⟩ := List.forall_mem_cons.1 h
    rw [recordOutput_cons] at hne
    have hone : r.2.toNat = 1 := by
      by_contra hr1
      obtain ⟨k, hk⟩ : ∃ k, r.2.toNat = k + 2 := ⟨r.2.toNat - 2, by omega⟩
      have := hne.left_of_append
      simp [hk, List.replicate_succ] at this
    simp [hone, ih hrecs hne.right_of_append, Nat.add_comm]

/-- Settles O40: each property read off the canonical list of the input. -/
theorem rleOutputProperties : Obligations.RleOutputProperties := by
  intro x
  obtain ⟨recs, hcanon, rfl, hcomp⟩ := exists_rleCompress_eq x
  have hlen : (rleCompress (recordOutput recs)).length = 2 * recs.length := by rw [hcomp, recordBytes_length]
  refine ⟨recs, hcomp, hcanon.count_pos, hlen, fun i a b ha hb he => ?_, ?_, fun hne => ?_, fun hx => ?_⟩
  · obtain ⟨hi, rfl⟩ := List.getElem?_eq_some_iff.1 ha
    obtain ⟨hi', rfl⟩ := List.getElem?_eq_some_iff.1 hb
    exact List.isChain_iff_getElem.1 hcanon.split_full i hi' he
  · rw [hlen]
    exact Nat.mul_le_mul_left 2 (length_le_recordOutput hcanon.count_pos)
  · have hchain : (recordOutput recs).IsChain (· ≠ ·) :=
      List.isChain_iff_getElem.2 fun i hi => by
        simpa [List.getElem?_eq_getElem hi, List.getElem?_eq_getElem (Nat.lt_of_succ_lt hi)] using hne i hi
    rw [hlen, length_eq_recordOutput hcanon.count_pos hchain]
  · rw [hx]; rfl

/-! ### A maximal run -/

/-- The records of a run of `r` bytes `v`: as many full ones as fit, and one of the rest (rule R124). -/
def runRecords (v : Byte) (r : Nat) : List (Byte × Byte) :=
  List.replicate (r / 255) (v, 255) ++ if r % 255 = 0 then [] else [(v, byteOf (r % 255))]

theorem recordOutput_runRecords (v : Byte) (r : Nat) : recordOutput (runRecords v r) = List.replicate r v := by
  have hfull : recordOutput (List.replicate (r / 255) (v, 255)) = List.replicate (r / 255 * 255) v :=
    recordOutput_replicate _ _
  have hrest : recordOutput (if r % 255 = 0 then [] else [(v, byteOf (r % 255))]) = List.replicate (r % 255) v := by
    split
    · next h => rw [h]; rfl
    · simp [byteOf_toNat (show r % 255 < 256 by omega)]
  rw [runRecords, recordOutput_append, hfull, hrest, List.replicate_append_replicate, Nat.div_add_mod']

theorem recordBytes_runRecords (v : Byte) (r : Nat) :
    recordBytes (runRecords v r) = (List.replicate (r / 255) [v, 255]).flatten ++
      (if r % 255 = 0 then [] else [v, BitVec.ofNat 8 (r % 255)]) := by
  rw [runRecords, recordBytes_append, recordBytes_replicate]
  split <;> rfl

theorem rleCanonical_runRecords (v : Byte) (r : Nat) : RleCanonical (runRecords v r) := by
  constructor
  · intro a ha
    rcases List.mem_append.1 ha with ha | ha
    · rw [List.eq_of_mem_replicate ha]
      exact (by decide : 1 ≤ (255 : Byte).toNat)
    · split at ha
      · cases ha
      · rw [List.mem_singleton.1 ha, byteOf_toNat (by omega)]; omega
  · refine List.IsChain.append (List.isChain_replicate_of_rel _ fun _ => rfl) (by split <;> simp) ?_
    intro a ha b _ _
    rw [List.eq_of_mem_replicate (List.mem_of_mem_getLast? ha)]
    rfl

/-- Settles O41: the canonical lists of what stands before, of the run and of what stands after join to the canonical
list of the whole. -/
theorem rleSplitsRunsGreedily : Obligations.RleSplitsRunsGreedily := by
  intro p q v r hr hp hq
  obtain ⟨ps, hps, rfl, hcp⟩ := exists_rleCompress_eq p
  obtain ⟨qs, hqs, rfl, hcq⟩ := exists_rleCompress_eq q
  have hr : r ≠ 0 := Nat.one_le_iff_ne_zero.1 hr
  have hbefore : RleCanonical (ps ++ runRecords v r) := by
    refine hps.append (rleCanonical_runRecords v r) fun u hu huv => hp ?_
    obtain rfl : v = u := by simpa [recordOutput_runRecords, List.head?_replicate, hr] using huv
    exact hu
  have hall : RleCanonical (ps ++ runRecords v r ++ qs) := by
    refine hbefore.append hqs fun u hu => ?_
    obtain rfl : v = u := by
      simpa [recordOutput_runRecords, List.getLast?_append, List.getLast?_replicate, hr] using hu
    exact hq
  calc rleCompress (recordOutput ps ++ List.replicate r v ++ recordOutput qs)
      = recordBytes (ps ++ runRecords v r ++ qs) := by
        rw [← rleCompress_recordOutput hall, recordOutput_append, recordOutput_append, recordOutput_runRecords]
    _ = _ := by
        simp only [hcp, hcq, recordBytes_append, recordBytes_runRecords, List.append_assoc]

end Sys2Proof.Machine
end

section
/-! Proofs of the statements on the Huffman codec (spec 42). The tree builder keeps `Forest`; the code words of the
finished tree are paths from its root (`CodeWord`); the packer lays them out in the payload (`BitsAt`), and the bit walk
reads them back. -/

namespace Sys2Proof.Machine

open Sys2Proof

/-! ### A pass over the input -/

/-- A loop that reads the input byte by byte: what holds of no bytes read and goes on with each byte holds of the whole
input at the end. -/
theorem runLoop_input {inp : List Byte} {body : Work → Work} {R : List Byte → Work → Prop}
    (hpos : ∀ w, (body w).pos = w.pos + 1)
    (hstep : ∀ seen w, R seen w → R (seen ++ [at0 inp w.pos]) (body w))
    {w : Work} (hw : w.pos = 0) (h0 : R [] w) : R inp (runLoop (inputDone inp) body inp.length w) := by
  have key : ∀ (n : Nat) (w : Work), w.pos + n = inp.length → R (inp.take w.pos) w →
      R inp (runLoop (inputDone inp) body n w) := by
    intro n
    induction n with
    | zero =>
      intro w hn h
      rwa [List.take_of_length_le (by omega)] at h
    | succ n ih =>
      intro w hn h
      have hlt : w.pos < inp.length := by omega
      rw [runLoop_succ_of_not_done ((inputDone_false _ _).2 hlt)]
      refine ih (body w) (by rw [hpos]; omega) ?_
      rw [hpos, List.take_succ_eq_append_getElem hlt, ← at0_eq_getElem hlt]
      exact hstep _ _ h
  exact key inp.length w (by omega) (by simpa [hw] using h0)

/-! ### The leaves -/

/-- The byte values that occur in the input, in ascending order (rule R144). -/
def codedValues (x : List Byte) : List Byte := ((List.range 256).map byteOf).filter (· ∈ x)

theorem byteOf_toNat_self (v : Byte) : byteOf v.toNat = v :=
  BitVec.eq_of_toNat_eq (byteOf_toNat v.isLt)

theorem mem_codedValues {x : List Byte} {v : Byte} : v ∈ codedValues x ↔ v ∈ x := by
  have hv : v ∈ (List.range 256).map byteOf :=
    List.mem_map.2 ⟨v.toNat, List.mem_range.2 v.isLt, byteOf_toNat_self v⟩
  simp only [codedValues, List.mem_filter, hv, true_and, decide_eq_true_eq]

theorem nodup_codedValues (x : List Byte) : (codedValues x).Nodup := by
  refine List.Nodup.filter _ (List.Nodup.map_on ?_ List.nodup_range)
  intro i hi j hj h
  rw [← byteOf_toNat (List.mem_range.1 hi), h, byteOf_toNat (List.mem_range.1 hj)]

theorem codedValues_perm_dedup (x : List Byte) : (codedValues x).Perm x.dedup :=
  (List.perm_ext_iff_of_nodup (nodup_codedValues x) x.nodup_dedup).2 fun v => by
    rw [mem_codedValues, List.mem_dedup]

theorem length_codedValues_le (x : List Byte) : (codedValues x).length ≤ 256 := by
  simpa [codedValues] using List.length_filter_le (· ∈ x) ((List.range 256).map byteOf)

theorem length_codedValues_pos {x : List Byte} (hx : x ≠ []) : 1 ≤ (codedValues x).length := by
  obtain ⟨v, hv⟩ := List.exists_mem_of_ne_nil x hx
  exact List.length_pos_of_mem (mem_codedValues.2 hv)

/-- The leaf of a byte value: its frequency is its count (rules R143, R144). -/
def leafOf (x : List Byte) (v : Byte) : Node := .leaf v (x.count v)

/-- The counter has counted the bytes `seen`. -/
structure Counted (seen : List Byte) (w : Work) : Prop where
  length : w.freq.length = 256
  count : ∀ v : Byte, w.freq.getD v.toNat 0 = seen.count v

theorem Counted.init : Counted [] .init where
  length := List.length_replicate
  count v := List.getD_replicate _ v.isLt

theorem Counted.countBody {seen inp : List Byte} {w : Work} (h : Counted seen w) :
    Counted (seen ++ [at0 inp w.pos]) (countBody inp w) where
  length := by rw [Machine.countBody, List.length_modify, h.length]
  count v := by
    have hv : v.toNat < w.freq.length := h.length ▸ v.isLt
    rw [List.count_append, ← h.count v, Machine.countBody, List.getD_eq_getElem _ _ (by simpa using hv),
      List.getD_eq_getElem _ _ hv, List.getElem_modify, List.count_singleton, beq_eq_decide]
    by_cases hav : at0 inp w.pos = v
    · simp [hav]
    · simp [hav, BitVec.toNat_inj]

/-- The frequency count counts the input (rule R143). -/
theorem counted_countFrequencies (x : List Byte) : Counted x (countFrequencies x .init) :=
  runLoop_input (fun _ => rfl) (fun _ _ h => h.countBody) rfl Counted.init

/-- The leaves made are those of the byte values that occur. -/
theorem leavesOf_countFrequencies (x : List Byte) :
    leavesOf (countFrequencies x .init).freq = (codedValues x).map (leafOf x) := by
  rw [leavesOf, codedValues, List.filter_map, List.map_map, ← List.filterMap_eq_map, ← List.filterMap_eq_filter,
    List.filterMap_filterMap]
  refine List.filterMap_congr fun i hi => ?_
  have hfreq : (countFrequencies x .init).freq.getD i 0 = x.count (byteOf i) := by
    rw [← (counted_countFrequencies x).count, byteOf_toNat (List.mem_range.1 hi)]
  rw [hfreq]
  by_cases h : byteOf i ∈ x
  · simp [h, leafOf, Option.guard, List.count_eq_zero]
  · simp [h, List.count_eq_zero, Option.guard]

/-! ### Merging -/

/-- Node `i` is a child of node `p`. -/
def IsChild (arena : List Node) (p i : Nat) : Prop :=
  ∃ f l r : Nat, arena[p]? = some (.node f l r) ∧ (i = l ∨ i = r)

/-- What the tree builder keeps: a forest over the leaves of the byte values of `x` whose roots are the active nodes
(rules R145, R147, R148). -/
structure Forest (x : List Byte) (arena : List Node) (active : List Nat) : Prop where
  shape : ∃ merged : List (Nat × Nat × Nat),
    arena = (codedValues x).map (leafOf x) ++ merged.map fun m => .node m.1 m.2.1 m.2.2
  count : arena.length + active.length = 2 * (codedValues x).length
  weight : (active.map (frequencyAt arena)).sum = x.length
  children : TreeOk arena
  twoChildren : ∀ p f l r : Nat, arena[p]? = some (.node f l r) → l ≠ r
  nodup : active.Nodup
  inside : ∀ i ∈ active, i < arena.length
  last : arena.length - 1 ∈ active
  root : ∀ i ∈ active, ∀ p, ¬ IsChild arena p i
  parent : ∀ i < arena.length, i ∉ active → ∃! p, IsChild arena p i

section
variable {x : List Byte} {arena : List Node} {active : List Nat}

/-- The order in which the active nodes are listed does not matter. -/
theorem Forest.perm (h : Forest x arena active) {active' : List Nat} (hp : active.Perm active') :
    Forest x arena active' where
  shape := h.shape
  count := by rw [← hp.length_eq, h.count]
  weight := by rw [← (hp.map _).sum_eq, h.weight]
  children := h.children
  twoChildren := h.twoChildren
  nodup := hp.nodup_iff.1 h.nodup
  inside i hi := h.inside i (hp.mem_iff.2 hi)
  last := hp.mem_iff.1 h.last
  root i hi := h.root i (hp.mem_iff.2 hi)
  parent i hi hn := h.parent i hi fun ha => hn (hp.mem_iff.1 ha)

theorem Forest.leaf_iff (h : Forest x arena active) (i : Nat) (v : Byte) (f : Nat) :
    arena[i]? = some (.leaf v f) ↔ (codedValues x)[i]? = some v ∧ x.count v = f := by
  obtain ⟨merged, rfl⟩ := h.shape
  rw [List.getElem?_append]
  split
  · simp [leafOf]
  · next hi =>
    rw [List.length_map, not_lt] at hi
    simp [List.getElem?_eq_none hi]

/-- The leaves are exactly the first nodes (rule R148 (a)). -/
theorem Forest.isLeaf_iff (h : Forest x arena active) (i : Nat) :
    (∃ v f, arena[i]? = some (.leaf v f)) ↔ i < (codedValues x).length := by
  simp [h.leaf_iff, List.getElem?_eq_some_iff]

end

theorem frequencyAt_append_left {arena : List Node} {i : Nat} (hi : i < arena.length) (nd : Node) :
    frequencyAt (arena ++ [nd]) i = frequencyAt arena i := by
  rw [frequencyAt, List.getElem?_append_left hi, frequencyAt]

@[simp] theorem frequencyAt_append_self (arena : List Node) (nd : Node) :
    frequencyAt (arena ++ [nd]) arena.length = nd.frequency := by
  simp [frequencyAt]

/-- The leaves' frequencies add up to the input's length. -/
theorem sum_frequencyAt_leaves (x : List Byte) :
    ((List.range (codedValues x).length).map (frequencyAt ((codedValues x).map (leafOf x)))).sum = x.length := by
  have hmap : (List.range (codedValues x).length).map (frequencyAt ((codedValues x).map (leafOf x))) =
      (codedValues x).map (x.count ·) :=
    List.ext_getElem (by simp) fun i hi _ => by
      have hi : i < (codedValues x).length := by simpa using hi
      simp [frequencyAt, hi, leafOf, Node.frequency]
  rw [hmap, ((codedValues_perm_dedup x).map _).sum_eq, List.sum_map_count_dedup_eq_length]

/-- The leaves alone, all active (rules R144, R145). -/
theorem forest_leaves {x : List Byte} (hx : x ≠ []) :
    Forest x ((codedValues x).map (leafOf x)) (List.range (codedValues x).length) := by
  have hnode : ∀ p f l r : Nat, ((codedValues x).map (leafOf x))[p]? ≠ some (.node f l r) := by
    simp [leafOf]
  have hpos := length_codedValues_pos hx
  exact {
    shape := ⟨[], by simp⟩
    count := by simp; omega
    weight := sum_frequencyAt_leaves x
    children := fun p f l r h => absurd h (hnode p f l r)
    twoChildren := fun p f l r h => absurd h (hnode p f l r)
    nodup := List.nodup_range
    inside := by simp
    last := by simp; omega
    root := fun i _ p ⟨f, l, r, h, _⟩ => hnode p f l r h
    parent := fun i hi hn => absurd (List.mem_range.2 (by simpa using hi)) hn }

/-- The node a merge of `a` and `b` makes (rule R147). -/
def mergedNode (arena : List Node) (a b : Nat) : Node := .node (frequencyAt arena a + frequencyAt arena b) a b

theorem getElem?_append_mergedNode (arena : List Node) (a b p f l r : Nat) :
    (arena ++ [mergedNode arena a b])[p]? = some (.node f l r) ↔
      arena[p]? = some (.node f l r) ∨
        p = arena.length ∧ frequencyAt arena a + frequencyAt arena b = f ∧ a = l ∧ b = r := by
  rcases lt_trichotomy p arena.length with h | rfl | h
  · simp [List.getElem?_append_left h, h.ne]
  · simp [mergedNode]
  · simp [List.getElem?_append_right h.le, h.ne', h.le, Nat.sub_ne_zero_of_lt h]

theorem isChild_append_mergedNode (arena : List Node) (a b p i : Nat) :
    IsChild (arena ++ [mergedNode arena a b]) p i ↔
      IsChild arena p i ∨ p = arena.length ∧ (i = a ∨ i = b) := by
  simp only [IsChild, getElem?_append_mergedNode]
  constructor
  · rintro ⟨f, l, r, h | ⟨hp, -, rfl, rfl⟩, hi⟩
    · exact .inl ⟨f, l, r, h, hi⟩
    · exact .inr ⟨hp, hi⟩
  · rintro (⟨f, l, r, h, hi⟩ | ⟨hp, hi⟩)
    · exact ⟨f, l, r, .inl h, hi⟩
    · exact ⟨_, a, b, .inr ⟨hp, rfl, rfl, rfl⟩, hi⟩

theorem IsChild.lt {arena : List Node} {p i : Nat} (ht : TreeOk arena) (h : IsChild arena p i) :
    i < p ∧ p < arena.length := by
  obtain ⟨f, l, r, hp, hi⟩ := h
  obtain ⟨hl, hr⟩ := ht p f l r hp
  exact ⟨by rcases hi with rfl | rfl <;> assumption, (List.getElem?_eq_some_iff.1 hp).1⟩

/-- One merge: two roots get a new node as their parent (rules R145, R147). -/
theorem Forest.merge {x : List Byte} {arena : List Node} {a b : Nat} {rest : List Nat}
    (h : Forest x arena (a :: b :: rest)) :
    Forest x (arena ++ [mergedNode arena a b]) (arena.length :: rest) := by
  obtain ⟨ha, hb, hrest⟩ : a < arena.length ∧ b < arena.length ∧ ∀ i ∈ rest, i < arena.length := by
    simpa using h.inside
  obtain ⟨⟨hab, har⟩, hbr, hnd⟩ : (a ≠ b ∧ a ∉ rest) ∧ b ∉ rest ∧ rest.Nodup := by simpa using h.nodup
  have hbelow : ∀ p i, IsChild arena p i → i < p ∧ p < arena.length := fun _ _ => IsChild.lt h.children
  exact {
    shape := by
      obtain ⟨merged, hm⟩ := h.shape
      exact ⟨merged ++ [(_, a, b)], by rw [List.map_append, ← List.append_assoc, ← hm]; rfl⟩
    count := by have := h.count; simp at this ⊢; omega
    weight := by
      have hold : rest.map (frequencyAt (arena ++ [mergedNode arena a b])) = rest.map (frequencyAt arena) :=
        List.map_congr_left fun i hi => frequencyAt_append_left (hrest i hi) _
      have hw := h.weight
      rw [List.map_cons, hold, frequencyAt_append_self]
      simpa [mergedNode, Node.frequency, Nat.add_assoc] using hw
    children := by
      intro p f l r hp
      rcases (getElem?_append_mergedNode ..).1 hp with hp | ⟨rfl, -, rfl, rfl⟩
      · exact h.children p f l r hp
      · exact ⟨ha, hb⟩
    twoChildren := by
      intro p f l r hp
      rcases (getElem?_append_mergedNode ..).1 hp with hp | ⟨-, -, rfl, rfl⟩
      · exact h.twoChildren p f l r hp
      · exact hab
    nodup := List.nodup_cons.2 ⟨fun hm => (hrest _ hm).false, hnd⟩
    inside := by
      simp only [List.mem_cons, List.length_append, List.length_singleton, forall_eq_or_imp]
      exact ⟨Nat.lt_succ_self _, fun i hi => (hrest i hi).trans (Nat.lt_succ_self _)⟩
    last := by simp
    root := by
      simp only [List.mem_cons, forall_eq_or_imp, isChild_append_mergedNode]
      refine ⟨fun p => ?_, fun i hi p => ?_⟩
      · rintro (hc | ⟨-, hi⟩)
        · have := hbelow _ _ hc; omega
        · omega
      · rintro (hc | ⟨-, rfl | rfl⟩)
        · exact h.root i (by simp [hi]) p hc
        · exact har hi
        · exact hbr hi
    parent := by
      intro i hi hn
      simp only [List.length_append, List.length_singleton, List.mem_cons, not_or] at hi hn
      obtain ⟨hne, hir⟩ := hn
      simp only [isChild_append_mergedNode]
      by_cases hiab : i = a ∨ i = b
      · refine ⟨arena.length, .inr ⟨rfl, hiab⟩, ?_⟩
        rintro p (hc | ⟨hp, -⟩)
        · exact absurd hc (h.root i (by simp only [List.mem_cons]; tauto) p)
        · exact hp
      · simpa [hiab] using h.parent i (by omega) (by simp only [List.mem_cons]; tauto) }

/-! ### The tree builder -/

theorem lowest_mem (less : TieBreak) (arena : List Node) {l : List Nat} (h : l ≠ []) : lowest less arena l ∈ l := by
  obtain ⟨a, rest, rfl⟩ := List.exists_cons_of_ne_nil h
  rw [lowest]
  induction rest generalizing a with
  | nil => simp
  | cons i rest ih =>
    rw [List.foldl_cons]
    split
    · exact List.mem_cons_of_mem _ (ih i (by simp))
    · have := ih a (by simp)
      simp only [List.mem_cons] at this ⊢
      tauto

/-- A merge, whatever the order of removal: two active nodes are removed and their parent added. -/
theorem mergeBody_spec (less : TieBreak) {w : Work} (h : 2 ≤ w.active.length) :
    ∃ a b rest, w.active.Perm (a :: b :: rest) ∧ (mergeBody less w).arena = w.arena ++ [mergedNode w.arena a b] ∧
      (mergeBody less w).active = rest ++ [w.arena.length] := by
  have ha : lowest less w.arena w.active ∈ w.active := lowest_mem _ _ (List.ne_nil_of_length_pos (by omega))
  have hlen := List.length_erase_of_mem ha
  have hb : lowest less w.arena (w.active.erase (lowest less w.arena w.active)) ∈
      w.active.erase (lowest less w.arena w.active) := lowest_mem _ _ (List.ne_nil_of_length_pos (by omega))
  exact ⟨_, _, _, (List.perm_cons_erase ha).trans ((List.perm_cons_erase hb).cons _), rfl, rfl⟩

theorem mergeDone_false {w : Work} : mergeDone w = false ↔ 2 ≤ w.active.length := by
  simp [mergeDone]; omega

theorem Forest.mergeBody {x : List Byte} {w : Work} (less : TieBreak) (h : Forest x w.arena w.active)
    (hd : mergeDone w = false) : Forest x (mergeBody less w).arena (mergeBody less w).active := by
  obtain ⟨a, b, rest, hp, harena, hactive⟩ := mergeBody_spec less (mergeDone_false.1 hd)
  rw [harena, hactive]
  exact (h.perm hp).merge.perm (List.perm_append_singleton _ _).symm

theorem length_active_mergeBody (less : TieBreak) {w : Work} (hd : mergeDone w = false) :
    (mergeBody less w).active.length < w.active.length := by
  obtain ⟨a, b, rest, hp, -, hactive⟩ := mergeBody_spec less (mergeDone_false.1 hd)
  rw [hactive, hp.length_eq]
  simp

/-- Merging ends with one tree, whose root is the last node (rule R145). -/
theorem Forest.mergeNodes {x : List Byte} {w : Work} (less : TieBreak) (h : Forest x w.arena w.active) :
    Forest x (mergeNodes less w).arena [rootOf (mergeNodes less w).arena] := by
  have hf : Forest x (Machine.mergeNodes less w).arena (Machine.mergeNodes less w).active :=
    runLoop_keeps (P := fun w => Forest x w.arena w.active) (fun _ h hd => h.mergeBody less hd) h _
  have hd : mergeDone (Machine.mergeNodes less w) = true :=
    runLoop_ends (P := fun _ => True) (fun w => w.active.length)
      (fun _ _ hd => ⟨trivial, length_active_mergeBody less hd⟩) trivial le_rfl
  have hone : (Machine.mergeNodes less w).active = [rootOf (Machine.mergeNodes less w).arena] := by
    obtain ⟨r, hr⟩ : ∃ r, (Machine.mergeNodes less w).active = [r] := by
      have := List.length_pos_of_mem hf.last
      exact List.length_eq_one_iff.1 (le_antisymm (by simpa [mergeDone] using hd) this)
    have hl := hf.last
    rw [hr, List.mem_singleton] at hl
    rw [hr, rootOf, hl]
  rwa [hone] at hf

/-- The tree of an input (rules R143 to R147). -/
def builtTree (less : TieBreak) (x : List Byte) : List Node :=
  (mergeNodes less (createLeaves (countFrequencies x .init))).arena

theorem forest_builtTree (less : TieBreak) {x : List Byte} (hx : x ≠ []) :
    Forest x (builtTree less x) [rootOf (builtTree less x)] := by
  refine Forest.mergeNodes less ?_
  rw [createLeaves, leavesOf_countFrequencies, List.length_map]
  exact forest_leaves hx

section
variable {x : List Byte} {tree : List Node} (h : Forest x tree [rootOf tree])
include h

theorem Forest.length_tree : tree.length = 2 * (codedValues x).length - 1 := by
  have := h.count
  simp at this
  omega

theorem Forest.mem_iff (v : Byte) : v ∈ x ↔ ∃ i f : Nat, tree[i]? = some (.leaf v f) := by
  rw [← mem_codedValues, List.mem_iff_getElem?]
  simp [h.leaf_iff]

theorem Forest.leaf_unique {v : Byte} {i f j g : Nat} (hi : tree[i]? = some (.leaf v f))
    (hj : tree[j]? = some (.leaf v g)) : i = j := by
  rw [h.leaf_iff] at hi hj
  exact (List.getElem?_inj (List.getElem?_eq_some_iff.1 hi.1).1 (nodup_codedValues x)).1 (hi.1.trans hj.1.symm)

/-- The tree fits in the arena (rule R28). -/
theorem Forest.length_tree_le : tree.length ≤ 511 := by
  have := length_codedValues_le x
  rw [h.length_tree]
  omega

theorem Forest.rootOf_eq : rootOf tree = 2 * (codedValues x).length - 2 := by
  rw [rootOf, h.length_tree]; omega

end

/-! ### The packer -/

/-- The encoder has packed the codes of the bytes `seen` (rule R153). -/
structure Packing (tree : List Node) (seen : List Byte) (w : Work) : Prop where
  packed : Packed (codeString (codeTable tree) seen) w
  code : w.code = codeTable tree
  arena : w.arena = tree

theorem packed_init : Packed [] .init := ⟨rfl, rfl, fun i hi => absurd hi (Nat.not_lt_zero i),
  fun j hj => absurd hj (Nat.not_lt_zero j), fun _ _ _ => BitVec.getLsbD_zero⟩

/-- What the packer holds is all that `Packed` speaks of. -/
theorem Packed.congr {bs : List Bool} {w w' : Work} (h : Packed bs w) (hout : w'.out = w.out) (hacc : w'.acc = w.acc)
    (hfill : w'.fill = w.fill) : Packed bs w' := by
  obtain ⟨h1, h2, h3, h4, h5⟩ := h
  constructor <;> simpa only [hout, hacc, hfill]

/-- The counter and the tree builder leave the packer alone. -/
theorem packed_mergeNodes (less : TieBreak) (x : List Byte) :
    Packed [] (mergeNodes less (createLeaves (countFrequencies x .init))) := by
  have hcount : Packed [] (countFrequencies x .init) :=
    runLoop_keeps (fun _ h _ => h.congr rfl rfl rfl) packed_init _
  exact runLoop_keeps (fun _ h _ => h.congr rfl rfl rfl) (hcount.congr (w' := createLeaves _) rfl rfl rfl) _

theorem pushBit_frame (w : Work) (b : Bool) :
    (pushBit w b).pos = w.pos ∧ (pushBit w b).code = w.code ∧ (pushBit w b).arena = w.arena := by
  unfold pushBit
  dsimp only
  split <;> exact ⟨rfl, rfl, rfl⟩

theorem foldl_pushBit_frame (bits : List Bool) (w : Work) :
    (bits.foldl pushBit w).pos = w.pos ∧ (bits.foldl pushBit w).code = w.code ∧
      (bits.foldl pushBit w).arena = w.arena := by
  induction bits generalizing w with
  | nil => exact ⟨rfl, rfl, rfl⟩
  | cons b bits ih => simpa [pushBit_frame] using ih (pushBit w b)

theorem packBody_pos (inp : List Byte) (w : Work) : (packBody inp w).pos = w.pos + 1 :=
  (foldl_pushBit_frame _ _).1

@[simp] theorem flushBits_arena (w : Work) : (flushBits w).arena = w.arena := by
  unfold flushBits
  split <;> rfl

theorem Packing.packBody {tree : List Node} {seen inp : List Byte} {w : Work} (h : Packing tree seen w) :
    Packing tree (seen ++ [at0 inp w.pos]) (packBody inp w) := by
  obtain ⟨-, hcode, harena⟩ :=
    foldl_pushBit_frame (w.code.getD (at0 inp w.pos).toNat []) { w with pos := w.pos + 1 }
  refine ⟨?_, hcode.trans h.code, harena.trans h.arena⟩
  have hw : Packed (codeString (codeTable tree) seen) { w with pos := w.pos + 1 } := h.packed.congr rfl rfl rfl
  simpa [codeString, Machine.packBody, h.code] using hw.pushAll (w.code.getD (at0 inp w.pos).toNat [])

/-- The compressor's result: the tree, and the packed codes of the whole input, flushed (rules R141, R153, R154). -/
theorem huffCompressBy_spec (less : TieBreak) {x : List Byte} (hx : x ≠ []) :
    ∃ w, Packed (codeString (codeTable (builtTree less x)) x) w ∧
      huffCompressBy less x = ((flushBits w).out, builtTree less x) := by
  have hp : Packing (builtTree less x) x (runLoop (inputDone x) (packBody x) x.length
      (deriveCodes (mergeNodes less (createLeaves (countFrequencies x .init))))) :=
    runLoop_input (packBody_pos x) (fun _ _ h => h.packBody) rfl
      ⟨(packed_mergeNodes less x).congr rfl rfl rfl, rfl, rfl⟩
  refine ⟨_, hp.packed, ?_⟩
  obtain ⟨v, rest, rfl⟩ := List.exists_cons_of_ne_nil hx
  rw [huffCompressBy, huffEncode, packInput, flushBits_arena, hp.arena]

theorem huffCompressBy_tree (less : TieBreak) {x : List Byte} (hx : x ≠ []) :
    (huffCompressBy less x).2 = builtTree less x := by
  obtain ⟨w, -, h⟩ := huffCompressBy_spec less hx
  rw [h]

/-! ### Code words -/

/-- The code word of a byte value in a tree: the path from the root to its leaf, and `0` where the root is the leaf
(rules R150, R151). -/
inductive CodeWord (tree : List Node) (v : Byte) : List Bool → Prop where
  | single {f : Nat} (h : tree[rootOf tree]? = some (.leaf v f)) : CodeWord tree v [false]
  | path {b : Bool} {bs : List Bool} (h : LeafAt tree (rootOf tree) (b :: bs) v) : CodeWord tree v (b :: bs)

/-- The code table's entry of a byte value. -/
def codeOf (tree : List Node) (v : Byte) : List Bool := (codeTable tree).getD v.toNat []

theorem CodeWord.ne_nil {tree : List Node} {v : Byte} {bs : List Bool} (h : CodeWord tree v bs) : bs ≠ [] := by
  cases h <;> simp

/-- A node with a path to follow below it is no leaf. -/
theorem LeafAt.not_leaf {arena : List Node} {i : Nat} {b : Bool} {bs : List Bool} {v : Byte}
    (h : LeafAt arena i (b :: bs) v) (u : Byte) (f : Nat) : arena[i]? ≠ some (.leaf u f) := by
  cases h with
  | node h _ => simp [h]

/-- A byte value whose code word begins another's is that other (rule R152). -/
theorem CodeWord.eq_of_isPrefix {tree : List Node} {v v' : Byte} {bs bs' : List Bool} (h : CodeWord tree v bs)
    (h' : CodeWord tree v' bs') (hp : bs <+: bs') : v = v' := by
  cases h with
  | single hr =>
    cases h' with
    | single hr' => rw [hr] at hr'; cases hr'; rfl
    | path hl' => exact absurd hr (hl'.not_leaf _ _)
  | path hl =>
    cases h' with
    | single hr' => exact absurd hr' (hl.not_leaf _ _)
    | path hl' => exact hl.prefix_eq hl' hp

/-- The code table holds the code word of every byte value that has a leaf below the root (rules R150, R151). -/
theorem codeWord_codeOf {tree : List Node} (ht : TreeOk tree) {v : Byte}
    (hv : ∃ bs, LeafAt tree (rootOf tree) bs v) : CodeWord tree v (codeOf tree v) := by
  obtain ⟨bs, hb⟩ := hv
  cases hb with
  | leaf h =>
    have hcode : codeOf tree v = [false] := by
      rw [codeOf, codeTable, h, List.getD_eq_getElem?_getD,
        List.getElem?_set_self (by rw [List.length_replicate]; exact v.isLt), Option.getD_some]
    exact hcode ▸ .single h
  | @node _ _ _ _ b bs _ h hc =>
    have hlt : rootOf tree < tree.length := (List.getElem?_eq_some_iff.1 h).1
    obtain ⟨bs', hb', hcode⟩ := (assignCodes_spec ht tree.length (rootOf tree) hlt []
      (List.replicate 256 []) List.length_replicate v).1 ⟨_, .node h hc⟩
    have hcode : codeOf tree v = bs' := by rw [codeOf, codeTable, h]; exact hcode
    rw [hcode]
    cases hb' with
    | leaf h' => rw [h] at h'; cases h'
    | node h' hc' => exact .path (.node h' hc')

section
variable {x : List Byte} {tree : List Node} (h : Forest x tree [rootOf tree])
include h

/-- Every leaf below a node is a leaf below the root. -/
theorem Forest.leafAt_root {i : Nat} {bs : List Bool} {v : Byte} (hl : LeafAt tree i bs v) :
    ∃ bs', LeafAt tree (rootOf tree) bs' v := by
  induction hk : tree.length - i using Nat.strong_induction_on generalizing i bs with
  | _ k ih =>
    by_cases hi : i = rootOf tree
    · exact ⟨bs, hi ▸ hl⟩
    · have hlt : i < tree.length := by
        cases hl with
        | leaf h => exact (List.getElem?_eq_some_iff.1 h).1
        | node h _ => exact (List.getElem?_eq_some_iff.1 h).1
      obtain ⟨p, hp, -⟩ := h.parent i hlt (by simpa using hi)
      have hip := hp.lt h.children
      obtain ⟨f, l, r, hp, hc⟩ := hp
      obtain ⟨b, hb⟩ := hl.of_child hp hc
      exact ih _ (by omega) hb rfl

/-- Every byte value of the input has its code word (rules R150, R151). -/
theorem Forest.codeWord {v : Byte} (hv : v ∈ x) : CodeWord tree v (codeOf tree v) := by
  obtain ⟨i, f, hi⟩ := (h.mem_iff v).1 hv
  exact codeWord_codeOf h.children (h.leafAt_root (.leaf hi))

/-- The root is a leaf exactly when it is the only node (rule R151). -/
theorem Forest.root_isLeaf_iff : (∃ v f, tree[rootOf tree]? = some (.leaf v f)) ↔ tree.length = 1 := by
  have hpos := h.inside _ List.mem_cons_self
  have hlen := h.length_tree
  have hroot := h.rootOf_eq
  rw [h.isLeaf_iff]
  omega

/-- The code word is `0` in a tree of one node; in any other, following it ends at the leaf (rules R150, R151). -/
theorem Forest.codeWord_cases {v : Byte} {bs : List Bool} (hcw : CodeWord tree v bs) :
    if tree.length = 1 then bs = [false]
    else ∃ f, tree[descend tree (rootOf tree) bs]? = some (.leaf v f) := by
  cases hcw with
  | single hr => rw [if_pos (h.root_isLeaf_iff.1 ⟨_, _, hr⟩)]
  | path hl =>
    have hlen : tree.length ≠ 1 := fun hone =>
      have ⟨u, f, hu⟩ := h.root_isLeaf_iff.2 hone
      hl.not_leaf u f hu
    rw [if_neg hlen]
    exact hl.descend

end

/-- Settles O47: each property is read off the forest the merging ends with. -/
theorem huffmanTreeProperties : Obligations.HuffmanTreeProperties := by
  intro less x hx
  have h := forest_builtTree less hx
  have hk : x.dedup.length = (codedValues x).length := (codedValues_perm_dedup x).length_eq.symm
  simp only [huffCompressBy_tree less hx, hk, ← h.rootOf_eq]
  refine ⟨h.length_tree, fun i _ => h.isLeaf_iff i, by simpa using h.weight, h.children, fun i hi => ?_,
    h.twoChildren, h.mem_iff, fun v i f j g => h.leaf_unique⟩
  exact h.parent i (by rw [rootOf] at hi; omega) (by simpa using hi.ne)

/-- Settles O48: the code table holds code words, and none of those begins another. -/
theorem huffmanCodesArePrefixFree : Obligations.HuffmanCodesArePrefixFree := by
  intro less x hx
  have h := forest_builtTree less hx
  simp only [huffCompressBy_tree less hx]
  constructor
  · exact fun v hv => ⟨(h.codeWord hv).ne_nil, h.codeWord_cases (h.codeWord hv)⟩
  · exact fun v hv w hw hne hp => hne ((h.codeWord hv).eq_of_isPrefix (h.codeWord hw) hp)

/-- A code string has at least a bit for each byte whose code is not empty. -/
theorem length_le_codeString {tree : List Node} {x : List Byte} (h : ∀ v ∈ x, codeOf tree v ≠ []) :
    x.length ≤ (codeString (codeTable tree) x).length := by
  induction x with
  | nil => exact Nat.zero_le _
  | cons v x ih =>
    obtain ⟨hv, hx⟩ := List.forall_mem_cons.1 h
    have hv := List.length_pos_iff.2 hv
    have := ih hx
    simp only [codeString, List.flatMap_cons, List.length_append, List.length_cons, codeOf] at *
    omega

/-- Settles O49: the packed bits are the code string, and no code is empty. -/
theorem huffmanPayloadIsThePackedCodeString : Obligations.HuffmanPayloadIsThePackedCodeString := by
  intro less x hx
  obtain ⟨w, hp, hspec⟩ := huffCompressBy_spec less hx
  obtain ⟨hlen, hbits, hpad⟩ := hp.flush
  simp only [hspec]
  exact ⟨hlen, hbits, hpad, length_le_codeString fun v hv => ((forest_builtTree less hx).codeWord hv).ne_nil⟩

/-! ### The bit walk reads the codes back -/

/-- The bits stand in the payload from bit `p` on. -/
structure BitsAt (inp : List Byte) (p : Nat) (bs : List Bool) : Prop where
  fits : p + bs.length ≤ 8 * inp.length
  bit : ∀ i, i < bs.length → bs[i]? = some (payloadBit inp (p + i))

theorem BitsAt.append {inp : List Byte} {p : Nat} {a b : List Bool} (h : BitsAt inp p (a ++ b)) :
    BitsAt inp p a ∧ BitsAt inp (p + a.length) b := by
  obtain ⟨hfits, hbit⟩ := h
  rw [List.length_append] at hfits hbit
  refine ⟨⟨by omega, fun i hi => ?_⟩, ⟨by omega, fun i hi => ?_⟩⟩
  · rw [← hbit i (by omega), List.getElem?_append_left hi]
  · rw [Nat.add_assoc, ← hbit (a.length + i) (by omega), List.getElem?_append_right (by omega),
      Nat.add_sub_cancel_left]

/-- At the root, the bits of a code word bring its byte out and the walk back to the root (rules R166, R167, R169). -/
theorem walk_codeWord {inp : List Byte} {size : Nat} {w : Work} {v : Byte} {bs : List Bool}
    (hcw : CodeWord w.arena v bs) (hcur : w.cur = rootOf w.arena) (hbits : BitsAt inp w.bitpos bs)
    (hout : w.out.length < size) (n : Nat) :
    tryLoop (walkDone size) (walkBody inp) (n + bs.length) w =
      tryLoop (walkDone size) (walkBody inp) n
        { w with bitpos := w.bitpos + bs.length, out := w.out ++ [v] } := by
  obtain ⟨hfits, hbit⟩ := hbits
  cases hcw with
  | single hr =>
    rw [List.length_singleton] at hfits ⊢
    exact tryLoop_succ_ok (walkDone_false hout) (by rw [walkBody_leafRoot hr, if_neg (by omega)]) n
  | path hl =>
    have hroot : ∃ f l r : Nat, w.arena[rootOf w.arena]? = some (.node f l r) := by
      cases hl with
      | node h _ => exact ⟨_, _, _, h⟩
    rw [← hcur] at hl
    rw [walk_code w hl (by simp) hroot hbit hfits hout n, ← hcur]

/-- At the root, the walk brings out the bytes whose codes stand in the payload. -/
theorem walk_codeString {inp : List Byte} {size : Nat} {tree : List Node} (rest : List Byte) (w : Work)
    (hcode : ∀ v ∈ rest, CodeWord w.arena v (codeOf tree v)) (hcur : w.cur = rootOf w.arena)
    (hbits : BitsAt inp w.bitpos (codeString (codeTable tree) rest)) (hsize : w.out.length + rest.length = size)
    (n : Nat) :
    (tryLoop (walkDone size) (walkBody inp) (n + (codeString (codeTable tree) rest).length) w).map Work.out =
      .ok (w.out ++ rest) := by
  induction rest generalizing w with
  | nil =>
    rw [tryLoop_of_done (decide_eq_true (by simpa [Work.olen] using hsize.ge)), List.append_nil]
    rfl
  | cons v rest ih =>
    obtain ⟨hv, hrest⟩ := List.forall_mem_cons.1 hcode
    have hcons : codeString (codeTable tree) (v :: rest) = codeOf tree v ++ codeString (codeTable tree) rest := rfl
    rw [List.length_cons] at hsize
    rw [hcons] at hbits ⊢
    obtain ⟨hbv, hbrest⟩ := hbits.append
    rw [List.length_append, Nat.add_left_comm, Nat.add_comm, walk_codeWord hv hcur hbv (by omega),
      ih { w with bitpos := w.bitpos + (codeOf tree v).length, out := w.out ++ [v] } hrest hcur hbrest (by simp; omega)]
    simp

/-- Records carry the shape of a tree: a reloaded tree has the same code words (rules R158, R164). -/
theorem CodeWord.stored {tree : List Node} {v : Byte} {bs : List Bool} (h : CodeWord tree v bs) :
    CodeWord (tree.map Node.stored) v bs := by
  have hroot : rootOf (tree.map Node.stored) = rootOf tree := by rw [rootOf, List.length_map, rootOf]
  cases h with
  | single h => exact .single (by rw [hroot, List.getElem?_map, h]; rfl)
  | path h =>
    refine .path (hroot.symm ▸ h.transport (fun {_ _ f} h => ⟨f % 2 ^ 32, ?_⟩)
      (fun {_ f _ _} h => ⟨f % 2 ^ 32, ?_⟩))
    · rw [List.getElem?_map, h]; rfl
    · rw [List.getElem?_map, h]; rfl

/-- Decompression with a supplied tree that loads and a size that fits is the bit walk (rule R161). -/
theorem huffDecompress_of_loaded {outMax t size : Nat} {inp mem : List Byte} {w : Work} (ht : 1 ≤ t) (ht' : t ≤ 511)
    (hw : loadTree t mem .init = .ok w) (hsize : size ≤ outMax) :
    huffDecompress outMax inp t mem size = (walkBits inp size (beginWalk w)).map Work.out := by
  rw [huffDecompress, if_neg (by omega), if_neg (by simp [Config.nodeMax]; omega), hw]
  simp only
  rw [if_neg (by omega)]

/-- Settles O55: the reloaded tree has the code words of the built one, and the walk reads the input's codes. -/
theorem huffmanRoundTrip : Obligations.HuffmanRoundTrip := by
  intro less x outMax hout
  by_cases hx : x = []
  · rw [hx]; rfl
  have h := forest_builtTree less hx
  obtain ⟨w, hp, hspec⟩ := huffCompressBy_spec less hx
  obtain ⟨hlen, hbits, -⟩ := hp.flush
  have hpos := h.inside _ List.mem_cons_self
  have hle := h.length_tree_le
  have hload := loadTree_serialise h.children (by omega) .init rfl
  have hat : BitsAt (flushBits w).out 0 (codeString (codeTable (builtTree less x)) x) :=
    ⟨by omega, fun i hi => by rw [Nat.zero_add, hbits i hi]⟩
  obtain ⟨n, hn⟩ := Nat.exists_eq_add_of_le' (show (codeString (codeTable (builtTree less x)) x).length ≤
    8 * (flushBits w).out.length + 1 by omega)
  simp only [hspec]
  rw [huffDecompress_of_loaded (by omega) hle hload hout, walkBits, hn]
  exact walk_codeString x _ (fun v hv => (h.codeWord hv).stored) rfl hat (Nat.zero_add _) n

/-! ### Decompression without a tree -/

theorem huffDecompress_without_tree (outMax : Nat) (inp mem : List Byte) (size : Nat) :
    huffDecompress outMax inp 0 mem size =
      if size = 0 ∧ inp.length = 0 then .ok [] else .error .missingMetadata := rfl

/-- `DECOMPRESS.HUFFMAN` without a tree (rule R162). -/
theorem exec_decompressHuffman_without_tree {s : State} (hb : s.state = .busy) (hn : s.n ≤ s.build.inMax)
    (hm : s.metaLen = 0) :
    exec .decompressHuffman s = .next (s.endDecompress
      (if s.origSize = 0 ∧ s.inLen = 0 then .ok [] else .error .missingMetadata)) := by
  have hdec : s.decompressed .huffman = if s.origSize = 0 ∧ s.inLen = 0 then .ok [] else .error .missingMetadata := by
    rw [State.decompressed, hm]
    refine (huffDecompress_without_tree _ _ _ _).trans ?_
    simp [State.n, ← BitVec.toNat_inj]
  rw [show Instr.decompressHuffman = decompressInstr .huffman from rfl, exec_decompress, whenBusy_of_busy hb,
    State.decompress, if_neg (by omega), hdec]

/-- Settles O52: by the operand registers. -/
theorem missingTreeRaises : Obligations.MissingTreeRaises := by
  intro s hb hn hm
  rw [exec_decompressHuffman_without_tree hb hn hm]
  refine ⟨fun ho hi => ⟨_, rfl, ?_⟩, fun hne => ⟨_, rfl, ?_⟩⟩
  · rw [if_pos ⟨ho, hi⟩]
    exact doneForm_finish s []
  · rw [if_neg hne]
    exact errorForm_raise s .missingMetadata

end Sys2Proof.Machine
end

section
/-! Proofs of the statements on the LZ77 codec (spec 43). The search is read off its scan, offset by offset
(`Scanned`). The decoder executes the encoder's tokens one by one: whenever it has read the tokens up to a cursor of the
encoder, it has emitted the input up to that cursor (`Decoded`). -/

namespace Sys2Proof.Machine

open Sys2Proof

/-! ### The search -/

/-- A match shorter than the lookahead ends at a difference (rule R194). -/
theorem getElem?_ne_of_matchLength_lt {l pos d : Nat} {inp : List Byte}
    (h : matchLength l inp pos d < min l (inp.length - pos)) :
    inp[pos - d + matchLength l inp pos d]? ≠ inp[pos + matchLength l inp pos d]? := by
  obtain ⟨-, -, -, -, hdiff⟩ := commonPrefix_spec (maxLen l inp pos) (inp.drop (pos - d)) (inp.drop pos)
  simp only [List.length_drop, List.getElem?_drop] at hdiff
  exact hdiff h (h.trans_le (by omega)) (h.trans_le (by omega))

/-- What the scan of the offsets 1 .. `k` has found (rule R196). -/
structure Scanned (l : Nat) (inp : List Byte) (pos k : Nat) (best : Nat × Nat) : Prop where
  longest : ∀ d, 1 ≤ d → d ≤ k → matchLength l inp pos d ≤ best.1
  unmatched : best.1 = 0 → best.2 = 0
  nearest : 0 < best.1 → 1 ≤ best.2 ∧ best.2 ≤ k ∧ matchLength l inp pos best.2 = best.1 ∧
    ∀ d, 1 ≤ d → d < best.2 → matchLength l inp pos d < best.1

section
variable {l pos k : Nat} {inp : List Byte} {best : Nat × Nat}

theorem Scanned.zero : Scanned l inp pos 0 (0, 0) where
  longest := by omega
  unmatched _ := rfl
  nearest h := absurd h (lt_irrefl 0)

/-- The next offset is taken only if its match is longer than all before it. -/
theorem Scanned.takeLonger (h : Scanned l inp pos k best) :
    Scanned l inp pos (k + 1) (takeLonger l inp pos best (k + 1)) := by
  unfold Machine.takeLonger
  split
  case isTrue hlt =>
    have hbefore : ∀ d, 1 ≤ d → d ≤ k → matchLength l inp pos d < matchLength l inp pos (k + 1) :=
      fun d hd hk => (h.longest d hd hk).trans_lt hlt
    refine ⟨fun d hd hk => ?_, fun h0 => absurd h0 (Nat.zero_lt_of_lt hlt).ne', fun _ =>
      ⟨k.succ_pos, le_rfl, rfl, fun d hd hk => hbefore d hd (Nat.lt_succ_iff.1 hk)⟩⟩
    rcases Nat.le_succ_iff.1 hk with hk | rfl
    · exact (hbefore d hd hk).le
    · exact le_rfl
  case isFalse hle =>
    refine ⟨fun d hd hk => ?_, h.unmatched, fun hpos => ?_⟩
    · rcases Nat.le_succ_iff.1 hk with hk | rfl
      · exact h.longest d hd hk
      · exact not_lt.1 hle
    · obtain ⟨h1, hk, hbest, hnear⟩ := h.nearest hpos
      exact ⟨h1, hk.trans k.le_succ, hbest, hnear⟩

end

/-- The scan has found what its offsets have. -/
theorem scanned_foldl (l : Nat) (inp : List Byte) (pos k : Nat) :
    Scanned l inp pos k (((List.range k).map (· + 1)).foldl (takeLonger l inp pos) (0, 0)) := by
  induction k with
  | zero => exact .zero
  | succ k ih =>
    rw [List.range_succ, List.map_append, List.foldl_append]
    exact ih.takeLonger

theorem scanned_search (w l : Nat) (inp : List Byte) (pos : Nat) :
    Scanned l inp pos (min w pos) (search w l inp pos) := scanned_foldl l inp pos (min w pos)

/-- Settles O43: what a cell finds is a common prefix, and what the search picks is read off its scan. -/
theorem lzSearchPicksTheLongestNearestMatch : Obligations.LzSearchPicksTheLongestNearestMatch := by
  intro w l inp pos _
  have h := scanned_search w l inp pos
  refine ⟨fun d _ _ => ?_, h.longest, h.unmatched, h.nearest⟩
  obtain ⟨hl, hn, hsame⟩ := matchLength_spec l inp pos d
  exact ⟨le_min hl hn, hsame, getElem?_ne_of_matchLength_lt⟩

/-! ### A forward copy -/

/-- A copy whose source repeats what is to come emits what is to come, overlapping or not (rules R213, R215). -/
theorem emitOut_copyByte {x : List Byte} {off k : Nat} (hoff : 1 ≤ off) (hk : off ≤ k) (len : Nat)
    (hlen : k + len ≤ x.length) (hrep : ∀ j, j < len → x[k - off + j]? = x[k + j]?) :
    emitOut (copyByte off) len (x.take k) = x.take (k + len) := by
  induction len with
  | zero => rfl
  | succ len ih =>
    have hnext : copyByte off (x.take (k + len)) = x[k + len] := by
      have hsrc : (x.take (k + len)).length - off = k - off + len := by
        rw [List.length_take]; omega
      rw [copyByte, hsrc, at0_eq_getElem (by rw [List.length_take]; omega), List.getElem_take]
      simpa [show k - off + len < x.length by omega, show k + len < x.length by omega] using
        hrep len len.lt_succ_self
    rw [emitOut_succ, ih (by omega) fun j hj => hrep j (by omega), hnext, ← Nat.add_assoc,
      List.take_succ_eq_append_getElem (by omega)]

/-! ### The decoder on a token -/

theorem ofNat_ne_zero {n a : Nat} (h : 1 ≤ a) (ha : a < 2 ^ n) : BitVec.ofNat n a ≠ 0 := fun he => by
  have h0 : a % 2 ^ n = 0 := (BitVec.toNat_ofNat a n).symm.trans (by simp [he])
  rw [Nat.mod_eq_of_lt ha] at h0
  omega

section
variable {outMax : Nat} {inp rest : List Byte} {w : Work}

theorem lzDecBody_lzLit {lit : Byte} (h : inp.drop w.pos = encode (.lzLit lit) ++ rest) :
    lzDecBody outMax inp w = lzLitOp outMax lit w := by
  rw [lzDecBody_of_drop h]
  rfl

theorem lzDecBody_lzCopylit {off : BitVec 16} {len lit : Byte} (hoff : off ≠ 0) (hlen : len ≠ 0)
    (h : inp.drop w.pos = encode (.lzCopylit off len lit) ++ rest) :
    lzDecBody outMax inp w =
      lzMatchOp outMax off.toNat len.toNat (some lit) (encode (.lzCopylit off len lit)) w := by
  rw [lzDecBody_of_drop h, be16_of_bytes, lzRecordOp, if_neg hoff, if_neg hlen]
  rfl

theorem lzDecBody_lzCopyend {off : BitVec 16} {len : Byte} (hoff : off ≠ 0) (hlen : len ≠ 0)
    (h : inp.drop w.pos = encode (.lzCopyend off len) ++ rest) :
    lzDecBody outMax inp w =
      lzMatchOp outMax off.toNat len.toNat none (encode (.lzCopyend off len)) w := by
  rw [lzDecBody_of_drop h, be16_of_bytes, lzRecordOp, if_neg hoff, if_pos rfl, if_neg hlen]
  rfl

end

/-- The decoder's cursor is at `p`, and it has emitted the first `k` bytes of `x`. -/
structure Decoded (x : List Byte) (p k : Nat) (w : Work) : Prop where
  cursor : w.pos = p
  out : w.out = x.take k

section
variable {x stream rest : List Byte} {outMax p k : Nat} {w : Work}

theorem Decoded.out_eq (h : Decoded x p k w) (hk : x.length ≤ k) : w.out = x := by
  rw [h.out, List.take_of_length_le hk]

/-- A pure literal emits the next byte (rule R212). -/
theorem Decoded.lzLitOp (h : Decoded x p k w) (hk : k < x.length) (hx : x.length ≤ outMax) :
    ∃ w', lzLitOp outMax (at0 x k) w = .ok w' ∧ Decoded x (p + 4) (k + 1) w' := by
  have hcap : w.olen + 1 ≤ outMax := by rw [Work.olen, h.out, List.length_take]; omega
  rw [lzLitOp_eq, if_neg (not_lt.2 hcap)]
  refine ⟨_, rfl, by rw [← h.cursor], ?_⟩
  simp only [h.out, List.take_succ_eq_append_getElem hk, at0_eq_getElem hk]

/-- A match that repeats the input emits it up to the end of its literal (rules R213 to R215). -/
theorem Decoded.lzMatchOp (h : Decoded x p k w) (hx : x.length ≤ outMax) {off len k' : Nat} {lit : Option Byte}
    (hoff : 1 ≤ off) (hk : off ≤ k) (hlen : k + len ≤ x.length)
    (hrep : ∀ j, j < len → x[k - off + j]? = x[k + j]?) (hlit : x.take (k + len) ++ lit.toList = x.take k')
    (rec : List Byte) :
    ∃ w', lzMatchOp outMax off len lit rec w = .ok w' ∧ Decoded x (p + 4) k' w' := by
  have holen : w.olen = k := by rw [Work.olen, h.out, List.length_take]; omega
  have hcap : w.olen + len + lit.toList.length ≤ outMax := by
    have := congrArg List.length hlit
    simp only [List.length_append, List.length_take] at this
    omega
  rw [lzMatchOp_eq, if_neg (by omega), if_neg (not_lt.2 hcap)]
  refine ⟨_, rfl, by rw [← h.cursor], ?_⟩
  simp only [h.out, emitOut_copyByte hoff hk len hlen hrep, hlit]

/-- The token the encoder writes at a cursor takes the decoder to the encoder's next cursor. -/
theorem Decoded.token (h : Decoded x p k w) (hk : k < x.length) (hx : x.length ≤ outMax) {win l : Nat}
    (hwin : win ≤ 65535) (hl : l ≤ 255)
    (hs : stream.drop p = encode (lzToken x k (search win l x k).1 (search win l x k).2) ++ rest) :
    ∃ w', lzDecBody outMax stream w = .ok w' ∧
      Decoded x (p + 4) (k + lzAdvance x k (search win l x k).1) w' := by
  rw [← h.cursor] at hs
  have hfound := search_found win l x k
  generalize (search win l x k).1 = best at hs hfound ⊢
  generalize (search win l x k).2 = boff at hs hfound ⊢
  unfold lzToken at hs
  unfold lzAdvance
  by_cases hbest : 0 < best
  · obtain ⟨hoff, hoff', hml⟩ := hfound hbest
    obtain ⟨hbl, hbn, hrep⟩ := matchLength_spec l x k boff
    rw [← hml] at hbl hbn hrep
    have hoffNat : (BitVec.ofNat 16 boff).toNat = boff := by
      rw [BitVec.toNat_ofNat]; exact Nat.mod_eq_of_lt (by omega)
    have hlenNat : (byteOf best).toNat = best := byteOf_toNat (by omega)
    have hoff0 : BitVec.ofNat 16 boff ≠ 0 := ofNat_ne_zero hoff (by omega)
    have hlen0 : byteOf best ≠ 0 := ofNat_ne_zero hbest (by omega)
    by_cases hend : k + best < x.length
    · rw [if_pos hbest, if_pos hend] at hs ⊢
      rw [lzDecBody_lzCopylit hoff0 hlen0 hs, hoffNat, hlenNat]
      refine h.lzMatchOp hx hoff (by omega) (by omega) hrep ?_ _
      rw [at0_eq_getElem hend, ← Nat.add_assoc, List.take_succ_eq_append_getElem hend, Option.toList_some]
    · rw [if_pos hbest, if_neg hend] at hs ⊢
      rw [lzDecBody_lzCopyend hoff0 hlen0 hs, hoffNat, hlenNat]
      refine h.lzMatchOp hx hoff (by omega) (by omega) hrep ?_ _
      rw [Option.toList_none, List.append_nil, show k + best = k + (x.length - k) by omega]
  · rw [if_neg hbest] at hs ⊢
    rw [lzDecBody_lzLit hs]
    exact h.lzLitOp hk hx

end

/-! ### The decoder on the encoder's stream -/

section
variable {b : Build} {x stream : List Byte} {outMax : Nat}

theorem length_encode_lzToken (x : List Byte) (pos best boff : Nat) :
    (encode (lzToken x pos best boff)).length = 4 := by
  unfold lzToken
  split
  · split
    · exact Laws.EncodeLength.lzCopylit _ _ _
    · exact Laws.EncodeLength.lzCopyend _ _
  · exact Laws.EncodeLength.lzLit _

theorem lzTokens_of_done {n k : Nat} (h : x.length ≤ k) : lzTokens b x n k = [] := by
  cases n with
  | zero => rfl
  | succ n => rw [lzTokens, if_pos h]

theorem lzTokens_succ_of_not_done {n k : Nat} (h : k < x.length) :
    lzTokens b x (n + 1) k = lzToken x k (search b.w b.l x k).1 (search b.w b.l x k).2 ::
      lzTokens b x n (k + lzAdvance x k (search b.w b.l x k).1) := by
  rw [lzTokens, if_neg (not_le.2 h)]

theorem lzAdvance_pos {k : Nat} (h : k < x.length) (best : Nat) : 1 ≤ lzAdvance x k best := by
  unfold lzAdvance
  split
  · split <;> omega
  · exact le_rfl

theorem length_lzTokens_encode (n k : Nat) :
    ((lzTokens b x n k).flatMap encode).length = 4 * (lzTokens b x n k).length := by
  induction n generalizing k with
  | zero => rfl
  | succ n ih =>
    by_cases h : x.length ≤ k
    · rw [lzTokens_of_done h]; rfl
    · rw [lzTokens_succ_of_not_done (not_le.1 h), List.flatMap_cons, List.length_append, ih,
        length_encode_lzToken, List.length_cons]
      omega

/-- The decoder's loop from a cursor of the encoder on: it emits the rest of the input. -/
theorem Decoded.tokens (hx : x.length ≤ outMax) (hwin : b.w ≤ 65535) (hl : b.l ≤ 255) {n p k : Nat} {w : Work}
    (h : Decoded x p k w) (hn : x.length ≤ k + n) (hs : stream.drop p = (lzTokens b x n k).flatMap encode) :
    (tryLoop (inputDone stream) (lzDecBody outMax stream) (lzTokens b x n k).length w).map Work.out = .ok x := by
  induction n generalizing p k w with
  | zero =>
    exact congrArg Except.ok (h.out_eq hn)
  | succ n ih =>
    by_cases hk : x.length ≤ k
    · rw [lzTokens_of_done hk]
      exact congrArg Except.ok (h.out_eq hk)
    · rw [not_le] at hk
      rw [lzTokens_succ_of_not_done hk] at hs ⊢
      have hlen := length_encode_lzToken x k (search b.w b.l x k).1 (search b.w b.l x k).2
      rw [List.flatMap_cons] at hs
      have hp : p < stream.length := by
        have := congrArg List.length hs
        rw [List.length_drop, List.length_append, hlen] at this
        omega
      obtain ⟨w', hbody, h'⟩ := h.token hk hx hwin hl hs
      rw [List.length_cons, tryLoop_succ_ok ((inputDone_false _ _).2 (h.cursor ▸ hp)) hbody]
      have := lzAdvance_pos hk (search b.w b.l x k).1
      refine ih h' (by omega) ?_
      rw [← List.drop_drop, hs, List.drop_left' hlen]

end

/-- Settles O45: the encoder's stream is its tokens' bytes, and the decoder reads them from the empty output on. -/
theorem lzRoundTrip : Obligations.LzRoundTrip := by
  intro b x outMax _ hwin _ hl hx
  have hlen := length_lzTokens_encode (b := b) (x := x) x.length 0
  rw [← lzCompress_eq] at hlen
  have hfuel : (lzCompress b x).length / Config.lzRec = (lzTokens b x x.length 0).length := by
    rw [hlen, Config.lzRec, Nat.mul_div_cancel_left _ (by decide)]
  have hstart : Decoded x 0 0 .init := ⟨rfl, rfl⟩
  rw [lzDecompress, if_neg (by simp [hlen, Config.lzRec]), lzDecode, hfuel]
  exact hstart.tokens hx hwin hl (by omega) (lzCompress_eq b x)

end Sys2Proof.Machine
end

section
/-! Proofs of the statements on the orchestrator (spec 44): dispatch, the policy on an attempt, and the selection, which
takes the least key of rule R254. -/

namespace Sys2Proof.Machine

open Sys2Proof

/-! ### Flags of the packed words -/

@[simp] theorem infoEffective_infoWord (alg : Nat) (fallback effective : Bool) (nTested mask : Nat) :
    infoEffective (infoWord alg fallback effective nTested mask) = effective := by
  rw [infoEffective, infoWord]
  repeat rw [BitVec.getLsbD_append]
  simp

@[simp] theorem infoFallback_infoWord (alg : Nat) (fallback effective : Bool) (nTested mask : Nat) :
    infoFallback (infoWord alg fallback effective nTested mask) = fallback := by
  rw [infoFallback, infoWord]
  repeat rw [BitVec.getLsbD_append]
  simp

@[simp] theorem infoEffective_testedInfo (alg : Nat) (effective : Bool) :
    infoEffective (testedInfo alg effective) = effective := by
  rw [infoEffective, testedInfo]
  repeat rw [BitVec.getLsbD_append]
  simp

/-- `R_INFO` of an effective `COMPRESS` (rule R240). -/
theorem infoWord_effective (a : Alg) : infoWord a.code false true 0 0 = BitVec.ofNat 32 (0x200 + a.code) := by
  cases a <;> rfl

/-- `R_INFO` of a fallback of `COMPRESS` (rule R240). -/
theorem infoWord_fallback (a : Alg) : infoWord a.code true false 0 0 = BitVec.ofNat 32 (0x100 + a.code) := by
  cases a <;> rfl

/-! ### Dispatch -/

theorem exec_compressUnsupported_of_busy {s : State} (hb : s.state = .busy) (alg : BitVec 6) :
    exec (.compressUnsupported alg) s = .next (s.raise .unsupportedAlgorithm) := by
  rw [exec_compressUnsupported, whenBusy_of_busy hb]

theorem exec_decompressUnsupported_of_busy {s : State} (hb : s.state = .busy) (alg : BitVec 6) :
    exec (.decompressUnsupported alg) s = .next (s.raise .unsupportedAlgorithm) := by
  rw [exec_decompressUnsupported, whenBusy_of_busy hb]

/-- Settles O22: the three registered codes by computation, every other one by `decodeCmd_alg`; the unsupported
instructions raise whatever the state. -/
theorem dispatchAndUnsupported : Obligations.DispatchAndUnsupported := by
  refine ⟨fun alg => ?_, fun alg s hb =>
    ⟨⟨_, exec_compressUnsupported_of_busy hb alg, errorForm_raise s _⟩,
      ⟨_, exec_decompressUnsupported_of_busy hb alg, errorForm_raise s _⟩⟩⟩
  by_cases h0 : alg = 0
  · subst h0; exact ⟨rfl, rfl⟩
  by_cases h1 : alg = 1
  · subst h1; exact ⟨rfl, rfl⟩
  by_cases h2 : alg = 2
  · subst h2; exact ⟨rfl, rfl⟩
  have hreserved : 3 ≤ alg.toNat := by bv_omega
  rw [if_neg h0, if_neg h1, if_neg h2, if_neg h0, if_neg h1, if_neg h2]
  exact (decodeCmd_alg alg).1 hreserved

/-! ### The check of `IN_LEN` -/

section
variable {s : State} (hb : s.state = .busy)
include hb

theorem exec_compress_of_inMax_lt (h : s.build.inMax < s.n) (a : Alg) :
    exec (compressInstr a) s = .next (s.raise .capacityExceeded) := by
  rw [exec_compress, whenBusy_of_busy hb, State.compress, if_pos h]

theorem exec_decompress_of_inMax_lt (h : s.build.inMax < s.n) (a : Alg) :
    exec (decompressInstr a) s = .next (s.raise .capacityExceeded) := by
  rw [exec_decompress, whenBusy_of_busy hb, State.decompress, if_pos h]

theorem exec_smartCompress_of_inMax_lt (h : s.build.inMax < s.n) (alg : BitVec 6) :
    exec (.smartCompress alg) s = .next (s.raise .capacityExceeded) := by
  rw [exec_smartCompress, whenBusy_of_busy hb, State.smart, if_pos h]

theorem exec_decompress_of_le_inMax (h : s.n ≤ s.build.inMax) (a : Alg) :
    exec (decompressInstr a) s = .next (s.endDecompress (s.decompressed a)) := by
  rw [exec_decompress, whenBusy_of_busy hb, State.decompress, if_neg (Nat.not_lt.2 h)]

end

/-- Settles O23: the check stands before everything else of the three commands. -/
theorem inputTooLongRaises : Obligations.InputTooLongRaises := fun s hb h =>
  ⟨fun a => ⟨_, exec_compress_of_inMax_lt hb h a, errorForm_raise s _⟩,
    fun a => ⟨_, exec_decompress_of_inMax_lt hb h a, errorForm_raise s _⟩,
    fun alg => ⟨_, exec_smartCompress_of_inMax_lt hb h alg, errorForm_raise s _⟩⟩

/-! ### `DECOMPRESS` -/

/-- Settles O27: by the codec's answer. -/
theorem decompressWritesItsBytes : Obligations.DecompressWritesItsBytes := by
  intro a s hb hn result
  have hresult : s.decompressed a = result := by cases a <;> rfl
  rw [exec_decompress_of_le_inMax hb hn, hresult]
  refine ⟨fun out hout => ⟨_, rfl, ?_⟩, fun k hk => ⟨_, rfl, ?_⟩⟩
  · rw [hout]
    exact doneForm_finish s out
  · rw [hk]
    exact errorForm_raise s k

/-! ### The policy -/

section
variable {inp : List Byte} {c : Candidate}

/-- The effective result (rule R234). -/
theorem policy_of_lt (h : c.rawSize < inp.length) :
    policy inp c =
      { alg := c.alg, payload := c.payload, tree := c.tree, orig := inp.length, comp := c.rawSize,
        ratio := ratioOf inp.length c.rawSize, avoid := 0, effective := true } :=
  if_pos (decide_eq_true h)

/-- The fallback result (rules R235, R238, R239). -/
theorem policy_of_le (h : inp.length ≤ c.rawSize) :
    policy inp c =
      { alg := c.alg, payload := inp, tree := [], orig := inp.length, comp := inp.length, ratio := 0,
        avoid := c.rawSize - inp.length, effective := false } :=
  if_neg fun he => absurd (of_decide_eq_true he) (Nat.not_lt.2 h)

theorem policy_orig : (policy inp c).orig = inp.length := by
  rcases Nat.lt_or_ge c.rawSize inp.length with h | h
  · rw [policy_of_lt h]
  · rw [policy_of_le h]

/-- No result is larger than the input. -/
theorem policy_comp_le : (policy inp c).comp ≤ inp.length := by
  rcases Nat.lt_or_ge c.rawSize inp.length with h | h
  · rw [policy_of_lt h]; exact h.le
  · rw [policy_of_le h]

/-- A result that is not effective is as large as the input. -/
theorem policy_comp_of_not_effective (he : (policy inp c).effective = false) :
    (policy inp c).comp = inp.length := by
  rcases Nat.lt_or_ge c.rawSize inp.length with h | h
  · rw [policy_of_lt h] at he; cases he
  · rw [policy_of_le h]

/-- The payload has the result's compressed size. -/
theorem length_payload_policy (hc : c.rawSize = c.payload.length) :
    (policy inp c).payload.length = (policy inp c).comp := by
  rcases Nat.lt_or_ge c.rawSize inp.length with h | h
  · rw [policy_of_lt h]; exact hc.symm
  · rw [policy_of_le h]

end

/-- An attempt is the compressor's raw output and tree, and it does not raise (rule R232). -/
theorem attempt_eq (b : Build) (inp : List Byte) (a : Alg) :
    attempt b inp a =
      { alg := a, rawSize := (rawOutput b inp a).length, err := none, payload := rawOutput b inp a,
        tree := rawTree inp a } := by
  cases a <;> rfl

/-! ### `COMPRESS` -/

@[simp] theorem State.ofNat_n (s : State) : BitVec.ofNat 32 s.n = s.inLen := by simp [State.n]

theorem exec_compress_of_le_inMax {s : State} (hb : s.state = .busy) (h : s.n ≤ s.build.inMax) (a : Alg) :
    exec (compressInstr a) s = .next (s.publish (policy s.input (attempt s.build s.input a)) [] 0) := by
  rw [exec_compress, whenBusy_of_busy hb, State.compress, if_neg (Nat.not_lt.2 h), State.endCompress, attempt_eq]

/-- Settles O24: the published result is the attempt's under the policy, effective or fallback. -/
theorem compressWritesItsResult : Obligations.CompressWritesItsResult := by
  intro a s hb hn raw tree rs
  have hlen := s.length_input
  refine ⟨_, exec_compress_of_le_inMax hb hn a, fun h => ?_, fun h => ?_, ?_, rfl, rfl, rfl, rfl, rfl, rfl, rfl,
    sameInputs_finish _ _ _ _⟩
  · rw [attempt_eq, policy_of_lt (by rwa [hlen]), hlen]
    exact ⟨Buffer.holds_holding _ _, rfl, s.ofNat_n, rfl, rfl, infoWord_effective a, rfl, rfl,
      Buffer.holds_holding _ _⟩
  · rw [attempt_eq, policy_of_le (by rwa [hlen]), hlen]
    exact ⟨Buffer.holds_holding _ _, by simp [State.publish, compressResults], s.ofNat_n, s.ofNat_n, rfl,
      infoWord_fallback a, rfl, rfl, Buffer.unspecified_holding_nil _⟩
  · refine (toNat_ofNat_le _).trans ?_
    rw [length_payload_policy (by rw [attempt_eq]), ← hlen]
    exact policy_comp_le

/-- No compressor emits a byte for the empty input (rule R242). -/
theorem rawOutput_nil (b : Build) (a : Alg) : rawOutput b [] a = [] := by cases a <;> rfl

/-- Settles O25: the raw output is as long as the input, so the result is a fallback. -/
theorem emptyInputFallsBack : Obligations.EmptyInputFallsBack := by
  intro a s hb hlen
  have hn : s.n = 0 := by simp [State.n, hlen]
  have hinput : s.input = [] := List.eq_nil_of_length_eq_zero (s.length_input.trans hn)
  have hraw : rawOutput s.build s.input a = [] := by rw [hinput, rawOutput_nil]
  refine ⟨hraw, _, exec_compress_of_le_inMax hb (by omega) a, rfl, ?_⟩
  rw [attempt_eq, hraw, hinput, policy_of_le (Nat.zero_le _)]
  exact ⟨rfl, rfl, rfl, rfl, infoFallback_infoWord .., infoEffective_infoWord .., rfl, rfl⟩

/-! ### The selection -/

/-- The selection key of rule R254, in its lexicographic order. -/
def Result.key (r : Result) : ℕ ×ₗ ℕ ×ₗ ℕ := toLex (r.tier, toLex (r.comp, r.alg.code))

theorem Result.before_iff {r q : Result} : r.before q = true ↔ r.key < q.key := by
  simp [Result.before, Result.key, Prod.Lex.toLex_lt_toLex]

/-- Of at least one result one is selected. -/
theorem selectBest_isSome {rs : List Result} (h : rs ≠ []) : (selectBest rs).isSome := by
  cases rs with
  | nil => exact absurd rfl h
  | cons r rs =>
    unfold selectBest
    split
    · rfl
    · split <;> rfl

/-- The selected result is one of the results, with the least key. -/
theorem selectBest_least {rs : List Result} {r : Result} (h : selectBest rs = some r) :
    r ∈ rs ∧ ∀ q ∈ rs, r.key ≤ q.key := by
  induction rs generalizing r with
  | nil => cases h
  | cons p ps ih =>
    unfold selectBest at h
    split at h
    · next hnone =>
      have hps : ps = [] := by
        by_contra hne
        simpa [hnone] using selectBest_isSome hne
      cases h
      simp [hps]
    · next q hq =>
      obtain ⟨hmem, hleast⟩ := ih hq
      split at h
      · next hlt =>
        cases h
        exact ⟨List.mem_cons_of_mem _ hmem, List.forall_mem_cons.2 ⟨(Result.before_iff.1 hlt).le, hleast⟩⟩
      · next hlt =>
        cases h
        have hle : p.key ≤ q.key := not_lt.1 fun hk => hlt (Result.before_iff.2 hk)
        exact ⟨List.mem_cons_self, List.forall_mem_cons.2 ⟨le_rfl, fun x hx => hle.trans (hleast x hx)⟩⟩

theorem Result.key_le_iff {r q : Result} :
    r.key ≤ q.key ↔ r.tier < q.tier ∨
      (r.tier = q.tier ∧ (r.comp < q.comp ∨ (r.comp = q.comp ∧ r.alg.code ≤ q.alg.code))) := by
  simp [Result.key, Prod.Lex.toLex_le_toLex]

theorem Result.tier_eq_zero_iff {r : Result} : r.tier = 0 ↔ r.effective = true := by simp [Result.tier]

/-- A key at most an effective one is effective itself, with a size at most the other's. -/
theorem Result.effective_of_key_le {r q : Result} (h : r.key ≤ q.key) (hq : q.effective = true) :
    r.effective = true ∧ r.comp ≤ q.comp := by
  have hq0 := Result.tier_eq_zero_iff.2 hq
  rw [Result.key_le_iff, hq0] at h
  exact ⟨Result.tier_eq_zero_iff.1 (by omega), by omega⟩

/-! ### `SMART_COMPRESS` -/

/-- The results `SMART_COMPRESS` selects among and lists, in registration order (rules R251, R256). -/
def State.tested (s : State) : List Result := registered.map fun a => policy s.input (attempt s.build s.input a)

section
variable {s : State} {r : Result}

/-- No attempt raises, so every one survives (rule R252). -/
theorem survivors_attempts (s : State) :
    survivors s.input (registered.map (attempt s.build s.input)) = s.tested := by
  simp [survivors, State.tested, registered, attempt_eq]

theorem failMask_attempts (s : State) : failMask (registered.map (attempt s.build s.input)) = 0 := by
  simp [failMask, registered, attempt_eq]

theorem State.tested_orig (h : r ∈ s.tested) : r.orig = s.n := by
  obtain ⟨a, -, rfl⟩ := List.mem_map.1 h
  rw [policy_orig, s.length_input]

theorem State.tested_comp_le (h : r ∈ s.tested) : r.comp ≤ s.n := by
  obtain ⟨a, -, rfl⟩ := List.mem_map.1 h
  exact s.length_input ▸ policy_comp_le

theorem State.tested_comp_of_not_effective (h : r ∈ s.tested) (he : r.effective = false) : r.comp = s.n := by
  obtain ⟨a, -, rfl⟩ := List.mem_map.1 h
  rw [policy_comp_of_not_effective he, s.length_input]

/-- The size of a tested result fits its register (rule R6). -/
theorem State.toNat_tested_comp (h : r ∈ s.tested) : (BitVec.ofNat 32 r.comp).toNat = r.comp := by
  rw [BitVec.toNat_ofNat, Nat.mod_eq_of_lt ((State.tested_comp_le h).trans_lt s.inLen.isLt)]

theorem State.toNat_tested_size (h : r ∈ s.tested) : (testedEntry r).size.toNat = r.comp :=
  State.toNat_tested_comp h

/-- On an input that fits, the selected result is published (rules R250, R257). -/
theorem exec_smartCompress_of_le_inMax (hb : s.state = .busy) (hn : s.n ≤ s.build.inMax) (alg : BitVec 6) :
    ∃ r, selectBest s.tested = some r ∧ exec (.smartCompress alg) s = .next (s.publish r s.tested 0) := by
  obtain ⟨r, hr⟩ := Option.isSome_iff_exists.1 (selectBest_isSome (rs := s.tested) (by simp [State.tested, registered]))
  refine ⟨r, hr, ?_⟩
  rw [exec_smartCompress, whenBusy_of_busy hb, State.smart, if_neg (Nat.not_lt.2 hn), State.endSmart,
    survivors_attempts, failMask_attempts, hr]

/-- A `SMART_COMPRESS` that ends in `DONE` had an input that fits. -/
theorem le_inMax_of_smartCompress_done {alg : BitVec 6} {t : State} (hb : s.state = .busy)
    (h : exec (.smartCompress alg) s = .next t) (hdone : t.state = .done) : s.n ≤ s.build.inMax := by
  by_contra hn
  rw [exec_smartCompress_of_inMax_lt hb (Nat.not_le.1 hn)] at h
  cases h
  cases hdone

end

/-- Settles O29: the selected result has the least key, and what is not effective is as large as the input. -/
theorem smartResultIsSmallest : Obligations.SmartResultIsSmallest := by
  intro alg s t hb hexec hdone entries
  obtain ⟨r, hr, hpublish⟩ := exec_smartCompress_of_le_inMax hb (le_inMax_of_smartCompress_done hb hexec hdone) alg
  obtain ⟨hmem, hleast⟩ := selectBest_least hr
  cases hpublish.symm.trans hexec
  have hentry : ∀ e ∈ entries, ∃ q ∈ s.tested, testedEntry q = e := fun e he =>
    List.mem_map.1 (List.mem_of_mem_filter he)
  have hle_size : ∀ q ∈ s.tested, r.comp ≤ q.comp → (BitVec.ofNat 32 r.comp).toNat ≤ (testedEntry q).size.toNat := by
    intro q hq hle
    rwa [State.toNat_tested_comp hmem, State.toNat_tested_size hq]
  refine ⟨fun e he heff => ?_, fun hnone e he => ?_⟩
  · obtain ⟨q, hq, rfl⟩ := hentry e he
    obtain ⟨hre, hle⟩ := Result.effective_of_key_le (hleast q hq) ((infoEffective_testedInfo _ _).symm.trans heff)
    exact ⟨(infoEffective_infoWord ..).trans hre, hle_size q hq hle⟩
  · have heff := hnone e he
    obtain ⟨q, hq, rfl⟩ := hentry e he
    have hqn : q.comp = s.n :=
      State.tested_comp_of_not_effective hq ((infoEffective_testedInfo _ _).symm.trans heff)
    exact ⟨hle_size q hq (hqn ▸ State.tested_comp_le hmem),
      congrArg (BitVec.ofNat 32) (hqn.trans (State.tested_orig hmem).symm)⟩

end Sys2Proof.Machine
end

section
/-! Proofs of the statements on exceptions (spec 60). -/

namespace Sys2Proof.Machine

open Sys2Proof

/-- A completion step that ends in `ERROR` raised (rule R23). -/
theorem Completes.exists_eq_raise {s t : State} (h : Completes s t) (herr : t.state = .error) :
    ∃ k, t = s.raise k := by
  rcases h with hraise | ⟨res, out, tree, rfl⟩
  · exact hraise
  · rw [State.finish_state] at herr
    cases herr

/-- From `BUSY`, an instruction reaches `ERROR` only by raising: otherwise it completes in `DONE`, or the engine stays
in `BUSY`. -/
theorem exists_eq_raise_of_exec {i : Instr} {s t : State} (hb : s.state = .busy) (h : exec i s = .next t)
    (herr : t.state = .error) : ∃ k, t = s.raise k := by
  have hne : s.state ≠ .error := by simp [hb]
  rcases exec_cases h with rfl | ⟨-, hcomp⟩ | ⟨-, w, rfl⟩ | ⟨hidle, -⟩ | ⟨hdone | herror, -⟩
  · exact absurd herr hne
  · exact hcomp.exists_eq_raise herr
  · exact absurd herr hne
  · exact absurd hb hidle
  · simp [hb] at hdone
  · exact absurd herror hne

/-- Settles O20: `ERROR` is reached from `BUSY` by raising alone, and what raises leaves the error form. -/
theorem everyErrorTakesTheErrorForm : Obligations.EveryErrorTakesTheErrorForm := by
  intro i s t hb h herr
  obtain ⟨k, rfl⟩ := exists_eq_raise_of_exec hb h herr
  exact ⟨k, errorForm_raise s k⟩

end Sys2Proof.Machine
end

section
/-! Proofs of the statements on the encoding (spec 30). The fields of a record are read back from its bytes, so each
format reduces to its decoder on fields; in the other direction `encode_decodeCmd` and its likes say what is decoded. -/

namespace Sys2Proof

open Machine

/-! ### Bytes read back as fields -/

theorem decode_ctrl_bytes32 (v : Word) (rest : List Byte) : decode .ctrl (bytes32 v ++ rest) = decodeCtrl v :=
  congrArg decodeCtrl (be32_of_bytes v)

theorem decode_lz32_fields (off : BitVec 16) (lenf b3 : Byte) (rest : List Byte) :
    decode .lz32 (bytes16 off ++ [lenf, b3] ++ rest) = .ok (decodeLz off lenf b3) :=
  congrArg (fun off => Except.ok (decodeLz off lenf b3)) (be16_of_bytes off)

theorem decode_node80_fields (flags value : Byte) (freq : Word) (left right : BitVec 16) (rest : List Byte) :
    decode .node80 ([flags, value] ++ bytes32 freq ++ bytes16 left ++ bytes16 right ++ rest) =
      .ok (decodeNode flags value freq left right) := by
  refine Eq.trans (b := .ok (decodeNode flags value (be32 _ _ _ _) (be16 _ _) (be16 _ _))) rfl ?_
  rw [be32_of_bytes, be16_of_bytes, be16_of_bytes]

/-! ### Records by their fields -/

theorem ne_zero_of_one_le {n : Nat} {x : BitVec n} (h : 1 ≤ x.toNat) : x ≠ 0 := by
  rintro rfl
  simp at h

theorem decodeLz_copylit {off : BitVec 16} {len : Byte} (hoff : 1 ≤ off.toNat) (hlen : 1 ≤ len.toNat) (lit : Byte) :
    decodeLz off len lit = .lzCopylit off len lit := by
  rw [decodeLz, if_neg (ne_zero_of_one_le hoff), if_neg (ne_zero_of_one_le hlen)]

theorem decodeLz_copyend {off : BitVec 16} {len : Byte} (hoff : 1 ≤ off.toNat) (hlen : 1 ≤ len.toNat) :
    decodeLz off 0 len = .lzCopyend off len := by
  rw [decodeLz, if_neg (ne_zero_of_one_le hoff), if_pos rfl, if_neg (ne_zero_of_one_le hlen)]

theorem decodeLz_rsvdZerolen {off : BitVec 16} (hoff : 1 ≤ off.toNat) : decodeLz off 0 0 = .lzRsvdZerolen off := by
  rw [decodeLz, if_neg (ne_zero_of_one_le hoff), if_pos rfl, if_pos rfl]

theorem decodeLz_rsvdZerooff {len : Byte} (hlen : 1 ≤ len.toNat) (b3 : Byte) :
    decodeLz 0 len b3 = .lzRsvdZerooff len b3 := by
  rw [decodeLz, if_pos rfl, if_neg (ne_zero_of_one_le hlen)]

/-- The fields of the nine bytes after a reserved `FLAGS` are those bytes. -/
theorem fields72 (rest : BitVec 72) :
    rest.extractLsb' 64 8 ++ rest.extractLsb' 32 32 ++ rest.extractLsb' 16 16 ++ rest.extractLsb' 0 16 = rest := by
  apply BitVec.eq_of_toNat_eq
  refine (toNat_concat _ _).trans ?_
  rw [toNat_concat (rest.extractLsb' 64 8 ++ rest.extractLsb' 32 32), toNat_concat, toNat_field, toNat_field,
    toNat_field, toNat_field]
  have := rest.isLt
  omega

theorem decodeNode_rsvd {flags : Byte} (h : 2 ≤ flags.toNat) (rest : BitVec 72) :
    decodeNode flags (rest.extractLsb' 64 8) (rest.extractLsb' 32 32) (rest.extractLsb' 16 16)
      (rest.extractLsb' 0 16) = .htRsvd flags rest := by
  have h1 : flags ≠ 1 := by rintro rfl; simp at h
  have h0 : flags ≠ 0 := by rintro rfl; simp at h
  rw [decodeNode, if_neg h1, if_neg h0, fields72]

/-- Settles O1: format by format, the fields are read back from the bytes and select the instruction's row. -/
theorem encodeThenDecode : Obligations.EncodeThenDecode := by
  intro i rest h
  cases i with
  | compressRle | compressHuffman | compressLz77 | decompressRle | decompressHuffman | decompressLz77 => rfl
  | compressUnsupported alg =>
    exact congrArg Except.ok ((decodeCmd_alg alg).1 (of_decide_eq_true h)).1
  | decompressUnsupported alg =>
    exact congrArg Except.ok ((decodeCmd_alg alg).1 (of_decide_eq_true h)).2
  | smartCompress alg => exact congrArg Except.ok (decodeCmd_alg alg).2.1
  | listAlgorithms alg => exact congrArg Except.ok (decodeCmd_alg alg).2.2
  | start r => exact (decode_ctrl_bytes32 _ rest).trans (decodeCtrl_start r)
  | clear r => exact (decode_ctrl_bytes32 _ rest).trans (decodeCtrl_clear r)
  | rleRun value count => rfl
  | lzLit lit => rfl
  | lzCopylit off len lit =>
    obtain ⟨hoff, hlen⟩ : 1 ≤ off.toNat ∧ 1 ≤ len.toNat := by simpa [Instr.wellFormed] using h
    exact (decode_lz32_fields off len lit rest).trans (congrArg Except.ok (decodeLz_copylit hoff hlen lit))
  | lzCopyend off len =>
    obtain ⟨hoff, hlen⟩ : 1 ≤ off.toNat ∧ 1 ≤ len.toNat := by simpa [Instr.wellFormed] using h
    exact (decode_lz32_fields off 0 len rest).trans (congrArg Except.ok (decodeLz_copyend hoff hlen))
  | lzRsvdZerolen off =>
    exact (decode_lz32_fields off 0 0 rest).trans
      (congrArg Except.ok (decodeLz_rsvdZerolen (of_decide_eq_true h)))
  | lzRsvdZerooff len b3 =>
    exact congrArg Except.ok (decodeLz_rsvdZerooff (of_decide_eq_true h) b3)
  | htLeaf value freq left right => exact decode_node80_fields 1 value freq left right rest
  | htNode value freq left right => exact decode_node80_fields 0 value freq left right rest
  | htRsvd flags r =>
    exact (decode_node80_fields flags _ _ _ _ rest).trans
      (congrArg Except.ok (decodeNode_rsvd (of_decide_eq_true h) r))

/-- Settles O2: format by format, what is decoded is written as the bytes read. -/
theorem decodeThenEncode : Obligations.DecodeThenEncode := by
  intro f bs i h
  unfold decode at h
  split at h
  case h_1 c rest =>
    cases h
    obtain ⟨henc, hwf, hf⟩ := encode_decodeCmd c
    exact ⟨hf, hwf, henc⟩
  case h_2 b0 b1 b2 b3 rest =>
    obtain ⟨hf, hwf, henc⟩ := encode_decodeCtrl _ i h
    exact ⟨hf, hwf, henc.trans (bytes32_be32 ..)⟩
  case h_3 v c rest => cases h; exact ⟨rfl, rfl, rfl⟩
  case h_4 o0 o1 l b rest => cases h; exact encode_decodeLz o0 o1 l b
  case h_5 => cases h; exact encode_decodeNode ..
  case h_6 => cases h

/-- A `CTRL` word is an instruction exactly when it has a strobe set (rule R14). -/
theorem exists_decodeCtrl_iff (v : Word) : (∃ i, decodeCtrl v = .ok i) ↔ v.toNat % 4 ≠ 0 := by
  have hstart : v.extractLsb' 0 1 = 1 ↔ v.toNat % 2 = 1 := by
    rw [← BitVec.toNat_inj, toNat_field]; simp
  have hclear : v.extractLsb' 1 1 = 1 ↔ v.toNat / 2 % 2 = 1 := by
    rw [← BitVec.toNat_inj, toNat_field]; simp
  unfold decodeCtrl
  simp only [hstart, hclear]
  split
  · exact iff_of_true ⟨_, rfl⟩ (by omega)
  · split
    · exact iff_of_true ⟨_, rfl⟩ (by omega)
    · exact iff_of_false (by simp) (by omega)

/-- The strobes are in the last byte of a `CTRL` word's bytes (log 9). -/
theorem be32_mod_four (b0 b1 b2 b3 : Byte) : (be32 b0 b1 b2 b3).toNat % 4 ≠ 0 ↔ b3.extractLsb' 0 2 ≠ 0 := by
  rw [Ne, Ne, ← BitVec.toNat_inj, toNat_field, be32_toNat]
  simp
  omega

/-- Settles O3: a list as long as its format is one of the patterns of `decode`; only `decodeCtrl` can fail. -/
theorem everyPatternIsAnInstruction : Obligations.EveryPatternIsAnInstruction := fun f bs h =>
  match f, bs, h with
  | .cmd8, _ :: _, _ => iff_of_true ⟨_, rfl⟩ nofun
  | .ctrl, b0 :: b1 :: b2 :: b3 :: _, _ =>
    (exists_decodeCtrl_iff (be32 b0 b1 b2 b3)).trans
      ((be32_mod_four b0 b1 b2 b3).trans ⟨fun h _ => h, fun h => h rfl⟩)
  | .rle16, _ :: _ :: _, _ => iff_of_true ⟨_, rfl⟩ nofun
  | .lz32, _ :: _ :: _ :: _ :: _, _ => iff_of_true ⟨_, rfl⟩ nofun
  | .node80, _ :: _ :: _ :: _ :: _ :: _ :: _ :: _ :: _ :: _ :: _, _ => iff_of_true ⟨_, rfl⟩ nofun

/-- Settles O4: each word is decoded by computation. -/
theorem specWordsDecode : Obligations.SpecWordsDecode :=
  ⟨rfl, rfl, rfl, rfl, rfl, rfl, rfl, rfl, rfl⟩
end Sys2Proof
end

section
/-! The orchestrator's round trip (spec 44, property P2 of spec 95). -/

namespace Sys2Proof.Machine

open Sys2Proof

/-- An attempt of `COMPRESS` that ends in `DONE` without fallback had an input that fits and published a raw output
shorter than it (rules R234, R240). -/
theorem effective_of_compress_done {a : Alg} {s t : State} (hb : s.state = .busy)
    (h : exec (compressInstr a) s = .next t) (hdone : t.state = .done) (hf : infoFallback t.res.rInfo = false) :
    s.n ≤ s.build.inMax ∧ (rawOutput s.build s.input a).length < s.n := by
  have hn : s.n ≤ s.build.inMax := by
    by_contra hn
    rw [exec_compress_of_inMax_lt hb (Nat.not_le.1 hn)] at h
    cases h
    cases hdone
  refine ⟨hn, ?_⟩
  rw [exec_compress_of_le_inMax hb hn, attempt_eq] at h
  cases h
  by_contra hlt
  rw [policy_of_le (s.length_input.trans_le (Nat.not_lt.1 hlt))] at hf
  simp [State.publish, compressResults] at hf

/-- What `DECOMPRESS` of an algorithm makes of its compressor's output and tree (rules R129, R171, R219). -/
theorem decompressed_of_raw {a : Alg} {u : State} {b : Build} {x : List Byte} (hl : b.Legal) (hx : x.length ≤ b.outMax)
    (hbuild : u.build = b) (hin : u.input = rawOutput b x a) (hmeta : u.metaLen.toNat = (rawTree x a).length)
    (hmem : u.metaBytes = serialise (rawTree x a)) (horig : u.origSize.toNat = x.length) :
    u.decompressed a = .ok x := by
  subst hbuild
  obtain ⟨⟨hw, hw'⟩, ⟨hlk, hlk'⟩, -⟩ := hl
  cases a with
  | rle => rw [State.decompressed, hin]; exact rleRoundTrip.1 x _ hx
  | huffman => rw [State.decompressed, hin, hmeta, hmem, horig]; exact huffmanRoundTrip keyLess x _ hx
  | lz77 => rw [State.decompressed, hin]; exact lzRoundTrip _ x _ hw hw' hlk hlk' hx

/-- A state whose input bytes are those a buffer holds has them as its input sequence. -/
theorem readBytes_eq_of_holds {u : State} {id id' : BufId} {b : Buffer} {bs : List Byte} (h : b.Holds bs)
    (hr : ∀ i, i < bs.length → u.readByte id i = b.read id' i) : u.readBytes id 0 bs.length = bs := by
  refine List.ext_getElem (by simp) fun i hi hi' => ?_
  rw [← h.read id' hi', ← hr i hi']
  simp [State.readBytes]

/-- The compressor's tree fits in the arena. -/
theorem length_rawTree_le (x : List Byte) (a : Alg) : (rawTree x a).length ≤ 511 := by
  cases a with
  | rle => exact Nat.zero_le _
  | lz77 => exact Nat.zero_le _
  | huffman =>
    by_cases hx : x = []
    · rw [hx]; exact Nat.zero_le _
    · rw [rawTree, huffCompress, huffCompressBy_tree keyLess hx]
      exact (forest_builtTree keyLess hx).length_tree_le

/-- Settles O60: the fields of `u` are the published result, so the codec reads its own compressor's output. -/
theorem effectiveResultsDecompress : Obligations.EffectiveResultsDecompress := by
  intro a s t u hb hlegal h hdone hf hub hubuild hlen hmeta horig hibuf hmibuf
  obtain ⟨hn, hraw⟩ := effective_of_compress_done hb h hdone hf
  rw [exec_compress_of_le_inMax hb hn, attempt_eq, policy_of_lt (hraw.trans_eq s.length_input.symm)] at h
  cases h
  have hinLt := s.inLen.isLt
  have hrawNat : u.inLen.toNat = (rawOutput s.build s.input a).length := by
    rw [hlen]; exact (BitVec.toNat_ofNat ..).trans (Nat.mod_eq_of_lt (hraw.trans hinLt))
  have hmetaNat : u.metaLen.toNat = (rawTree s.input a).length := by
    rw [hmeta]
    exact (BitVec.toNat_ofNat ..).trans
      (Nat.mod_eq_of_lt ((length_rawTree_le s.input a).trans_lt (by decide)))
  have horigNat : u.origSize.toNat = s.input.length := by
    rw [horig]; exact (BitVec.toNat_ofNat ..).trans (Nat.mod_eq_of_lt (s.length_input.trans_lt hinLt))
  have hinput : u.input = rawOutput s.build s.input a := by
    rw [State.input, State.n, hrawNat]
    exact readBytes_eq_of_holds (Buffer.holds_holding s.draws _) fun i hi => hibuf i (by rwa [← hlen, hrawNat])
  have hmem : u.metaBytes = serialise (rawTree s.input a) := by
    have hserial : Config.nodeRec * u.metaLen.toNat = (serialise (rawTree s.input a)).length := by
      rw [serialise_length, hmetaNat]; rfl
    rw [State.metaBytes, hserial]
    exact readBytes_eq_of_holds (Buffer.holds_holding s.draws _) fun i hi =>
      hmibuf i (by rw [← hserial, hmeta] at hi; exact hi)
  have hfits : s.input.length ≤ s.build.outMax := by
    have := hlegal.2.2.2.1.1
    rw [s.length_input]
    exact hn.trans this
  have hdec : u.decompressed a = .ok s.input :=
    decompressed_of_raw hlegal hfits hubuild hinput hmetaNat hmem horigNat
  refine ⟨_, exec_decompress_of_le_inMax hub ?_ a, ?_⟩
  · rw [hubuild, State.n, hrawNat]; omega
  · rw [hdec]
    exact doneForm_finish u s.input

end Sys2Proof.Machine
end

section
/-! Proofs of the remaining statements on the Huffman codec (spec 42): one merge, the tree loader on its own trees and
on any records, and the bit walk as a loop that emits at most a byte a bit. -/

namespace Sys2Proof.Machine

open Sys2Proof

/-! ### One merge -/

/-- The key of rule R146, in its lexicographic order. -/
def mergeKey (arena : List Node) (i : Nat) : ℕ ×ₗ ℕ := toLex (frequencyAt arena i, i)

theorem mergeKey_lt_iff {arena : List Node} {i j : Nat} :
    mergeKey arena i < mergeKey arena j ↔
      frequencyAt arena i < frequencyAt arena j ∨ (frequencyAt arena i = frequencyAt arena j ∧ i < j) := by
  simp [mergeKey, Prod.Lex.toLex_lt_toLex]

theorem keyLess_iff {arena : List Node} {i j : Nat} :
    keyLess arena i j = true ↔ mergeKey arena i < mergeKey arena j := by
  simp [keyLess, mergeKey_lt_iff]

theorem mergeKey_injective (arena : List Node) : Function.Injective (mergeKey arena) := fun i j h => by
  simpa [mergeKey] using congrArg (fun k => (ofLex k).2) h

/-- No element of an active set has a smaller key than the lowest. -/
theorem mergeKey_lowest_le (arena : List Node) {l : List Nat} {i : Nat} (hi : i ∈ l) :
    mergeKey arena (lowest keyLess arena l) ≤ mergeKey arena i := by
  cases l with
  | nil => cases hi
  | cons a rest =>
    rw [lowest]
    induction rest generalizing a i with
    | nil => rw [List.mem_singleton.1 hi]; exact le_rfl
    | cons j rest ih =>
      rw [List.foldl_cons]
      have hle : mergeKey arena (if keyLess arena j a then j else a) ≤ mergeKey arena a ∧
          mergeKey arena (if keyLess arena j a then j else a) ≤ mergeKey arena j := by
        split
        · next h => exact ⟨(keyLess_iff.1 h).le, le_rfl⟩
        · next h => exact ⟨le_rfl, not_lt.1 (mt keyLess_iff.2 h)⟩
      have hfirst := ih (i := if keyLess arena j a then j else a) _ List.mem_cons_self
      rcases List.mem_cons.1 hi with rfl | hi
      · exact hfirst.trans hle.1
      · rcases List.mem_cons.1 hi with rfl | hi
        · exact hfirst.trans hle.2
        · exact ih _ (List.mem_cons_of_mem _ hi)

/-- The lowest of a set without repeats is strictly below every other element. -/
theorem mergeKey_lowest_lt (arena : List Node) {l : List Nat} (hnd : l.Nodup) {i : Nat}
    (hi : i ∈ l.erase (lowest keyLess arena l)) :
    mergeKey arena (lowest keyLess arena l) < mergeKey arena i := by
  obtain ⟨hne, hi⟩ := hnd.mem_erase_iff.1 hi
  exact lt_of_le_of_ne (mergeKey_lowest_le arena hi) fun h => hne (mergeKey_injective arena h).symm

/-- Settles O46: the two nodes removed are the lowest of the set and the lowest of what is left of it. -/
theorem huffmanMergesTheTwoLowest : Obligations.HuffmanMergesTheTwoLowest := by
  intro w hnd hlen below
  have hbelow : ∀ i j, below i j ↔ mergeKey w.arena i < mergeKey w.arena j := fun _ _ => mergeKey_lt_iff.symm
  have ha := lowest_mem keyLess w.arena (l := w.active) (List.ne_nil_of_length_pos (by omega))
  have hlen' := List.length_erase_of_mem ha
  have hb := lowest_mem keyLess w.arena (l := w.active.erase (lowest keyLess w.arena w.active))
    (List.ne_nil_of_length_pos (by omega))
  refine ⟨_, _, _, (List.perm_cons_erase ha).trans ((List.perm_cons_erase hb).cons _), ?_, fun i hi => ?_, rfl,
    List.perm_append_singleton _ _⟩
  · exact (hbelow _ _).2 (mergeKey_lowest_lt _ hnd hb)
  · exact (hbelow _ _).2 (mergeKey_lowest_lt _ (hnd.erase _) hi)

/-! ### The frequencies of a tree fit its records -/

/-- No node of the arena counts more than the input's bytes. -/
def FrequenciesLe (n : Nat) (arena : List Node) : Prop := ∀ i, frequencyAt arena i ≤ n

theorem FrequenciesLe.append {n : Nat} {arena : List Node} (h : FrequenciesLe n arena) {nd : Node}
    (hnd : nd.frequency ≤ n) : FrequenciesLe n (arena ++ [nd]) := by
  intro i
  rcases lt_trichotomy i arena.length with hi | rfl | hi
  · rw [frequencyAt_append_left hi]; exact h i
  · rwa [frequencyAt_append_self]
  · rw [frequencyAt, List.getElem?_eq_none (by simp; omega)]; exact Nat.zero_le n

theorem frequenciesLe_leaves (x : List Byte) : FrequenciesLe x.length ((codedValues x).map (leafOf x)) := by
  intro i
  rw [frequencyAt, List.getElem?_map]
  cases (codedValues x)[i]? with
  | none => exact Nat.zero_le _
  | some v => exact List.count_le_length

/-- A merge keeps the bound, since the active nodes' frequencies add up to the input's length. -/
theorem FrequenciesLe.mergeBody {x : List Byte} {w : Work} (less : TieBreak) (h : FrequenciesLe x.length w.arena)
    (hf : Forest x w.arena w.active) (hd : mergeDone w = false) :
    FrequenciesLe x.length (mergeBody less w).arena := by
  obtain ⟨a, b, rest, hp, harena, -⟩ := mergeBody_spec less (mergeDone_false.1 hd)
  have hw := (hf.perm hp).weight
  rw [List.map_cons, List.map_cons, List.sum_cons, List.sum_cons] at hw
  rw [harena]
  exact h.append (by rw [mergedNode, Node.frequency]; omega)

theorem frequenciesLe_builtTree (less : TieBreak) {x : List Byte} (hx : x ≠ []) :
    FrequenciesLe x.length (builtTree less x) := by
  refine (runLoop_keeps (P := fun w => Forest x w.arena w.active ∧ FrequenciesLe x.length w.arena)
    (fun _ h hd => ⟨h.1.mergeBody less hd, h.2.mergeBody less h.1 hd⟩) ?_ _).2
  rw [createLeaves, leavesOf_countFrequencies, List.length_map]
  exact ⟨forest_leaves hx, frequenciesLe_leaves x⟩

/-- A record carries a node whose frequency fits in 32 bits unchanged. -/
theorem Node.stored_of_lt {nd : Node} (h : nd.frequency < 2 ^ 32) : nd.stored = nd := by
  cases nd with
  | leaf v f => exact congrArg (Node.leaf v) (Nat.mod_eq_of_lt h)
  | node f l r => exact congrArg (Node.node · l r) (Nat.mod_eq_of_lt h)

theorem map_stored_of_frequenciesLe {n : Nat} {tree : List Node} (h : FrequenciesLe n tree) (hn : n < 2 ^ 32) :
    tree.map Node.stored = tree := by
  refine (List.map_congr_left fun nd hnd => ?_).trans tree.map_id
  obtain ⟨i, hi⟩ := List.mem_iff_getElem?.1 hnd
  have hf := h i
  rw [frequencyAt, hi] at hf
  exact Node.stored_of_lt (hf.trans_lt hn)

/-- Settles O50: the tree loads as its stored form, which is the tree since no frequency exceeds the input's length. -/
theorem serialisedTreeReloads : Obligations.SerialisedTreeReloads := by
  intro less x hx hlen
  have h := forest_builtTree less hx
  have hle := h.length_tree_le
  have hstored := map_stored_of_frequenciesLe (frequenciesLe_builtTree less hx) hlen
  simp only [huffCompressBy_tree less hx]
  exact ⟨Nat.one_le_iff_ne_zero.2 (h.inside _ List.mem_cons_self).ne_bot, hle, serialise_length _, _,
    loadTree_serialise h.children (by omega) .init rfl, hstored⟩

/-! ### The tree loader on any records -/

section
variable (mem : List Byte)

/-- The fields of record `i` (rule R97). -/
def recordFlags (i : Nat) : Byte := at0 mem (10 * i)
def recordLeft (i : Nat) : BitVec 16 := be16 (at0 mem (10 * i + 6)) (at0 mem (10 * i + 7))
def recordRight (i : Nat) : BitVec 16 := be16 (at0 mem (10 * i + 8)) (at0 mem (10 * i + 9))

/-- What rule R98 (b) to (d) asks of record `i`. -/
def RecordOk (i : Nat) : Prop :=
  (recordFlags mem i = 0 ∨ recordFlags mem i = 1) ∧
    (recordFlags mem i = 1 → (recordLeft mem i).toNat = 0xFFFF ∧ (recordRight mem i).toNat = 0xFFFF) ∧
    (recordFlags mem i = 0 → (recordLeft mem i).toNat < i ∧ (recordRight mem i).toNat < i)

end

/-- A node that may stand at index `i`: its children, if it has any, are below (rule R98 (d)). -/
def Node.FitsAt (i : Nat) : Node → Prop
  | .leaf _ _ => True
  | .node _ l r => l < i ∧ r < i

theorem treeOk_append {arena : List Node} (ht : TreeOk arena) {nd : Node} (hnd : nd.FitsAt arena.length) :
    TreeOk (arena ++ [nd]) := by
  intro i f l r h
  rcases lt_trichotomy i arena.length with hi | rfl | hi
  · rw [List.getElem?_append_left hi] at h; exact ht i f l r h
  · rw [List.getElem?_append_right le_rfl, Nat.sub_self] at h
    cases h
    exact hnd
  · rw [List.getElem?_eq_none (by simp; omega)] at h; cases h

theorem treeOk_nil : TreeOk [] := fun i f l r h => by simp at h

/-- A node record that loads appends a node that may stand there (rules R98, R164). -/
theorem htRecordOp_ok {flags value : Byte} {freq : Word} {left right : BitVec 16} {w w' : Work}
    (h : htRecordOp flags value freq left right w = .ok w') :
    ∃ nd, Node.FitsAt w.arena.length nd ∧ w' = { w with arena := w.arena ++ [nd] } := by
  unfold htRecordOp htLeafOp htNodeOp at h
  split at h
  · split at h
    · cases h; exact ⟨.leaf _ _, trivial, rfl⟩
    · cases h
  · split at h
    · split at h
      · next hlr => cases h; exact ⟨.node _ _ _, hlr, rfl⟩
      · cases h
    · cases h

theorem loadBody_ok {mem : List Byte} {w w' : Work} (h : loadBody mem w = .ok w') :
    ∃ nd, Node.FitsAt w.arena.length nd ∧ w' = { w with arena := w.arena ++ [nd] } := htRecordOp_ok h

/-- The loader's iteration loads exactly the records rule R98 accepts, and raises on the others (rule R163). -/
theorem loadBody_of_recordOk {mem : List Byte} {w : Work} :
    (RecordOk mem w.arena.length → ∃ w', loadBody mem w = .ok w') ∧
      (¬ RecordOk mem w.arena.length → loadBody mem w = .error .malformedStream) := by
  have hbody : ∃ value freq, loadBody mem w = htRecordOp (recordFlags mem w.arena.length) value freq
      (recordLeft mem w.arena.length) (recordRight mem w.arena.length) w := ⟨_, _, rfl⟩
  obtain ⟨value, freq, hbody⟩ := hbody
  rw [hbody, RecordOk, htRecordOp]
  generalize recordFlags mem w.arena.length = flags
  have hword : ∀ x y : BitVec 16, x = 0xFFFF ∧ y = 0xFFFF ↔ x.toNat = 0xFFFF ∧ y.toNat = 0xFFFF := fun x y =>
    and_congr BitVec.toNat_inj.symm BitVec.toNat_inj.symm
  by_cases h1 : flags = 1
  · subst h1
    rw [if_pos rfl, htLeafOp]
    split
    · next h => exact ⟨fun _ => ⟨_, rfl⟩, fun hn => absurd ⟨.inr rfl, fun _ => (hword _ _).1 h, nofun⟩ hn⟩
    · next h => exact ⟨fun hok => absurd ((hword _ _).2 (hok.2.1 rfl)) h, fun _ => rfl⟩
  by_cases h0 : flags = 0
  · subst h0
    rw [if_neg h1, if_pos rfl, htNodeOp]
    split
    · next h => exact ⟨fun _ => ⟨_, rfl⟩, fun hn => absurd ⟨.inl rfl, nofun, fun _ => h⟩ hn⟩
    · next h => exact ⟨fun hok => absurd (hok.2.2 rfl) h, fun _ => rfl⟩
  · rw [if_neg h1, if_neg h0]
    exact ⟨fun hok => (hok.1.elim h0 h1).elim, fun _ => rfl⟩

theorem loadDone_false {t : Nat} {w : Work} : loadDone t w = false ↔ w.arena.length < t := by
  simp [loadDone]

/-- The loader from any index on: it loads all the records, or raises at the first that rule R98 rejects. -/
theorem loadLoop_spec {mem : List Byte} {t n : Nat} {w : Work} (hn : w.arena.length + n = t) (ht : TreeOk w.arena) :
    ((∀ i, w.arena.length ≤ i → i < t → RecordOk mem i) →
      ∃ w', tryLoop (loadDone t) (loadBody mem) n w = .ok w' ∧ w'.arena.length = t ∧ TreeOk w'.arena) ∧
    ((∃ i, w.arena.length ≤ i ∧ i < t ∧ ¬ RecordOk mem i) →
      tryLoop (loadDone t) (loadBody mem) n w = .error .malformedStream) := by
  induction n generalizing w with
  | zero => exact ⟨fun _ => ⟨w, rfl, hn, ht⟩, fun ⟨i, hi, hi', _⟩ => by omega⟩
  | succ n ih =>
    have hd : loadDone t w = false := loadDone_false.2 (by omega)
    obtain ⟨hok, herr⟩ := loadBody_of_recordOk (mem := mem) (w := w)
    by_cases hr : RecordOk mem w.arena.length
    · obtain ⟨w', hw'⟩ := hok hr
      obtain ⟨nd, hnd, rfl⟩ := loadBody_ok hw'
      have hlen : (w.arena ++ [nd]).length = w.arena.length + 1 := List.length_append
      obtain ⟨hall, hsome⟩ := ih (w := { w with arena := w.arena ++ [nd] }) (by simp only [hlen]; omega)
        (treeOk_append ht hnd)
      simp only [hlen] at hall hsome
      rw [tryLoop_succ_ok hd hw']
      refine ⟨fun h => hall fun i hi => h i (by omega), fun ⟨i, hi, hi', hbad⟩ => hsome ⟨i, ?_, hi', hbad⟩⟩
      have : i ≠ w.arena.length := fun he => hbad (he ▸ hr)
      omega
    · rw [tryLoop_succ_error hd (herr hr)]
      exact ⟨fun h => absurd (h _ le_rfl (by omega)) hr, fun _ => rfl⟩

theorem huffDecompress_of_load_error {outMax t size : Nat} {inp mem : List Byte} {k : ErrKind} (ht : 1 ≤ t)
    (ht' : t ≤ 511) (h : loadTree t mem .init = .error k) : huffDecompress outMax inp t mem size = .error k := by
  rw [huffDecompress, if_neg (by omega), if_neg (by simp [Config.nodeMax]; omega), h]

/-- Settles O51: the loader's loop from the empty arena on; more than 511 records raise before any is read. -/
theorem suppliedTreeIsCheckedAsR98 : Obligations.SuppliedTreeIsCheckedAsR98 := by
  intro outMax inp t mem size _ ht flags left right wellFormed
  have hiff : wellFormed ↔ t ≤ 511 ∧ ∀ i, i < t → RecordOk mem i := Iff.rfl
  obtain ⟨hall, hsome⟩ := loadLoop_spec (mem := mem) (t := t) (n := t) (w := .init) (by simp) treeOk_nil
  refine ⟨fun hwf => hall fun i _ => (hiff.1 hwf).2 i, fun hwf => ?_⟩
  by_cases ht' : t ≤ 511
  · rw [hiff] at hwf
    push Not at hwf
    obtain ⟨i, hi, hbad⟩ := hwf ht'
    exact huffDecompress_of_load_error ht ht' (hsome ⟨i, Nat.zero_le i, hi, hbad⟩)
  · rw [huffDecompress, if_neg (by omega), if_pos (by simp [Config.nodeMax]; omega)]

/-! ### The bit walk -/

theorem walkDone_iff {size : Nat} {w : Work} : walkDone size w = true ↔ size ≤ w.out.length := decide_eq_true_iff

/-- One iteration of the walk on a bit that is there: at most one byte comes out (rules R166, R167, R169). -/
theorem walkBody_of_lt {inp : List Byte} {w : Work} (h : w.bitpos < 8 * inp.length) :
    ∃ out cur, walkBody inp w = .ok { w with bitpos := w.bitpos + 1, out := out, cur := cur } ∧
      (out = w.out ∨ ∃ v, out = w.out ++ [v]) ∧
      (TreeOk w.arena → w.cur < w.arena.length → cur < w.arena.length) := by
  have hroot : w.cur < w.arena.length → rootOf w.arena < w.arena.length := fun hc => by rw [rootOf]; omega
  rw [walkBody, if_neg (Nat.not_le.2 h)]
  dsimp only
  split
  · exact ⟨_, _, rfl, .inr ⟨_, rfl⟩, fun _ hc => hc⟩
  · split
    · exact ⟨_, _, rfl, .inr ⟨_, rfl⟩, fun _ => hroot⟩
    · refine ⟨_, _, rfl, .inl rfl, fun ht hc => ?_⟩
      unfold childOf
      split
      · next f l r hi =>
        obtain ⟨hl, hr⟩ := ht _ f l r hi
        split
        · exact hr.trans hc
        · exact hl.trans hc
      · exact hc

/-- When the bits have run out, the walk raises (rule R169). -/
theorem walkBody_of_le {inp : List Byte} {w : Work} (h : 8 * inp.length ≤ w.bitpos) :
    walkBody inp w = .error .malformedStream := if_pos h

theorem walkBody_ok {inp : List Byte} {w w' : Work} (h : walkBody inp w = .ok w') :
    w.bitpos < 8 * inp.length ∧ w'.bitpos = w.bitpos + 1 ∧
      (w'.out = w.out ∨ ∃ v, w'.out = w.out ++ [v]) := by
  have hlt : w.bitpos < 8 * inp.length := by
    by_contra hle
    rw [walkBody_of_le (not_lt.1 hle)] at h
    cases h
  obtain ⟨out, cur, hbody, hout, -⟩ := walkBody_of_lt hlt
  cases hbody.symm.trans h
  exact ⟨hlt, rfl, hout⟩

/-- The walk reads nothing of the payload but the bit at its cursor. -/
theorem walkBody_append {inp : List Byte} {w : Work} (extra : List Byte) (h : w.bitpos < 8 * inp.length) :
    walkBody (inp ++ extra) w = walkBody inp w := by
  rw [walkBody, walkBody, if_neg (by rw [List.length_append]; omega), if_neg (Nat.not_le.2 h),
    payloadBit_append_left _ h]

/-- The walk's loop with enough iterations ends with the bytes asked for, or raises when the bits run out
(rules R168, R169). -/
theorem walkLoop_cases {inp : List Byte} {size n : Nat} {w : Work} (hn : 8 * inp.length + 1 ≤ w.bitpos + n)
    (hb : w.bitpos ≤ 8 * inp.length) (hout : w.out.length ≤ size) :
    (∃ w', tryLoop (walkDone size) (walkBody inp) n w = .ok w' ∧ w'.out.length = size ∧
        w'.out.length + w.bitpos ≤ w.out.length + 8 * inp.length) ∨
      tryLoop (walkDone size) (walkBody inp) n w = .error .malformedStream := by
  induction n generalizing w with
  | zero => omega
  | succ n ih =>
    by_cases hd : size ≤ w.out.length
    · exact .inl ⟨w, tryLoop_of_done (walkDone_iff.2 hd) _, le_antisymm hout hd, by omega⟩
    rw [not_le] at hd
    by_cases hlt : w.bitpos < 8 * inp.length
    · obtain ⟨out, cur, hbody, ho, -⟩ := walkBody_of_lt hlt
      have hlen : out.length ≤ w.out.length + 1 := by
        rcases ho with rfl | ⟨v, rfl⟩ <;> simp
      rw [tryLoop_succ_ok (walkDone_false hd) hbody]
      rcases ih (w := { w with bitpos := w.bitpos + 1, out := out, cur := cur }) (by simp only; omega)
        (by simp only; omega) (by simp only; omega) with ⟨w', hw', hsize, hbits⟩ | herr
      · exact .inl ⟨w', hw', hsize, by simp only at hbits; omega⟩
      · exact .inr herr
    · exact .inr (tryLoop_succ_error (walkDone_false hd) (walkBody_of_le (not_lt.1 hlt)) n)

theorem length_out_walkBody_le {inp : List Byte} {w w' : Work} (h : walkBody inp w = .ok w') :
    w'.out.length ≤ w.out.length + 1 := by
  rcases (walkBody_ok h).2.2 with ho | ⟨b, ho⟩ <;> simp [ho]

/-- The walk only appends to its output. -/
theorem walkLoop_prefix {inp : List Byte} {size n : Nat} {w w' : Work}
    (h : tryLoop (walkDone size) (walkBody inp) n w = .ok w') : w.out <+: w'.out := by
  refine tryLoop_keeps (P := fun v => w.out <+: v.out) (fun v v' hv _ hbody => ?_) List.prefix_rfl h
  rcases (walkBody_ok hbody).2.2 with ho | ⟨b, ho⟩
  · rwa [ho]
  · rw [ho]; exact hv.trans (List.prefix_append _ _)

/-- A walk that is asked for fewer bytes stops earlier, with the first of them (rules R168, R172). -/
theorem walkLoop_fewer {inp : List Byte} {size fewer n : Nat} (hle : fewer ≤ size) {w w' : Work}
    (hout : w.out.length ≤ fewer) (h : tryLoop (walkDone size) (walkBody inp) n w = .ok w') :
    (tryLoop (walkDone fewer) (walkBody inp) n w).map Work.out = .ok (w'.out.take fewer) := by
  induction n generalizing w with
  | zero =>
    cases h
    exact congrArg Except.ok (List.take_of_length_le (by omega)).symm
  | succ n ih =>
    by_cases hd : w.out.length = fewer
    · rw [tryLoop_of_done (walkDone_iff.2 hd.ge), ← hd]
      exact congrArg Except.ok (List.prefix_iff_eq_take.1 (walkLoop_prefix h))
    have hlt : w.out.length < fewer := by omega
    have hnot := walkDone_false (hlt.trans_le hle)
    cases hbody : walkBody inp w with
    | error k =>
      rw [tryLoop_succ_error hnot hbody] at h
      cases h
    | ok v =>
      have := length_out_walkBody_le hbody
      rw [tryLoop_succ_ok hnot hbody] at h
      rw [tryLoop_succ_ok (walkDone_false hlt) hbody]
      exact ih (by omega) h

/-- A walk that has come to its end takes no notice of more payload and more iterations (rule R168). -/
theorem walkLoop_append {inp : List Byte} {size n : Nat} (extra : List Byte) (m : Nat) {w w' : Work}
    (h : tryLoop (walkDone size) (walkBody inp) n w = .ok w') (hsize : w'.out.length = size) :
    tryLoop (walkDone size) (walkBody (inp ++ extra)) (n + m) w = .ok w' := by
  induction n generalizing w with
  | zero =>
    cases h
    exact tryLoop_of_done (walkDone_iff.2 hsize.ge) _
  | succ n ih =>
    cases hd : walkDone size w
    · cases hbody : walkBody inp w with
      | error k => rw [tryLoop_succ_error hd hbody] at h; cases h
      | ok v =>
        rw [tryLoop_succ_ok hd hbody] at h
        rw [Nat.succ_add, tryLoop_succ_ok hd ((walkBody_append extra (walkBody_ok hbody).1).trans hbody)]
        exact ih h
    · rw [tryLoop_of_done hd] at h ⊢
      exact h

/-! ### Decompression -/

section
variable {outMax t size : Nat} {inp mem out : List Byte} {w : Work}

/-- Decompression with a supplied tree that gives an output loaded the tree and walked to its end. -/
theorem huffDecompress_ok (ht : 1 ≤ t) (h : huffDecompress outMax inp t mem size = .ok out) :
    t ≤ 511 ∧ size ≤ outMax ∧ ∃ w, loadTree t mem .init = .ok w ∧
      (walkBits inp size (beginWalk w)).map Work.out = .ok out := by
  by_cases ht' : t ≤ 511
  · cases hload : loadTree t mem .init with
    | error k => rw [huffDecompress_of_load_error ht ht' hload] at h; cases h
    | ok w =>
      have hsize : size ≤ outMax := by
        by_contra hlt
        rw [huffDecompress, if_neg (by omega), if_neg (by simp [Config.nodeMax]; omega), hload] at h
        simp only at h
        rw [if_pos (not_le.1 hlt)] at h
        cases h
      exact ⟨ht', hsize, w, rfl, by rwa [huffDecompress_of_loaded ht ht' hload hsize] at h⟩
  · rw [huffDecompress, if_neg (by omega), if_pos (by simp [Config.nodeMax]; omega)] at h
    cases h

/-- With a tree that loads, too large a size raises before any bit is read (rule R165). -/
theorem huffDecompress_of_outMax_lt (ht : 1 ≤ t) (ht' : t ≤ 511) (hload : loadTree t mem .init = .ok w)
    (hsize : outMax < size) : huffDecompress outMax inp t mem size = .error .capacityExceeded := by
  rw [huffDecompress, if_neg (by omega), if_neg (by simp [Config.nodeMax]; omega), hload]
  exact if_pos hsize

/-- The walk from the root ends with `ORIG_SIZE` bytes, no more than there are bits, or raises. -/
theorem walkBits_cases (inp : List Byte) (size : Nat) (w : Work) :
    (∃ w', walkBits inp size (beginWalk w) = .ok w' ∧ w'.out.length = size ∧ size ≤ 8 * inp.length) ∨
      walkBits inp size (beginWalk w) = .error .malformedStream := by
  rcases walkLoop_cases (inp := inp) (size := size) (w := beginWalk w) (n := 8 * inp.length + 1) (by simp)
    (Nat.zero_le _) (Nat.zero_le _) with ⟨w', hw', hsize, hbits⟩ | herr
  · exact .inl ⟨w', hw', hsize, by simp [beginWalk] at hbits; omega⟩
  · exact .inr herr

end

/-- Settles O53: by the walk's loop, whose outcome `walkBits_cases` gives, on fewer bytes and on more payload. -/
theorem huffmanStopsAtOrigSize : Obligations.HuffmanStopsAtOrigSize := by
  refine ⟨fun outMax inp extra t mem size out ht h => ?_, fun outMax inp t mem size w ht ht' hload =>
    ⟨huffDecompress_of_outMax_lt ht ht' hload, fun hsize => ?_⟩⟩
  · obtain ⟨ht', hsize, w, hload, hwalk⟩ := huffDecompress_ok ht h
    rcases walkBits_cases inp size w with ⟨w', hw', hlen, -⟩ | herr
    · rw [hw'] at hwalk
      cases hwalk
      refine ⟨hlen, fun fewer hle => ?_, ?_⟩
      · rw [huffDecompress_of_loaded ht ht' hload (hle.trans hsize)]
        exact walkLoop_fewer hle (Nat.zero_le _) hw'
      · rw [huffDecompress_of_loaded ht ht' hload hsize, walkBits, List.length_append, Nat.mul_add,
          Nat.add_right_comm]
        exact congrArg (Except.map Work.out) (walkLoop_append extra _ hw' hlen)
    · rw [herr] at hwalk
      cases hwalk
  · rw [huffDecompress_of_loaded ht ht' hload hsize]
    rcases walkBits_cases inp size w with ⟨w', hw', -, hbits⟩ | herr
    · rw [hw']
      exact ⟨.inl ⟨_, rfl⟩, fun hlt => by omega⟩
    · rw [herr]
      exact ⟨.inr rfl, fun _ => rfl⟩

/-- At a leaf root, the walk emits the leaf's value alone (rule R167). -/
theorem walkLoop_leafRoot {inp : List Byte} {size n : Nat} {w : Work} {v : Byte} {f : Nat}
    (hr : w.arena[rootOf w.arena]? = some (.leaf v f)) (hn : 8 * inp.length + 1 ≤ w.bitpos + n)
    (hb : w.bitpos ≤ 8 * inp.length) (hbs : w.bitpos ≤ size) (hout : w.out = List.replicate w.bitpos v) :
    (tryLoop (walkDone size) (walkBody inp) n w).map Work.out =
      if size ≤ 8 * inp.length then .ok (List.replicate size v) else .error .malformedStream := by
  induction n generalizing w with
  | zero => omega
  | succ n ih =>
    have hlen : w.out.length = w.bitpos := by rw [hout, List.length_replicate]
    by_cases hd : size ≤ w.bitpos
    · rw [tryLoop_of_done (walkDone_iff.2 (hlen ▸ hd)), if_pos (hd.trans hb)]
      exact congrArg Except.ok (hout.trans (by rw [le_antisymm hd hbs]))
    have hnot := walkDone_false (hlen.trans_lt (not_le.1 hd))
    have hbody := walkBody_leafRoot (inp := inp) hr
    by_cases hlt : w.bitpos < 8 * inp.length
    · rw [if_neg (Nat.not_le.2 hlt)] at hbody
      rw [tryLoop_succ_ok hnot hbody]
      exact ih hr (by simp only; omega) hlt (not_le.1 hd) (by rw [hout, List.replicate_succ'])
    · rw [if_pos (not_lt.1 hlt)] at hbody
      rw [tryLoop_succ_error hnot hbody, if_neg (by omega)]
      rfl

/-- Settles O54: the walk from the root that is a leaf. -/
theorem huffmanLeafRoot : Obligations.HuffmanLeafRoot := by
  intro outMax inp t mem size w v f ht ht' hsize hload hroot
  rw [huffDecompress_of_loaded ht ht' hload hsize]
  exact walkLoop_leafRoot (w := beginWalk w) hroot (by simp) (Nat.zero_le _) (Nat.zero_le _) rfl

end Sys2Proof.Machine
end

section
/-! Proofs of the statements on instructions in general (spec 10, 60) and on records (spec 41, 42, 43): every
instruction is a command, a strobe or a record, and what a record does is one operation on the running structures. -/

namespace Sys2Proof.Machine

open Sys2Proof

/-! ### Any instruction -/

theorem exists_whenBusy_eq (f : State → State) (s : State) : ∃ t, whenBusy f s = .next t := by
  unfold whenBusy
  split <;> exact ⟨_, rfl⟩

theorem exists_recordStep_eq (ph : Phase) (op : Work → Except ErrKind Work) (s : State) :
    ∃ t, recordStep ph op s = .next t := by
  unfold recordStep
  split
  · split <;> exact ⟨_, rfl⟩
  · exact ⟨_, rfl⟩

/-- Settles O17: a command, a strobe and a record each answer a next state. -/
theorem everyInstructionCompletes : Obligations.EveryInstructionCompletes := by
  intro i s
  by_cases hc : i.format = .cmd8
  · obtain ⟨f, hf, -⟩ := exec_command hc
    rw [hf]
    exact exists_whenBusy_eq f s
  by_cases hs : i.format = .ctrl
  · cases i <;> cases hs
    · rw [exec_start]; split <;> exact ⟨_, rfl⟩
    · rw [exec_clear]; split <;> exact ⟨_, rfl⟩
  · obtain ⟨op, hop⟩ := exec_record hc hs
    rw [hop]
    exact exists_recordStep_eq _ _ s

theorem exec_of_not_busy {i : Instr} {s : State} (hi : i.format = .cmd8) (h : s.state ≠ .busy) :
    exec i s = .next s := by
  obtain ⟨f, hf, -⟩ := exec_command hi
  rw [hf, whenBusy_of_not_busy h]

/-- The loop that interprets the records of a format. -/
def Format.decoder : Format → Phase
  | .rle16 => .decRle
  | .lz32 => .decLz
  | _ => .tree

theorem exec_record_decoder {i : Instr} (h : i.format ≠ .cmd8) (h' : i.format ≠ .ctrl) :
    ∃ op : Nat → Work → Except ErrKind Work, ∀ s,
      exec i s = recordStep (Format.decoder i.format) (op s.build.outMax) s := exec_record h h'

/-- A record outside its decoder changes nothing (log 7). -/
theorem exec_of_not_decoding {i : Instr} {s : State} (h : i.format ≠ .cmd8) (h' : i.format ≠ .ctrl)
    (hn : ¬ (s.state = .busy ∧ s.work.phase = Format.decoder i.format)) : exec i s = .next s := by
  obtain ⟨op, hop⟩ := exec_record_decoder h h'
  rw [hop, recordStep_idle hn]

/-- Settles O18: by the guards of the engine and of a record's step. -/
theorem nothingRunsOutsideItsPlace : Obligations.NothingRunsOutsideItsPlace := fun i s =>
  ⟨exec_of_not_busy,
    fun h hn => exec_of_not_decoding (by simp [h]) (by simp [h]) (by rwa [h]),
    fun h hn => exec_of_not_decoding (by simp [h]) (by simp [h]) (by rwa [h]),
    fun h hn => exec_of_not_decoding (by simp [h]) (by simp [h]) (by rwa [h])⟩

theorem Completes.sameInputs {s t : State} (h : Completes s t) : SameInputs s t := by
  rcases h with ⟨k, rfl⟩ | ⟨res, out, tree, rfl⟩
  · exact sameInputs_raise s k
  · exact sameInputs_finish s res out tree

theorem sameInputs_of_exec {i : Instr} {s t : State} (h : exec i s = .next t) : SameInputs s t := by
  rcases exec_cases h with rfl | ⟨-, hcomp⟩ | ⟨-, w, rfl⟩ | ⟨-, rfl⟩ | ⟨-, rfl⟩
  · exact .refl t
  · exact hcomp.sameInputs
  · exact sameInputs_withWork s w
  · exact sameInputs_startCommand s
  · exact sameInputs_clearResult s

/-- The state with other output buffers. -/
def State.withOutputs (s : State) (b c : Buffer) : State := { s with obuf := b, mobuf := c }

/-- A command's completion step writes both output buffers and reads neither. -/
theorem exec_command_withOutputs {i : Instr} (hi : i.format = .cmd8) :
    ∃ f, (∀ s, exec i s = whenBusy f s) ∧ ∀ s b c, f (s.withOutputs b c) = f s := by
  cases i <;> cases hi
  · exact ⟨_, exec_compress .rle, fun _ _ _ => rfl⟩
  · exact ⟨_, exec_compress .huffman, fun _ _ _ => rfl⟩
  · exact ⟨_, exec_compress .lz77, fun _ _ _ => rfl⟩
  · exact ⟨_, exec_compressUnsupported _, fun _ _ _ => rfl⟩
  · exact ⟨_, exec_decompress .rle, fun _ _ _ => rfl⟩
  · exact ⟨_, exec_decompress .huffman, fun _ _ _ => rfl⟩
  · exact ⟨_, exec_decompress .lz77, fun _ _ _ => rfl⟩
  · exact ⟨_, exec_decompressUnsupported _, fun _ _ _ => rfl⟩
  · exact ⟨_, exec_smartCompress _, fun _ _ _ => rfl⟩
  · exact ⟨_, exec_listAlgorithms _, fun _ _ _ => rfl⟩

/-- A step either leaves the output buffers as it finds them and reads neither, or writes both and reads neither. -/
def IgnoresOutputs (f : State → Host.Outcome State Fault Refusal) : Prop :=
  ∀ s t b c, f s = .next t →
    (t.obuf = s.obuf ∧ t.mobuf = s.mobuf ∧ f (s.withOutputs b c) = .next (t.withOutputs b c)) ∨
      f (s.withOutputs b c) = .next t

theorem ignoresOutputs_recordStep (ph : Phase) (op : Nat → Work → Except ErrKind Work) :
    IgnoresOutputs (fun s => recordStep ph (op s.build.outMax) s) := by
  intro s t b c h
  rcases recordStep_cases h with ⟨hb, hp, w, hw, rfl⟩ | ⟨hb, hp, k, hk, rfl⟩ | ⟨hn, rfl⟩
  · exact .inl ⟨rfl, rfl, recordStep_ok hb hp hw⟩
  · exact .inr (recordStep_error hb hp hk)
  · exact .inl ⟨rfl, rfl, recordStep_idle hn⟩

theorem ignoresOutputs_exec (i : Instr) : IgnoresOutputs (exec i) := by
  by_cases hc : i.format = .cmd8
  · obtain ⟨f, hf, hout⟩ := exec_command_withOutputs hc
    intro s t b c h
    rw [hf] at h ⊢
    rcases whenBusy_cases h with ⟨hb, rfl⟩ | ⟨hn, rfl⟩
    · exact .inr ((whenBusy_of_busy (s := s.withOutputs b c) hb).trans (congrArg _ (hout s b c)))
    · exact .inl ⟨rfl, rfl, whenBusy_of_not_busy (s := t.withOutputs b c) hn⟩
  by_cases hs : i.format = .ctrl
  · intro s t b c h
    cases i <;> cases hs
    · rw [exec_start] at h ⊢
      split at h
      · next hb => cases h; exact .inl ⟨rfl, rfl, if_pos hb⟩
      · next hb => cases h; exact .inr (if_neg hb)
    · rw [exec_clear] at h ⊢
      split at h
      · next hd => cases h; exact .inr (if_pos hd)
      · next hd => cases h; exact .inl ⟨rfl, rfl, if_neg hd⟩
  · obtain ⟨op, hop⟩ := exec_record_decoder hc hs
    rw [funext hop]
    exact ignoresOutputs_recordStep _ op

/-- Settles O19: by all an instruction can do, and by what a command, a strobe and a record read. -/
theorem noInstructionWritesTheInputs : Obligations.NoInstructionWritesTheInputs :=
  ⟨fun _ _ _ => sameInputs_of_exec, fun i s t b c => ignoresOutputs_exec i s t b c⟩

/-- Settles O21: the completion step has two forms. -/
theorem commandsAreAllOrNothing : Obligations.CommandsAreAllOrNothing := by
  intro i s hi hb
  obtain ⟨f, hf, hcomp⟩ := exec_command hi
  refine ⟨f s, (hf s).trans (whenBusy_of_busy hb), ?_⟩
  rcases hcomp s with ⟨k, hk⟩ | ⟨res, out, tree, hfin⟩
  · rw [hk]; exact ⟨rfl, rfl, .inr ⟨k, errorForm_raise s k⟩⟩
  · rw [hfin]; exact ⟨rfl, rfl, .inl ⟨rfl, rfl⟩⟩

/-! ### Records: what holds of each -/

/-- A record that its decoder accepts changes the running structures alone. -/
theorem exists_sameOutputs_of_record {i : Instr} {s : State} {ph : Phase} {op : Work → Except ErrKind Work} {w : Work}
    (hexec : exec i s = recordStep ph op s) (hb : s.state = .busy) (hp : s.work.phase = ph) (h : op s.work = .ok w) :
    ∃ t, exec i s = .next t ∧ t.work = w ∧ SameInputs s t ∧ SameOutputs s t :=
  ⟨s.withWork w, hexec.trans (recordStep_ok hb hp h), rfl, sameInputs_withWork s w, sameOutputs_withWork s w⟩

/-- A record that raises ends the command in the error form (rule R286). -/
theorem exists_errorForm_of_record {i : Instr} {s : State} {ph : Phase} {op : Work → Except ErrKind Work}
    {k : ErrKind} (hexec : exec i s = recordStep ph op s) (hb : s.state = .busy) (hp : s.work.phase = ph)
    (h : op s.work = .error k) : ∃ t, exec i s = .next t ∧ ErrorForm s t k :=
  ⟨s.raise k, hexec.trans (recordStep_error hb hp h), errorForm_raise s k⟩

/-! ### RLE records and pure literals -/

/-- Settles O32: `RLE.RUN` in one equation. -/
theorem rleRunRepeatsItsValue : Obligations.RleRunRepeatsItsValue := fun value count s hb hp hfit =>
  exists_sameOutputs_of_record (exec_rleRun value count s) hb hp
    ((rleRunOp_eq ..).trans (if_neg (Nat.not_lt.2 hfit)))

/-- Settles O33: a pure literal in one equation. -/
theorem lzLitAppendsItsByte : Obligations.LzLitAppendsItsByte := fun lit s hb hp hfit =>
  exists_sameOutputs_of_record (exec_lzLit lit s) hb hp ((lzLitOp_eq ..).trans (if_neg (Nat.not_lt.2 hfit)))

/-! ### A forward copy is periodic -/

/-- What a copy of `len` bytes from `off` back emits: the last `off` bytes of the output over and over (rule R213). -/
def copied (off len : Nat) (out : List Byte) : List Byte :=
  (List.range len).map fun j => at0 out (out.length - off + j % off)

@[simp] theorem length_copied (off len : Nat) (out : List Byte) : (copied off len out).length = len := by simp [copied]

theorem copied_succ (off len : Nat) (out : List Byte) :
    copied off (len + 1) out = copied off len out ++ [at0 out (out.length - off + len % off)] := by
  rw [copied, List.range_succ, List.map_append]
  rfl

section
variable {off len j : Nat} {out : List Byte} (hoff : 1 ≤ off) (hle : off ≤ out.length)
include hoff hle

theorem getElem?_copied (hj : j < len) : (copied off len out)[j]? = out[out.length - off + j % off]? := by
  have hmod := Nat.mod_lt j hoff
  rw [copied, List.getElem?_map, List.getElem?_range hj, Option.map_some, at0_eq_getElem (by omega),
    List.getElem?_eq_getElem]

/-- The byte `off` positions before a copied one, in the output as it grows. -/
theorem getElem?_append_copied (hj : j ≤ len) :
    (out ++ copied off len out)[out.length + j - off]? = out[out.length - off + j % off]? := by
  by_cases hlt : j < off
  · rw [List.getElem?_append_left (by omega), Nat.mod_eq_of_lt hlt, Nat.sub_add_comm hle]
  · rw [not_lt] at hlt
    rw [List.getElem?_append_right (by omega), show out.length + j - off - out.length = j - off by omega,
      getElem?_copied hoff hle (by omega), ← Nat.mod_eq_sub_mod hlt]

/-- The copy loop emits the copied bytes. -/
theorem emitOut_copyByte_eq (len : Nat) : emitOut (copyByte off) len out = out ++ copied off len out := by
  induction len with
  | zero => simp [emitOut, copied]
  | succ len ih =>
    have hnext : copyByte off (out ++ copied off len out) = at0 out (out.length - off + len % off) := by
      rw [copyByte, List.length_append, length_copied, at0, at0, List.getD_eq_getElem?_getD,
        List.getD_eq_getElem?_getD, getElem?_append_copied hoff hle le_rfl]
    rw [emitOut_succ, ih, hnext, List.append_assoc, copied_succ]

/-- The copied bytes as rules R213 and R214 give them. -/
theorem copied_spec (len : Nat) :
    (copied off len out).length = len ∧ ∀ j, j < len →
      (copied off len out)[j]? = (out ++ copied off len out)[out.length + j - off]? ∧
        (copied off len out)[j]? = out[out.length - off + j % off]? :=
  ⟨length_copied .., fun _ hj =>
    ⟨(getElem?_copied hoff hle hj).trans (getElem?_append_copied hoff hle hj.le).symm, getElem?_copied hoff hle hj⟩⟩

end

/-- A match record with a legal offset that fits: the copied bytes, then the literal if there is one (rules R213,
R214). -/
theorem lzMatchOp_of_fits {outMax off len : Nat} {lit : Option Byte} {w : Work} (rec : List Byte) (hoff : 1 ≤ off)
    (hle : off ≤ w.out.length) (hfit : w.out.length + len + lit.toList.length ≤ outMax) :
    lzMatchOp outMax off len lit rec w = .ok { w with
      record := rec, copy := 0, pos := w.pos + 4, out := w.out ++ copied off len w.out ++ lit.toList } := by
  rw [lzMatchOp_eq, if_neg (show ¬ w.olen < off from Nat.not_lt.2 hle),
    if_neg (show ¬ outMax < w.olen + len + lit.toList.length from Nat.not_lt.2 hfit), emitOut_copyByte_eq hoff hle]

/-- Settles O34: the bytes are those of `copied`. -/
theorem lzCopylitCopiesForward : Obligations.LzCopylitCopiesForward := by
  intro off len lit s hb hp hoff _ hle hfit
  obtain ⟨t, hexec, hwork, hframe⟩ := exists_sameOutputs_of_record (exec_lzCopylit off len lit s) hb hp
    (lzMatchOp_of_fits (lit := some lit) _ hoff hle hfit)
  obtain ⟨hlen, hbytes⟩ := copied_spec hoff hle len.toNat
  exact ⟨t, _, hexec, hlen, hbytes, hwork, hframe⟩

/-- Settles O35: the bytes are those of `copied`, and there is no literal. -/
theorem lzCopyendCopiesForward : Obligations.LzCopyendCopiesForward := by
  intro off len s hb hp hoff _ hle hfit
  obtain ⟨t, hexec, hwork, hframe⟩ := exists_sameOutputs_of_record (exec_lzCopyend off len s) hb hp
    (lzMatchOp_of_fits (lit := none) _ hoff hle hfit)
  obtain ⟨hlen, hbytes⟩ := copied_spec hoff hle len.toNat
  rw [Option.toList_none, List.append_nil] at hwork
  exact ⟨t, _, hexec, hlen, hbytes, hwork, hframe⟩

/-! ### Records that raise -/

theorem lzMatchOp_of_far {outMax off len : Nat} {lit : Option Byte} {rec : List Byte} {w : Work}
    (h : w.out.length < off) : lzMatchOp outMax off len lit rec w = .error .malformedStream := if_pos h

theorem lzMatchOp_of_overflow {outMax off len : Nat} {lit : Option Byte} {rec : List Byte} {w : Work}
    (h : off ≤ w.out.length) (hfull : outMax < w.out.length + len + lit.toList.length) :
    lzMatchOp outMax off len lit rec w = .error .capacityExceeded :=
  (if_neg (Nat.not_lt.2 h)).trans (if_pos hfull)

/-- Settles O36: the tests of the decoder and of its records, in the order written. -/
theorem lzMalformedRecordsRaise : Obligations.LzMalformedRecordsRaise :=
  ⟨fun _ _ h => if_pos h, fun s hb hp =>
    ⟨fun off => exists_errorForm_of_record (exec_lzRsvdZerolen off s) hb hp rfl,
      fun len b3 => exists_errorForm_of_record (exec_lzRsvdZerooff len b3 s) hb hp rfl,
      fun off len lit h => exists_errorForm_of_record (exec_lzCopylit off len lit s) hb hp (lzMatchOp_of_far h),
      fun off len h => exists_errorForm_of_record (exec_lzCopyend off len s) hb hp (lzMatchOp_of_far h)⟩⟩

/-- Settles O37: by each record's test of the capacity. -/
theorem recordsThatOverflowRaise : Obligations.RecordsThatOverflowRaise := fun s hb =>
  ⟨fun hp value count h => exists_errorForm_of_record (exec_rleRun value count s) hb hp (if_pos h), fun hp =>
    ⟨fun lit h => exists_errorForm_of_record (exec_lzLit lit s) hb hp (if_pos h),
      fun off len lit hle h =>
        exists_errorForm_of_record (exec_lzCopylit off len lit s) hb hp (lzMatchOp_of_overflow hle h),
      fun off len hle h =>
        exists_errorForm_of_record (exec_lzCopyend off len s) hb hp (lzMatchOp_of_overflow hle h)⟩⟩

/-- Settles O38: by the loader's test of each record's children. -/
theorem nodeRecordsLoadOrRaise : Obligations.NodeRecordsLoadOrRaise := fun s hb hp =>
  ⟨fun value freq => exists_sameOutputs_of_record (exec_htLeaf value freq _ _ s) hb hp (if_pos ⟨rfl, rfl⟩),
    fun value freq left right h => exists_errorForm_of_record (exec_htLeaf value freq left right s) hb hp (if_neg h),
    fun value freq left right hl hr =>
      exists_sameOutputs_of_record (exec_htNode value freq left right s) hb hp (if_pos ⟨hl, hr⟩),
    fun value freq left right h => exists_errorForm_of_record (exec_htNode value freq left right s) hb hp (if_neg h),
    fun flags rest => exists_errorForm_of_record (exec_htRsvd flags rest s) hb hp rfl⟩

end Sys2Proof.Machine
end

section
/-! The LZ77 compressor's output as tokens (spec 43, rules R201 and R203). -/

namespace Sys2Proof.Machine

open Sys2Proof

/-- What rules R199 to R201 ask of an offset and a length after `covered` input bytes. -/
structure MatchOk (b : Build) (covered off len : Nat) : Prop where
  off_pos : 1 ≤ off
  off_le : off ≤ b.w
  len_pos : 1 ≤ len
  len_le : len ≤ b.l
  off_covered : off ≤ covered

/-- What rule R201 asks of a token after `covered` input bytes; `last`: it is the last one. -/
def TokenOk (b : Build) (covered : Nat) (last : Prop) : Instr → Prop
  | .lzLit _ => True
  | .lzCopylit off len _ => MatchOk b covered off.toNat len.toNat
  | .lzCopyend off len => MatchOk b covered off.toNat len.toNat ∧ last
  | _ => False

theorem TokenOk.imp {b : Build} {covered : Nat} {p q : Prop} {tok : Instr} (h : TokenOk b covered p tok)
    (hpq : p → q) : TokenOk b covered q tok := by
  cases tok with
  | lzLit => exact h
  | lzCopylit => exact h
  | lzCopyend => exact ⟨h.1, hpq h.2⟩
  | _ => exact h

theorem TokenOk.wellFormed {b : Build} {covered : Nat} {p : Prop} {tok : Instr} (h : TokenOk b covered p tok) :
    tok.wellFormed = true := by
  cases tok with
  | lzLit => rfl
  | lzCopylit => simpa [Instr.wellFormed] using ⟨h.off_pos, h.len_pos⟩
  | lzCopyend => simpa [Instr.wellFormed] using ⟨h.1.off_pos, h.1.len_pos⟩
  | _ => exact h.elim

/-- A token after no bytes is a literal: a match would begin before the output (rule R203). -/
theorem TokenOk.lzLit_of_zero {b : Build} {p : Prop} {tok : Instr} (h : TokenOk b 0 p tok) :
    ∃ lit, tok = .lzLit lit := by
  cases tok with
  | lzLit lit => exact ⟨lit, rfl⟩
  | lzCopylit => exact absurd (h.off_pos.trans h.off_covered) (by decide)
  | lzCopyend => exact absurd (h.1.off_pos.trans h.1.off_covered) (by decide)
  | _ => exact h.elim

/-- A token covers a byte or more (rule R198). -/
theorem TokenOk.tokenCovers_pos {b : Build} {covered : Nat} {p : Prop} {tok : Instr} (h : TokenOk b covered p tok) :
    1 ≤ tokenCovers tok := by
  cases tok with
  | lzLit => exact le_rfl
  | lzCopylit => exact Nat.le_add_left 1 _
  | lzCopyend => exact h.1.len_pos
  | _ => exact h.elim

section
variable {b : Build} {x : List Byte} (hw : b.w ≤ 65535) (hl : b.l ≤ 255)
include hw hl

/-- The token of one iteration, with the bytes it covers: how far the iteration advances (rules R197 to R200). -/
theorem lzToken_spec {k : Nat} (hk : k < x.length) :
    let m := search b.w b.l x k
    tokenCovers (lzToken x k m.1 m.2) = lzAdvance x k m.1 ∧ k + lzAdvance x k m.1 ≤ x.length ∧
      TokenOk b k (k + lzAdvance x k m.1 = x.length) (lzToken x k m.1 m.2) := by
  intro m
  have hfound := search_found b.w b.l x k
  change 0 < m.1 → 1 ≤ m.2 ∧ m.2 ≤ min b.w k ∧ m.1 = matchLength b.l x k m.2 at hfound
  unfold lzToken lzAdvance
  by_cases hbest : 0 < m.1
  · obtain ⟨hoff, hoff', hml⟩ := hfound hbest
    obtain ⟨hlen, hrest, -⟩ := matchLength_spec b.l x k m.2
    rw [← hml] at hlen hrest
    have hoffNat : (BitVec.ofNat 16 m.2).toNat = m.2 := by
      rw [BitVec.toNat_ofNat]; exact Nat.mod_eq_of_lt (by omega)
    have hlenNat : (byteOf m.1).toNat = m.1 := byteOf_toNat (by omega)
    have hok : MatchOk b k (BitVec.ofNat 16 m.2).toNat (byteOf m.1).toNat := by
      rw [hoffNat, hlenNat]
      exact ⟨hoff, by omega, hbest, hlen, by omega⟩
    rw [if_pos hbest, if_pos hbest]
    by_cases hend : k + m.1 < x.length
    · rw [if_pos hend, if_pos hend]
      exact ⟨congrArg (· + 1) hlenNat, by omega, hok⟩
    · rw [if_neg hend, if_neg hend]
      exact ⟨hlenNat.trans (by omega), by omega, hok, by omega⟩
  · rw [if_neg hbest, if_neg hbest]
    exact ⟨rfl, hk, trivial⟩

/-- The tokens from a position on cover the rest of the input. -/
theorem sum_tokenCovers {n k : Nat} (hn : x.length ≤ k + n) (hk : k ≤ x.length) :
    k + ((lzTokens b x n k).map tokenCovers).sum = x.length := by
  induction n generalizing k with
  | zero => simp [lzTokens]; omega
  | succ n ih =>
    rcases hk.lt_or_eq with hlt | rfl
    · obtain ⟨hcovers, hle, -⟩ := lzToken_spec hw hl hlt
      have := lzAdvance_pos hlt (search b.w b.l x k).1
      rw [lzTokens_succ_of_not_done hlt, List.map_cons, List.sum_cons, hcovers, ← Nat.add_assoc]
      exact ih (by omega) hle
    · rw [lzTokens_of_done le_rfl]; rfl

/-- Every token from a position on is as rule R201 asks, after the bytes covered before it. -/
theorem tokenOk_lzTokens {n k : Nat} (hn : x.length ≤ k + n) {i : Nat} {tok : Instr}
    (htok : (lzTokens b x n k)[i]? = some tok) :
    TokenOk b (k + (((lzTokens b x n k).take i).map tokenCovers).sum) (i + 1 = (lzTokens b x n k).length) tok := by
  induction n generalizing k i with
  | zero => simp [lzTokens] at htok
  | succ n ih =>
    rcases Nat.lt_or_ge k x.length with hk | hk
    · obtain ⟨hcovers, -, hok⟩ := lzToken_spec hw hl hk
      have := lzAdvance_pos hk (search b.w b.l x k).1
      rw [lzTokens_succ_of_not_done hk] at htok ⊢
      cases i with
      | zero =>
        cases htok
        exact hok.imp fun hend => by rw [lzTokens_of_done hend.ge]; rfl
      | succ i =>
        have := ih (by omega) htok
        simp only [List.take_succ_cons, List.map_cons, List.sum_cons, hcovers, List.length_cons, Nat.add_left_inj]
        rwa [← Nat.add_assoc]
    · rw [lzTokens_of_done hk] at htok; cases htok

end

/-- Settles O44: the tokens from position 0 on; each covers a byte or more, a literal exactly one. -/
theorem lzOutputProperties : Obligations.LzOutputProperties := by
  intro b x _ hw _ hl
  have hok : ∀ (i : Nat) (tok : Instr), (lzTokens b x x.length 0)[i]? = some tok →
      TokenOk b (((lzTokens b x x.length 0).take i).map tokenCovers).sum
        (i + 1 = (lzTokens b x x.length 0).length) tok := fun i tok h => by
    simpa using tokenOk_lzTokens hw hl (Nat.le_add_left _ _) h
  have hsum : ((lzTokens b x x.length 0).map tokenCovers).sum = x.length := by
    simpa using sum_tokenCovers hw hl (Nat.le_add_left x.length 0) (Nat.zero_le _)
  have hlen : (lzCompress b x).length = 4 * (lzTokens b x x.length 0).length := by
    rw [lzCompress_eq, length_lzTokens_encode]
  have hbytes := lzCompress_eq b x
  generalize lzTokens b x x.length 0 = tokens at hok hsum hlen hbytes
  have hcount : tokens.length ≤ x.length := by
    rw [← hsum, ← List.length_map (f := tokenCovers)]
    refine List.length_le_sum_of_one_le _ fun c hc => ?_
    obtain ⟨tok, htok, rfl⟩ := List.mem_map.1 hc
    obtain ⟨i, hi⟩ := List.mem_iff_getElem?.1 htok
    exact (hok i tok hi).tokenCovers_pos
  refine ⟨tokens, hbytes, fun i tok h => ⟨(hok i tok h).wellFormed, ?_⟩,
    fun tok h => (hok 0 tok h).lzLit_of_zero, hsum, hlen, by omega, fun hlit => ?_⟩
  · have htok := hok i tok h
    cases tok with
    | lzLit => trivial
    | lzCopylit off len lit =>
      obtain ⟨hoff, hoff', hlen, hlen', hcov⟩ := htok
      exact ⟨hoff, hoff', hlen, hlen', hcov⟩
    | lzCopyend off len =>
      obtain ⟨⟨hoff, hoff', hlen, hlen', hcov⟩, hlast⟩ := htok
      exact ⟨hoff, hoff', hlen, hlen', hcov, hlast⟩
    | _ => exact htok.elim
  · have hone : ∀ tok ∈ tokens, tokenCovers tok = 1 := fun tok h => by
      obtain ⟨lit, rfl⟩ := hlit tok h
      rfl
    rw [hlen, ← hsum, List.map_congr_left hone]
    simp

end Sys2Proof.Machine
end

section
/-! Proofs of the remaining statements on the packed words (spec 10) and on the orchestrator (spec 44): the ratio, the
selection over attempts that may raise, the result of `SMART_COMPRESS` and the listing. -/

namespace Sys2Proof.Machine

open Sys2Proof

/-! ### The packed words -/

theorem statusWord_toNat (s : State) :
    s.statusWord.toNat = s.state.code.toNat + 16 * (errCode s.err).toNat := by
  refine (toNat_concat _ _).trans ?_
  rw [toNat_concat ((0 : BitVec 25) ++ errCode s.err), toNat_concat]
  simp
  omega

theorem infoWord_toNat {alg nTested mask : Nat} (fallback effective : Bool) (ha : alg < 64) (hn : nTested < 4)
    (hm : mask < 8) : (infoWord alg fallback effective nTested mask).toNat =
      alg + 2 ^ 8 * fallback.toNat + 2 ^ 9 * effective.toNat + 2 ^ 12 * nTested + 2 ^ 16 * mask := by
  refine (toNat_concat _ _).trans ?_
  repeat rw [toNat_concat]
  simp only [BitVec.ofNat_eq_ofNat, BitVec.toNat_ofNat, BitVec.toNat_ofBool, Nat.zero_mod,
    Nat.mod_eq_of_lt ha, Nat.mod_eq_of_lt hn, Nat.mod_eq_of_lt hm]
  omega

/-- Settles O7: each word is a concatenation of fields, whose number adds up. -/
theorem packedWords : Obligations.PackedWords := by
  refine ⟨fun s => ?_, fun alg nTested mask fallback effective ha hn hm => infoWord_toNat fallback effective ha hn hm⟩
  rw [statusWord_toNat]
  congr 1
  · cases s.state <;> rfl
  · congr 1
    rcases s.err with _ | k
    · rfl
    · cases k <;> rfl

/-! ### The ratio -/

/-- Settles O26: `ratioOf` is a quotient by `2 o`. -/
theorem ratioRoundsHalfUp : Obligations.RatioRoundsHalfUp := by
  refine ⟨fun o c hco => ?_, rfl⟩
  have ho : 0 < 2 * o := by omega
  unfold ratioOf
  rw [Nat.mul_comm 20000]
  refine ⟨Nat.mul_div_le _ _, Nat.lt_mul_div_succ _ ho, ?_⟩
  rw [← Nat.lt_succ_iff, Nat.div_lt_iff_lt_mul ho]
  omega

/-! ### Attempts that may raise -/

section
variable {alg nTested mask : Nat} (fallback effective : Bool) (ha : alg < 64) (hn : nTested < 4) (hm : mask < 8)
include ha hn hm

theorem infoAlg_infoWord : (infoAlg (infoWord alg fallback effective nTested mask)).toNat = alg := by
  have := fallback.toNat_lt
  have := effective.toNat_lt
  rw [infoAlg, toNat_field, infoWord_toNat fallback effective ha hn hm]
  omega

theorem infoNTested_infoWord : (infoNTested (infoWord alg fallback effective nTested mask)).toNat = nTested := by
  have := fallback.toNat_lt
  have := effective.toNat_lt
  rw [infoNTested, toNat_field, infoWord_toNat fallback effective ha hn hm]
  omega

theorem infoFailMask_infoWord : (infoFailMask (infoWord alg fallback effective nTested mask)).toNat = mask := by
  have := fallback.toNat_lt
  have := effective.toNat_lt
  rw [infoFailMask, toNat_field, infoWord_toNat fallback effective ha hn hm]
  omega

end

theorem Alg.code_lt (a : Alg) : a.code < 3 := by cases a <;> decide

@[simp] theorem policy_alg (inp : List Byte) (c : Candidate) : (policy inp c).alg = c.alg := by
  unfold policy
  split <;> rfl

/-- The table of a compress result is its tested list, filled up with entries not in use (rule R256). -/
theorem table_eq (entries : List TestedEntry) (z : TestedEntry) :
    [(entries[0]?).getD z, (entries[1]?).getD z, (entries[2]?).getD z] = (entries ++ [z, z, z]).take 3 := by
  match entries with
  | [] | [_] | [_, _] | _ :: _ :: _ :: _ => rfl

/-- `FAIL_MASK` of the three attempts in code order (rule R252). -/
theorem failMask_three {c0 c1 c2 : Candidate} (h0 : c0.alg = .rle) (h1 : c1.alg = .huffman) (h2 : c2.alg = .lz77) :
    failMask [c0, c1, c2] = c0.err.isSome.toNat + 2 * c1.err.isSome.toNat + 4 * c2.err.isSome.toNat := by
  simp only [failMask, h0, h1, h2, Alg.code]
  cases c0.err.isSome <;> cases c1.err.isSome <;> cases c2.err.isSome <;> rfl

/-- With no attempt left, the selection raises (rule R253). -/
theorem endSmart_of_none {s : State} {cands : List Candidate} (h : survivors s.input cands = []) :
    s.endSmart cands = s.raise .allCodecsFailed := by
  rw [State.endSmart, h]; rfl

/-- With an attempt left, the selection publishes one of those that did not raise (rules R252, R254). -/
theorem endSmart_of_some {s : State} {cands : List Candidate} (h : survivors s.input cands ≠ []) :
    ∃ r ∈ survivors s.input cands, s.endSmart cands = s.publish r (survivors s.input cands) (failMask cands) := by
  obtain ⟨r, hr⟩ := Option.isSome_iff_exists.1 (selectBest_isSome h)
  exact ⟨r, (selectBest_least hr).1, by rw [State.endSmart, hr]⟩

/-- Settles O30: `endSmart` selects among the survivors, and its table lists them. -/
theorem failedAttemptsAreExcluded : Obligations.FailedAttemptsAreExcluded := by
  intro s c0 c1 c2 h0 h1 h2 t alive
  have hsurv : survivors s.input [c0, c1, c2] = alive.map (policy s.input) := rfl
  refine ⟨fun hnone => ?_, fun hsome => ?_⟩
  · have ht : t = s.raise .allCodecsFailed := endSmart_of_none (by rw [hsurv, hnone]; rfl)
    rw [ht]
    exact errorForm_raise s _
  · obtain ⟨r, hr, ht⟩ := endSmart_of_some (s := s) (cands := [c0, c1, c2]) (by simpa [hsurv] using hsome)
    obtain ⟨c, hc, rfl⟩ := List.mem_map.1 (hsurv ▸ hr)
    have halg := (policy s.input c).alg.code_lt
    have hlen : alive.length ≤ 3 := List.length_filter_le _ _
    have hmask := failMask_three h0 h1 h2
    have hmaskLt : failMask [c0, c1, c2] < 8 := by
      have := c0.err.isSome.toNat_lt
      have := c1.err.isSome.toNat_lt
      have := c2.err.isSome.toNat_lt
      omega
    have htested : (survivors s.input [c0, c1, c2]).length < 4 := by rw [hsurv, List.length_map]; omega
    rw [show t = _ from ht]
    refine ⟨rfl, (infoFailMask_infoWord _ _ (by omega) htested hmaskLt).trans hmask,
      (infoNTested_infoWord _ _ (by omega) htested hmaskLt).trans (by rw [hsurv, List.length_map]), ⟨c, hc, ?_⟩, ?_⟩
    · exact (infoAlg_infoWord _ _ (by omega) htested hmaskLt).trans (by rw [policy_alg])
    · rw [← table_eq]
      simp [State.publish, compressResults, hsurv, Function.comp_def]

/-! ### `SMART_COMPRESS` -/

/-- The result of an attempt under the policy, field by field (rules R234, R235, R238, R239). -/
theorem policy_attempt (b : Build) (inp : List Byte) (a : Alg) :
    let raw := rawOutput b inp a
    policy inp (attempt b inp a) =
      { alg := a, payload := if raw.length < inp.length then raw else inp,
        tree := if raw.length < inp.length then rawTree inp a else [], orig := inp.length,
        comp := if raw.length < inp.length then raw.length else inp.length,
        ratio := if raw.length < inp.length then ratioOf inp.length raw.length else 0,
        avoid := raw.length - inp.length, effective := decide (raw.length < inp.length) } := by
  intro raw
  rw [attempt_eq]
  by_cases h : raw.length < inp.length
  · rw [policy_of_lt h, Nat.sub_eq_zero_of_le h.le]
    simp only [raw, h, if_true, decide_true]
  · rw [policy_of_le (Nat.not_lt.1 h)]
    simp only [raw, h, if_false, decide_false]

/-- `R_INFO` of a `SMART_COMPRESS` in which no attempt raised (rule R257). -/
theorem infoWord_smart (a : Alg) (effective : Bool) :
    infoWord a.code (!effective) effective 3 0 =
      BitVec.ofNat 32 (0x3000 + 0x200 * effective.toNat + 0x100 * (!effective).toNat + a.code) := by
  cases a <;> cases effective <;> rfl

/-- `Tk_INFO` of a tested attempt (rule R256). -/
theorem testedInfo_eq (a : Alg) (effective : Bool) :
    testedInfo a.code effective = BitVec.ofNat 32 (0x80000000 + 0x200 * effective.toNat + a.code) := by
  cases a <;> cases effective <;> rfl

theorem Alg.code_injective : Function.Injective Alg.code := by
  intro a b h
  cases a <;> cases b <;> first | rfl | cases h

/-- The selected result of a `SMART_COMPRESS` has a smaller key than every other (rule R254). -/
theorem key_lt_of_ne {rs : List Result} {r q : Result} (h : selectBest rs = some r) (hq : q ∈ rs) (hne : q.alg ≠ r.alg) :
    r.tier < q.tier ∨ (r.tier = q.tier ∧ (r.comp < q.comp ∨ (r.comp = q.comp ∧ r.alg.code < q.alg.code))) := by
  have hle := Result.key_le_iff.1 ((selectBest_least h).2 q hq)
  have hcode : r.alg.code ≠ q.alg.code := fun he => hne (Alg.code_injective he).symm
  omega

theorem mem_registered (a : Alg) : a ∈ registered := by cases a <;> decide

/-- Settles O28: the selected attempt's policy result is published, and the table lists the three. -/
theorem smartWritesTheBestResult : Obligations.SmartWritesTheBestResult := by
  intro alg s hb hn rs eff size ratio entry
  have hlen := s.length_input
  have hpolicy : ∀ a, policy s.input (attempt s.build s.input a) =
      { alg := a, payload := if eff a then rawOutput s.build s.input a else s.input,
        tree := if eff a then rawTree s.input a else [], orig := s.n, comp := size a, ratio := ratio a,
        avoid := rs a - s.n, effective := eff a } := fun a => by
    rw [policy_attempt, hlen]
    simp only [eff, decide_eq_true_eq]
    rfl
  have hmem : ∀ a, policy s.input (attempt s.build s.input a) ∈ s.tested := fun a =>
    List.mem_map_of_mem (mem_registered a)
  have hentry : ∀ a, testedEntry (policy s.input (attempt s.build s.input a)) = entry a := fun a => by
    rw [hpolicy, testedEntry, testedInfo_eq]
  obtain ⟨r, hr, hexec⟩ := exec_smartCompress_of_le_inMax hb hn alg
  obtain ⟨w, -, rfl⟩ := List.mem_map.1 (selectBest_least hr).1
  have hkey := fun a => key_lt_of_ne hr (hmem a)
  have ht0 := hentry .rle
  have ht1 := hentry .huffman
  have ht2 := hentry .lz77
  rw [hpolicy w] at hexec hkey
  refine ⟨w, _, hexec, fun a ha => ?_, ?_⟩
  · have := hkey a (by rwa [hpolicy])
    rw [hpolicy] at this
    simp only [Result.tier] at this
    cases hw : eff w <;> cases ha : eff a <;> simp [hw, ha] at this ⊢ <;> exact this
  · have hsize : (if eff w then rawOutput s.build s.input w else s.input).length = size w := by
      simp only [eff, size, decide_eq_true_eq, apply_ite List.length, hlen]
      rfl
    have htree : (if eff w then rawTree s.input w else []).length = if eff w then (rawTree s.input w).length else 0 :=
      apply_ite List.length _ _ _
    exact ⟨Buffer.holds_holding _ _, Buffer.holds_holding _ _, congrArg (BitVec.ofNat 32) hsize, s.ofNat_n, rfl, rfl,
      infoWord_smart w (eff w), rfl, congrArg (BitVec.ofNat 32) htree, rfl, ht0, ht1, ht2,
      rfl, rfl, rfl, sameInputs_finish _ _ _ _⟩

/-! ### `LIST_ALGORITHMS` -/

theorem bytes16_ofNat (n : Nat) : bytes16 (BitVec.ofNat 16 n) = [BitVec.ofNat 8 (n / 256), BitVec.ofNat 8 n] := by
  have hhigh : (BitVec.ofNat 16 n).extractLsb' 8 8 = BitVec.ofNat 8 (n / 256) :=
    field_eq _ _ _ (by simp only [BitVec.toNat_ofNat]; omega)
  have hlow : (BitVec.ofNat 16 n).extractLsb' 0 8 = BitVec.ofNat 8 n :=
    field_eq _ _ _ (by simp only [BitVec.toNat_ofNat]; omega)
  rw [bytes16, hhigh, hlow]

theorem listingEntry_eq (code : Byte) (name desc : List Byte) :
    listingEntry code name desc = [code, BitVec.ofNat 8 name.length] ++ name ++
      [BitVec.ofNat 8 (desc.length / 256), BitVec.ofNat 8 desc.length] ++ desc := by
  rw [listingEntry, bytes16_ofNat, byteOf]

theorem length_listingEntry (code : Byte) (name desc : List Byte) :
    (listingEntry code name desc).length = 4 + name.length + desc.length := by
  simp [listingEntry, length_bytes16]
  omega

/-- The length of the listing is `LISTLEN` (rule R262). -/
theorem length_listing (b : Build) : (listing b).length = b.listLen := by
  simp only [listing, List.length_append, length_listingEntry, nameRle, nameHuffman, nameLz77,
    List.length_cons, List.length_nil, Build.listLen]
  omega

/-- Settles O31: the ROM entry by entry. -/
theorem listReturnsTheListing : Obligations.ListReturnsTheListing := by
  intro alg s hb entry rom
  have hrom : listing s.build = rom := by
    rw [listing, listingEntry_eq, listingEntry_eq, listingEntry_eq]
    rfl
  rw [← hrom]
  exact ⟨length_listing s.build, s.list, (exec_listAlgorithms alg s).trans (whenBusy_of_busy hb),
    doneForm_finish s (listing s.build)⟩

end Sys2Proof.Machine
end

section
/-! Proofs of the statements on reset, the host's accesses and the step (spec 10, 20, 60, 70): a step is the turn of the
agenda's head, and a host access is one of the register block, of a buffer's window or stray. -/

namespace Sys2Proof.Machine

open Sys2Proof

/-! ### Reset -/

/-- Settles O57: the reset state is idle, with no byte specified and the structures at their initial values. -/
theorem invariantHoldsAtReset : Obligations.InvariantHoldsAtReset where
  legal := by decide
  wf := fun id => by cases id <;> exact List.Pairwise.nil
  inside := fun id => by cases id <;> exact Buffer.inside_unspecified _ _
  err := ⟨fun _ h => (nomatch h), fun _ => rfl⟩
  noResult := fun _ => rfl
  errorResult := fun _ h => nomatch h
  outBytes := fun h => nomatch h
  treeBytes := fun h => nomatch h
  ratio := Nat.zero_le _
  flags := by decide
  unspecified := fun _ => ⟨fun _ => rfl, fun _ => rfl⟩
  atRest := fun _ => rfl
  running := fun h => nomatch h

theorem regValue_platformReset (s : State) (r : Reg) : s.platformReset.regValue r = 0 := by
  cases r with
  | cmd => exact (by decide : (0 : BitVec 24) ++ (0 : Byte) = 0)
  | status => exact (by decide : State.reset.statusWord = 0)
  | _ => rfl

/-- Settles O6: the platform's reset, field by field. -/
theorem platformResetZeroes : Obligations.PlatformResetZeroes := fun s q h =>
  ⟨(s.withAgenda q).platformReset, step_of_cons h, regValue_platformReset _, rfl, rfl, rfl,
    fun id => by cases id <;> exact Buffer.unspecified_unspecified _, rfl, rfl, rfl⟩

/-! ### Words of the register block -/

section
variable {b : Build} {addr : Nat}

/-- A register stands at a word offset from `BASE` (rule R12). -/
theorem aligned_of_regAt {r : Reg} (h : regAt b addr = some r) : addr % 4 = b.base % 4 := by
  unfold regAt at h
  split at h
  · cases h
  · have hoff := Reg.ofOffset_eq_some.1 h
    have hmod : r.offset % 4 = 0 := by cases r <;> rfl
    omega

theorem wordAt_of_no_window (h : windowAt b addr 4 = none) :
    wordAt b addr = true ↔ addr % 4 = b.base % 4 := by
  simp only [wordAt, h, addrAligned, Option.isNone_none, Bool.true_and, Bool.or_eq_true, decide_eq_true_eq]
  refine or_iff_right_of_imp fun hr => ?_
  obtain ⟨r, hr⟩ := Option.isSome_iff_exists.1 hr
  exact aligned_of_regAt hr

theorem wordAt_of_window (h : windowAt b addr 4 ≠ none) : wordAt b addr = (regAt b addr).isSome := by
  rw [wordAt, Option.isNone_eq_false_iff.2 (Option.isSome_iff_ne_none.2 h), Bool.false_and, Bool.or_false]

/-- A word that is neither a register nor outside every window is the window's. -/
theorem wordAt_eq_false (hreg : regAt b addr = none) (h : windowAt b addr 4 ≠ none) : wordAt b addr = false := by
  rw [wordAt_of_window h, hreg]; rfl

end

/-! ### Register accesses -/

/-- Outside `BUSY`, a write of a register other than `CTRL` is stored (rules R13, R16, R21). -/
theorem hostWrite_register {s : State} {addr : Nat} {r : Reg} (hr : regAt s.build addr = some r) (hne : r ≠ .ctrl)
    (hb : s.state ≠ .busy) (v : Word) : s.hostWrite addr v = .settled (.next (s.writeStored r v)) := by
  rw [State.hostWrite, if_pos (wordAt_of_regAt hr), hr]
  cases r <;> first | exact absurd rfl hne | exact if_neg hb

/-- A write of a word offset that selects no register is dropped (rule R291). -/
theorem hostWrite_unlisted {s : State} {addr : Nat} (hw : wordAt s.build addr = true) (hr : regAt s.build addr = none)
    (v : Word) : s.hostWrite addr v = .settled (.next s) := by
  rw [State.hostWrite, if_pos hw, hr]

/-- Outside `BUSY` a read of a register returns its value, and in `BUSY` a read of `STATUS` does (rules R12, R21). -/
theorem readRegister_register {s : State} {addr : Nat} {r : Reg} (hr : regAt s.build addr = some r)
    (h : s.state ≠ .busy ∨ r = .status) : s.readRegister addr = s.returned (s.regValue r) := by
  rw [State.readRegister, hr]
  exact if_neg fun ⟨hbusy, hne⟩ => h.elim (fun hb => hb hbusy) hne

/-- A read of a word offset that selects no register returns 0 (rule R291). -/
theorem readRegister_unlisted {s : State} {addr : Nat} (hr : regAt s.build addr = none) :
    s.readRegister addr = s.returned 0 := by
  rw [State.readRegister, hr]

theorem hostRead_wordAt {s : State} {addr : Nat} (hw : wordAt s.build addr = true) :
    s.hostRead addr = .settled (.next (s.readRegister addr)) := if_pos hw

theorem hostWriteWide_wordAt {s : State} {addr : Nat} {vs : List Byte} (hw : wordAt s.build addr = true)
    (hlen : vs.length = 4) : s.hostWriteWide addr vs = s.hostWrite addr (wordOfLanes s.build vs) := if_pos ⟨hlen, hw⟩

theorem hostReadWide_wordAt {s : State} {addr : Nat} (hw : wordAt s.build addr = true) :
    s.hostReadWide addr 4 = .settled (.next { s.readRegister addr with
      readData := s.readData, busData := lanesOfWord s.build (s.readRegister addr).readData }) := if_pos ⟨rfl, hw⟩

/-- The lanes of a word are the bytes of the number, each at its lane (rule R54). -/
theorem lanesOfWord_get {b : Build} (hp : PackingLegal b) (v : Word) {k : Nat} (hk : k < 4) :
    (lanesOfWord b v)[b.wordLanes.getD k 0]? = some (v.extractLsb' (8 * k) 8) := by
  obtain ⟨-, hperm⟩ := hp
  have hnd : b.wordLanes.Nodup := hperm.nodup_iff.2 (by decide)
  have hk' : k < b.wordLanes.length := by rw [hperm.length_eq]; exact hk
  have hlane : b.wordLanes[k] < 4 := by
    have := hperm.mem_iff.1 (List.getElem_mem hk')
    simp at this
    omega
  rw [List.getD_eq_getElem _ _ hk', lanesOfWord, List.getElem?_map, List.getElem?_range hlane, Option.map_some,
    hnd.idxOf_getElem]

@[simp] theorem length_lanesOfWord (b : Build) (v : Word) : (lanesOfWord b v).length = 4 := by simp [lanesOfWord]

/-- Settles O8: by the register the offset selects; four bytes of a word are the word. -/
theorem hostWritesRegisters : Obligations.HostWritesRegisters := by
  refine ⟨fun s off v q h hoff hne hb => ?_, fun s addr vs q hw hlen h => ?_,
    fun b v hp => wordOfLanes_lanesOfWord hp v⟩
  · refine (step_of_cons h).trans ?_
    cases hr : Reg.ofOffset off with
    | some r =>
      obtain rfl := Reg.ofOffset_eq_some.1 hr
      have hctrl : r ≠ .ctrl := fun he => hne (by rw [he]; rfl)
      refine (congrArg Act.outcome
        (hostWrite_register (s := s.withAgenda q) ((regAt_base ..).trans hr) hctrl hb v)).trans ?_
      cases r <;> rfl
    | none =>
      refine (congrArg Act.outcome
        (hostWrite_unlisted (s := s.withAgenda q) (wordAt_base hoff) ((regAt_base ..).trans hr) v)).trans ?_
      split <;> first | cases hr | rfl
  · exact (step_of_cons h).trans (congrArg Act.outcome (hostWriteWide_wordAt (s := s.withAgenda q) hw hlen))

/-- Settles O9: by the register the offset selects; the lanes of a word are those of the number read. -/
theorem hostReadsRegisters : Obligations.HostReadsRegisters := by
  refine ⟨fun s off q h hoff hb => ?_, fun s addr q hw h => ?_, fun b v k hp hk =>
    ⟨length_lanesOfWord b v, lanesOfWord_get hp v hk⟩⟩
  · refine ((step_of_cons h).trans
      (congrArg Act.outcome (hostRead_wordAt (s := s.withAgenda q) (wordAt_base hoff)))).trans ?_
    cases hr : Reg.ofOffset off with
    | some r =>
      obtain rfl := Reg.ofOffset_eq_some.1 hr
      have hread : s.state ≠ .busy ∨ r = .status :=
        hb.imp_right fun he => Option.some.inj (hr.symm.trans (congrArg Reg.ofOffset he))
      refine (congrArg Host.Outcome.next
        (readRegister_register (s := s.withAgenda q) ((regAt_base ..).trans hr) hread)).trans ?_
      cases r <;> rfl
    | none =>
      refine (congrArg Host.Outcome.next
        (readRegister_unlisted (s := s.withAgenda q) ((regAt_base ..).trans hr))).trans ?_
      split <;> first | cases hr | rfl
  · exact ⟨(s.withAgenda q).readRegister addr,
      congrArg Act.outcome (hostRead_wordAt (s := s.withAgenda q) hw),
      (step_of_cons h).trans (congrArg Act.outcome (hostReadWide_wordAt (s := s.withAgenda q) hw))⟩

/-! ### Accesses in a window -/

section
variable {s : State} {addr n : Nat} {id : BufId} {off : Nat}

/-- A wide access in a window is the window's, unless it is of a register (log 24). -/
theorem not_word_of_window (hw : windowAt s.build addr n = some (id, off)) (h : n ≠ 4 ∨ regAt s.build addr = none) :
    ¬ (n = 4 ∧ wordAt s.build addr = true) := by
  rintro ⟨rfl, hword⟩
  rw [wordAt_eq_false (h.resolve_left (not_not_intro rfl)) (by simp [hw])] at hword
  cases hword

theorem hostWriteWide_window {vs : List Byte} (hw : windowAt s.build addr vs.length = some (id, off))
    (h : vs.length ≠ 4 ∨ regAt s.build addr = none) : s.hostWriteWide addr vs = s.hostStoreLanes id off vs := by
  rw [State.hostWriteWide, if_neg (not_word_of_window hw h), hw]

theorem hostReadWide_window (hw : windowAt s.build addr n = some (id, off)) (h : n ≠ 4 ∨ regAt s.build addr = none) :
    s.hostReadWide addr n =
      if s.state = .busy then .settled (.next (s.returnedAnyLanes n))
      else .settled (.next (s.returnedLanes (s.readLanes id off n))) := by
  rw [State.hostReadWide, if_neg (not_word_of_window hw h), hw]

theorem hostWrite_window (hw : windowAt s.build addr 4 = some (id, off)) (h : regAt s.build addr = none) (v : Word) :
    s.hostWrite addr v = s.hostStoreLanes id off (lanesOfWord s.build v) := by
  rw [State.hostWrite, if_neg (by simp [wordAt_eq_false h (by simp [hw])]), hw]

theorem hostRead_window (hw : windowAt s.build addr 4 = some (id, off)) (h : regAt s.build addr = none) :
    s.hostRead addr =
      if s.state = .busy then .settled (.next s.returnedAny)
      else .settled (.next { s with
        readData := wordOfLanes s.build (s.readLanes id off 4), draws := s.draws + 1 }) := by
  rw [State.hostRead, if_neg (by simp [wordAt_eq_false h (by simp [hw])]), hw]

end

/-! ### Accesses by index -/

section
variable {s : State} {id : BufId} {i : Nat} (hi : i < s.build.bufSize id) (hb : s.state ≠ .busy)
include hi hb

theorem hostWriteBuf_of_lt (v : Byte) : s.hostWriteBuf id i v = .settled (.next (s.storeByte id i v)) :=
  (if_pos hi).trans (if_neg hb)

theorem hostReadBuf_of_lt :
    s.hostReadBuf id i = .settled (.next (s.returned ((0 : BitVec 24) ++ s.readByte id i))) :=
  (if_pos hi).trans (if_neg hb)

end

/-- A store to a buffer changes nothing but the input buffers. -/
theorem storeByte_frame (s : State) (id : BufId) (i : Nat) (v : Byte) :
    s.storeByte id i v = { s with ibuf := (s.storeByte id i v).ibuf, mibuf := (s.storeByte id i v).mibuf } := by
  cases id <;> rfl

/-- Outside `BUSY`, a byte written by its index (rules R21, R50). -/
theorem step_writeBuf {s : State} {id : BufId} {i : Nat} {v : Byte} {q : List Event} (hb : s.state ≠ .busy)
    (hi : i < s.build.bufSize id) (h : s.agenda = .host (.writeBuf id i v) :: q) :
    step s = .next ((s.withAgenda q).storeByte id i v) :=
  (step_of_cons h).trans (congrArg Act.outcome (hostWriteBuf_of_lt (s := s.withAgenda q) hi hb v))

theorem step_readBuf {s : State} {id : BufId} {i : Nat} {q : List Event} (hb : s.state ≠ .busy)
    (hi : i < s.build.bufSize id) (h : s.agenda = .host (.readBuf id i) :: q) :
    step s = .next ((s.withAgenda q).returned ((0 : BitVec 24) ++ s.readByte id i)) :=
  (step_of_cons h).trans (congrArg Act.outcome (hostReadBuf_of_lt (s := s.withAgenda q) hi hb))

/-- Outside `BUSY`, bytes written in a window (rules R21, R54). -/
theorem step_writeWide {s : State} {addr : Nat} {id : BufId} {off : Nat} {vs : List Byte} {q : List Event}
    (hb : s.state ≠ .busy) (hw : windowAt s.build addr vs.length = some (id, off))
    (hr : vs.length ≠ 4 ∨ regAt s.build addr = none) (h : s.agenda = .host (.writeWide addr vs) :: q) :
    step s = .next ((s.withAgenda q).storeLanes id off vs) :=
  (step_of_cons h).trans (congrArg Act.outcome
    ((hostWriteWide_window (s := s.withAgenda q) hw hr).trans (if_neg hb)))

theorem step_readWide {s : State} {addr n : Nat} {id : BufId} {off : Nat} {q : List Event}
    (hb : s.state ≠ .busy) (hw : windowAt s.build addr n = some (id, off))
    (hr : n ≠ 4 ∨ regAt s.build addr = none) (h : s.agenda = .host (.readWide addr n) :: q) :
    step s = .next ((s.withAgenda q).returnedLanes ((s.withAgenda q).readLanes id off n)) :=
  (step_of_cons h).trans (congrArg Act.outcome
    ((hostReadWide_window (s := s.withAgenda q) hw hr).trans (if_neg hb)))

/-- A word written in a window is its four byte lanes written (rule R54). -/
theorem hostWrite_eq_hostWriteWide {s : State} {addr : Nat} (hr : regAt s.build addr = none)
    (hw : windowAt s.build addr 4 ≠ none) (v : Word) :
    s.hostWrite addr v = s.hostWriteWide addr (lanesOfWord s.build v) := by
  obtain ⟨⟨id, off⟩, hw⟩ := Option.ne_none_iff_exists'.1 hw
  rw [hostWrite_window hw hr, hostWriteWide_window (by rwa [length_lanesOfWord]) (.inr hr)]

/-- A packing of one byte an address in index order (rule R54). -/
theorem busAddress_of_plain {b : Build} {id : BufId} (h : b.packing id = ⟨1, [0]⟩) (i : Nat) :
    busAddress b id i = b.bufBase id + i := by
  simp [busAddress, busOffset, h, Nat.mod_one]

/-- Settles O10: by index, through the packing and through the windows, clause by clause. -/
theorem hostAccessesBuffers : Obligations.HostAccessesBuffers := by
  refine ⟨fun s id i v q hb hi => ⟨fun h => ?_, step_readBuf hb hi⟩,
    fun s addr id i v q hbuf => ⟨fun h => ?_, fun h => ?_⟩,
    fun b addr id i h => ⟨bufAt_lt h, fun hp => eq_busAddress_of_bufAt hp h⟩,
    fun b id i hp ha hi => bufAt_busAddress hp ha hi, fun b id i h => busAddress_of_plain h i,
    fun s addr id off vs q hb hw hr h => ?_, fun s addr n id off q hb hw hr h => ?_,
    fun s addr v q hr hw => ⟨fun h => ?_, fun hb h => ?_⟩,
    fun b id i hp hi => ⟨carried_busOffset hp hi, busOffset_lt hp hi⟩, fun b id off i hp h => carried_eq_some hp h,
    fun b addr n id off h => windowAt_eq_some h, fun b id off n ha hn h => windowAt_base ha hn h⟩
  · exact ⟨_, step_writeBuf hb hi h, storeByte_frame _ id i v, fun id' j =>
      State.readByte_storeByte (s.withAgenda q) id id' i j v⟩
  · exact (step_of_cons h).trans (congrArg Act.outcome (hostBus_of_bufAt (s := s.withAgenda q) hbuf _ _))
  · exact (step_of_cons h).trans (congrArg Act.outcome (hostBus_of_bufAt (s := s.withAgenda q) hbuf _ _))
  · exact ⟨_, step_writeWide hb hw hr h, State.storeLanes_frame _ id off vs,
      fun j i hp hj hc hin => State.readByte_storeLanes_of_carried (s := s.withAgenda q) hp hj hc hin,
      fun id' i hn => State.readByte_storeLanes_of_not_carried (s := s.withAgenda q) hn⟩
  · exact ⟨_, step_readWide hb hw hr h, rfl, State.readLanes_length .., fun j i hj hc =>
      State.readLanes_get (s := s.withAgenda q) hj hc⟩
  · exact (step_of_cons h).trans
      (congrArg Act.outcome (hostWrite_eq_hostWriteWide (s := s.withAgenda q) hr hw v))
  · obtain ⟨⟨id, off⟩, hw⟩ := Option.ne_none_iff_exists'.1 hw
    exact ⟨_, step_readWide (s := { s with agenda := .host (.readWide addr 4) :: q }) hb hw (.inr hr) rfl,
      (step_of_cons h).trans (congrArg Act.outcome
        ((hostRead_window (s := s.withAgenda q) hw hr).trans (if_neg hb)))⟩

/-! ### The host locked out -/

theorem exec_ctrl_of_busy {i : Instr} {s : State} (hi : i.format = .ctrl) (hb : s.state = .busy) :
    exec i s = .next s := by
  cases i <;> cases hi
  · exact exec_start_of_busy hb _
  · exact exec_clear_of_not_ended (by simp [hb]) _

section
variable {s : State} (hb : s.state = .busy)
include hb

theorem hostStoreLanes_of_busy (id : BufId) (off : Nat) (vs : List Byte) :
    s.hostStoreLanes id off vs = .settled (.next s) := if_pos hb

/-- A word written in `BUSY` is dropped, `CTRL` included (rules R14, R21). -/
theorem hostWrite_of_busy {addr : Nat} (h : wordAt s.build addr = true ∨ windowAt s.build addr 4 ≠ none) (v : Word) :
    (s.hostWrite addr v).outcome = .next s := by
  unfold State.hostWrite
  split
  · split
    · rfl
    · split
      · next i hi => exact exec_ctrl_of_busy (encode_decodeCtrl v i hi).1 hb
      · rfl
    · rfl
  · next hw =>
    obtain ⟨⟨id, off⟩, hw⟩ := Option.ne_none_iff_exists'.1 (h.resolve_left hw)
    rw [hw]
    exact congrArg Act.outcome (hostStoreLanes_of_busy hb id off _)

theorem hostWriteBuf_of_busy {id : BufId} {i : Nat} (hi : i < s.build.bufSize id) (v : Byte) :
    s.hostWriteBuf id i v = .settled (.next s) := (if_pos hi).trans (if_pos hb)

theorem hostReadBuf_of_busy {id : BufId} {i : Nat} (hi : i < s.build.bufSize id) :
    s.hostReadBuf id i = .settled (.next s.returnedAny) := (if_pos hi).trans (if_pos hb)

theorem hostWriteBus_of_busy {addr : Nat} (hw : windowAt s.build addr 1 ≠ none) (v : Byte) :
    s.hostBus addr (fun id i => s.hostWriteBuf id i v) s = .settled (.next s) := by
  rcases hostBus_cases s addr (fun id i => s.hostWriteBuf id i v) s with ⟨id, i, hbuf, h⟩ | ⟨-, -, h⟩ | ⟨hn, -⟩
  · exact h.trans (hostWriteBuf_of_busy hb (bufAt_lt hbuf) v)
  · exact h
  · exact absurd hn hw

theorem hostReadBus_of_busy {addr : Nat} (hw : windowAt s.build addr 1 ≠ none) :
    s.hostBus addr s.hostReadBuf s.returnedAny = .settled (.next s.returnedAny) := by
  rcases hostBus_cases s addr s.hostReadBuf s.returnedAny with ⟨id, i, hbuf, h⟩ | ⟨-, -, h⟩ | ⟨hn, -⟩
  · exact h.trans (hostReadBuf_of_busy hb (bufAt_lt hbuf))
  · exact h
  · exact absurd hn hw

/-- Bytes written in `BUSY` are dropped (rules R21, R54). -/
theorem hostWriteWide_of_busy {addr : Nat} {vs : List Byte}
    (h : vs.length = 4 ∧ wordAt s.build addr = true ∨ windowAt s.build addr vs.length ≠ none) :
    (s.hostWriteWide addr vs).outcome = .next s := by
  unfold State.hostWriteWide
  split
  · next hw => exact hostWrite_of_busy hb (.inl hw.2) _
  · next hw =>
    obtain ⟨⟨id, off⟩, hw⟩ := Option.ne_none_iff_exists'.1 (h.resolve_left hw)
    rw [hw]
    exact congrArg Act.outcome (hostStoreLanes_of_busy hb id off vs)

/-- A read of a register in `BUSY`: `STATUS` is read, any other gives a free value (rule R21). -/
theorem readRegister_of_busy {addr : Nat} {r : Reg} (hr : regAt s.build addr = some r) :
    s.readRegister addr = if r = .status then s.returned s.statusWord else s.returnedAny := by
  by_cases hst : r = .status
  · subst hst
    exact readRegister_register hr (.inr rfl)
  · rw [if_neg hst, State.readRegister, hr]
    exact if_pos ⟨hb, hst⟩

end

/-- A word offset from `BASE` is a word of the register block, if it is not in a window. -/
theorem word_or_window {b : Build} {addr : Nat} (h : addr % 4 = b.base % 4) :
    wordAt b addr = true ∨ windowAt b addr 4 ≠ none := by
  by_cases hw : windowAt b addr 4 = none
  · exact .inl ((wordAt_of_no_window hw).2 h)
  · exact .inr hw

/-- Settles O11: each kind of access in `BUSY`. -/
theorem busyLocksTheHostOut : Obligations.BusyLocksTheHostOut := by
  intro s q hb
  refine ⟨fun addr v hw h => ?_, fun id i v hi h => ?_, fun addr r hr h => ?_, fun addr hr hw h => ?_,
    fun id i hi h => ?_, fun addr v hw h => ?_, fun addr hw h => ?_, fun addr vs hw h => ?_, fun addr r hr h => ?_,
    fun addr n hr hw h => ?_⟩ <;> refine (step_of_cons h).trans ?_
  · exact hostWrite_of_busy (s := s.withAgenda q) hb (hw.elim word_or_window .inr) v
  · exact congrArg Act.outcome (hostWriteBuf_of_busy (s := s.withAgenda q) hb hi v)
  · refine (congrArg Act.outcome (hostRead_wordAt (s := s.withAgenda q) (wordAt_of_regAt hr))).trans ?_
    rw [readRegister_of_busy (s := s.withAgenda q) hb hr]
    split <;> rfl
  · obtain ⟨⟨id, off⟩, hw⟩ := Option.ne_none_iff_exists'.1 hw
    exact congrArg Act.outcome ((hostRead_window (s := s.withAgenda q) hw hr).trans (if_pos hb))
  · exact congrArg Act.outcome (hostReadBuf_of_busy (s := s.withAgenda q) hb hi)
  · exact congrArg Act.outcome (hostWriteBus_of_busy (s := s.withAgenda q) hb hw v)
  · exact congrArg Act.outcome (hostReadBus_of_busy (s := s.withAgenda q) hb hw)
  · refine hostWriteWide_of_busy (s := s.withAgenda q) hb ?_
    rcases hw with ⟨hlen, haligned⟩ | hw
    · exact (word_or_window haligned).imp (fun hw => ⟨hlen, hw⟩) (fun hw => hlen ▸ hw)
    · exact .inr hw
  · refine (congrArg Act.outcome (hostReadWide_wordAt (s := s.withAgenda q) (wordAt_of_regAt hr))).trans ?_
    rw [readRegister_of_busy (s := s.withAgenda q) hb hr]
    split <;> rfl
  · obtain ⟨⟨id, off⟩, hw⟩ := Option.ne_none_iff_exists'.1 hw
    exact congrArg Act.outcome ((hostReadWide_window (s := s.withAgenda q) hw hr).trans (if_pos hb))

/-! ### Which steps stop -/

/-- The act goes on to a next state. -/
def Act.Answers (a : Act) : Prop := ∃ t, a.outcome = .next t

theorem Act.answers_run (i : Instr) (s : State) : (Act.run i s).Answers := everyInstructionCompletes i s

theorem Act.answers_next (t : State) : (Act.settled (.next t)).Answers := ⟨t, rfl⟩

theorem answers_engineTurn (s : State) : s.engineTurn.Answers := by
  unfold State.engineTurn
  split
  · exact Act.answers_run _ _
  · exact Act.answers_next _

theorem answers_runRecord (s : State) (f : Format) (bytes : List Byte) : (s.runRecord f bytes).Answers := by
  unfold State.runRecord
  split
  · exact Act.answers_run _ _
  · exact Act.answers_next _

theorem answers_begin (s : State) : s.begin.Answers := by
  unfold State.begin
  split <;> first | exact Act.answers_next _ | exact Act.answers_run _ _

/-- A piece of a running command always answers: it is a settled state, a record or a command. -/
theorem answers_piece (s : State) : s.piece.Answers := by
  unfold State.piece
  dsimp only
  split
  · exact answers_begin s
  all_goals
    repeat' split
    all_goals first | exact Act.answers_next _ | exact answers_runRecord _ _ _

theorem answers_workTurn (s : State) : s.workTurn.Answers := by
  unfold State.workTurn
  split
  · exact answers_piece s
  · exact Act.answers_next _

/-- The host accesses outside the register block's words and the buffers' bytes and windows (rules R50, R54, R60, R291;
log 10). -/
def Access.Stray (b : Build) : Access → Prop
  | .writeReg addr _ => addr % 4 ≠ b.base % 4 ∧ windowAt b addr 4 = none
  | .readReg addr => addr % 4 ≠ b.base % 4 ∧ windowAt b addr 4 = none
  | .writeBuf id i _ => b.bufSize id ≤ i
  | .readBuf id i => b.bufSize id ≤ i
  | .writeBus addr _ => windowAt b addr 1 = none
  | .readBus addr => windowAt b addr 1 = none
  | .writeWide addr vs => ¬ (vs.length = 4 ∧ addr % 4 = b.base % 4) ∧ windowAt b addr vs.length = none
  | .readWide addr n => ¬ (n = 4 ∧ addr % 4 = b.base % 4) ∧ windowAt b addr n = none

/-- An act either answers or stops, as the access is not stray or is. -/
def StopsIff (p : Prop) (a : Act) : Prop := (p → ∃ f, a.outcome = .fault f) ∧ (¬ p → a.Answers)

theorem stopsIff_hostWriteBuf (s : State) (id : BufId) (i : Nat) (v : Byte) :
    StopsIff (s.build.bufSize id ≤ i) (s.hostWriteBuf id i v) := by
  unfold State.hostWriteBuf
  split
  · next hi =>
    refine ⟨fun h => absurd hi (Nat.not_lt.2 h), fun _ => ?_⟩
    split <;> exact Act.answers_next _
  · next hi => exact ⟨fun _ => ⟨_, rfl⟩, fun h => absurd (Nat.not_le.1 h) hi⟩

theorem stopsIff_hostReadBuf (s : State) (id : BufId) (i : Nat) :
    StopsIff (s.build.bufSize id ≤ i) (s.hostReadBuf id i) := by
  unfold State.hostReadBuf
  split
  · next hi =>
    refine ⟨fun h => absurd hi (Nat.not_lt.2 h), fun _ => ?_⟩
    split <;> exact Act.answers_next _
  · next hi => exact ⟨fun _ => ⟨_, rfl⟩, fun h => absurd (Nat.not_le.1 h) hi⟩

theorem answers_hostStoreLanes (s : State) (id : BufId) (off : Nat) (vs : List Byte) :
    (s.hostStoreLanes id off vs).Answers := by
  unfold State.hostStoreLanes
  split <;> exact Act.answers_next _

theorem not_wordAt_of_stray {b : Build} {addr : Nat} (h : addr % 4 ≠ b.base % 4) (hw : windowAt b addr 4 = none) :
    ¬ wordAt b addr = true := fun hword => h ((wordAt_of_no_window hw).1 hword)

/-- A word access that is not stray and not of the register block is in a window. -/
theorem exists_window_of_not_stray {b : Build} {addr : Nat} (h : ¬ (addr % 4 ≠ b.base % 4 ∧ windowAt b addr 4 = none))
    (hword : ¬ wordAt b addr = true) : ∃ p, windowAt b addr 4 = some p := by
  refine Option.ne_none_iff_exists'.1 fun hw => h ⟨fun ha => hword ?_, hw⟩
  exact (wordAt_of_no_window hw).2 ha

theorem stopsIff_hostWrite (s : State) (addr : Nat) (v : Word) :
    StopsIff (addr % 4 ≠ s.build.base % 4 ∧ windowAt s.build addr 4 = none) (s.hostWrite addr v) := by
  unfold State.hostWrite
  constructor
  · rintro ⟨ha, hw⟩
    rw [if_neg (not_wordAt_of_stray ha hw), hw]
    exact ⟨_, rfl⟩
  · intro h
    split
    · split
      · exact Act.answers_next _
      · split
        · exact Act.answers_run _ _
        · exact Act.answers_next _
      · split <;> exact Act.answers_next _
    · next hword =>
      obtain ⟨⟨id, off⟩, hw⟩ := exists_window_of_not_stray h hword
      rw [hw]
      exact answers_hostStoreLanes s id off _

theorem stopsIff_hostRead (s : State) (addr : Nat) :
    StopsIff (addr % 4 ≠ s.build.base % 4 ∧ windowAt s.build addr 4 = none) (s.hostRead addr) := by
  unfold State.hostRead
  constructor
  · rintro ⟨ha, hw⟩
    rw [if_neg (not_wordAt_of_stray ha hw), hw]
    exact ⟨_, rfl⟩
  · intro h
    split
    · exact Act.answers_next _
    · next hword =>
      obtain ⟨⟨id, off⟩, hw⟩ := exists_window_of_not_stray h hword
      rw [hw]
      dsimp only
      split <;> exact Act.answers_next _

theorem stopsIff_hostBus (s : State) (addr : Nat) {access : BufId → Nat → Act} (gap : State)
    (h : ∀ id i, i < s.build.bufSize id → (access id i).Answers) :
    StopsIff (windowAt s.build addr 1 = none) (s.hostBus addr access gap) := by
  rcases hostBus_cases s addr access gap with ⟨id, i, hbuf, he⟩ | ⟨-, hw, he⟩ | ⟨hw, he⟩ <;> rw [he]
  · obtain ⟨off, hw, -⟩ := bufAt_eq_some hbuf
    exact ⟨fun hn => absurd hw (by simp [hn]), fun _ => h id i (bufAt_lt hbuf)⟩
  · exact ⟨fun hn => absurd hw (by simp [hn]), fun _ => Act.answers_next _⟩
  · exact ⟨fun _ => ⟨_, rfl⟩, fun hn => absurd hw hn⟩

/-- A wide access that is not stray and not of the register block is in a window. -/
theorem exists_window_of_not_stray_wide {b : Build} {addr n : Nat}
    (h : ¬ (¬ (n = 4 ∧ addr % 4 = b.base % 4) ∧ windowAt b addr n = none))
    (hword : ¬ (n = 4 ∧ wordAt b addr = true)) : ∃ p, windowAt b addr n = some p := by
  refine Option.ne_none_iff_exists'.1 fun hw => h ⟨?_, hw⟩
  rintro ⟨rfl, ha⟩
  exact hword ⟨rfl, (wordAt_of_no_window hw).2 ha⟩

theorem not_word_of_stray_wide {b : Build} {addr n : Nat} (h : ¬ (n = 4 ∧ addr % 4 = b.base % 4))
    (hw : windowAt b addr n = none) : ¬ (n = 4 ∧ wordAt b addr = true) := by
  rintro ⟨rfl, hword⟩
  exact h ⟨rfl, (wordAt_of_no_window hw).1 hword⟩

theorem stopsIff_hostWriteWide (s : State) (addr : Nat) (vs : List Byte) :
    StopsIff (¬ (vs.length = 4 ∧ addr % 4 = s.build.base % 4) ∧ windowAt s.build addr vs.length = none)
      (s.hostWriteWide addr vs) := by
  unfold State.hostWriteWide
  constructor
  · rintro ⟨ha, hw⟩
    rw [if_neg (not_word_of_stray_wide ha hw), hw]
    exact ⟨_, rfl⟩
  · intro h
    split
    · next hword =>
      exact (stopsIff_hostWrite s addr _).2 fun ⟨ha, hw⟩ => not_wordAt_of_stray ha hw hword.2
    · next hword =>
      obtain ⟨⟨id, off⟩, hw⟩ := exists_window_of_not_stray_wide h hword
      rw [hw]
      exact answers_hostStoreLanes s id off _

theorem stopsIff_hostReadWide (s : State) (addr n : Nat) :
    StopsIff (¬ (n = 4 ∧ addr % 4 = s.build.base % 4) ∧ windowAt s.build addr n = none) (s.hostReadWide addr n) := by
  unfold State.hostReadWide
  constructor
  · rintro ⟨ha, hw⟩
    rw [if_neg (not_word_of_stray_wide ha hw), hw]
    exact ⟨_, rfl⟩
  · intro h
    split
    · exact Act.answers_next _
    · next hword =>
      obtain ⟨⟨id, off⟩, hw⟩ := exists_window_of_not_stray_wide h hword
      rw [hw]
      dsimp only
      split <;> exact Act.answers_next _

/-- A host access stops exactly when it is stray. -/
theorem stopsIff_hostTurn (s : State) (a : Access) : StopsIff (a.Stray s.build) (s.hostTurn a) := by
  cases a with
  | writeReg addr v => exact stopsIff_hostWrite s addr v
  | readReg addr => exact stopsIff_hostRead s addr
  | writeBuf id i v => exact stopsIff_hostWriteBuf s id i v
  | readBuf id i => exact stopsIff_hostReadBuf s id i
  | writeBus addr v =>
    exact stopsIff_hostBus s addr s fun id i hi => (stopsIff_hostWriteBuf s id i v).2 (Nat.not_le.2 hi)
  | readBus addr =>
    exact stopsIff_hostBus s addr _ fun id i hi => (stopsIff_hostReadBuf s id i).2 (Nat.not_le.2 hi)
  | writeWide addr vs => exact stopsIff_hostWriteWide s addr vs
  | readWide addr n => exact stopsIff_hostReadWide s addr n

/-- A step stops with a fault on a stray host access and answers a next state on everything else. -/
theorem step_stray_or_answers (s : State) :
    (∃ a q f, s.agenda = .host a :: q ∧ a.Stray s.build ∧ step s = .fault f) ∨
      ((∀ a q, s.agenda = .host a :: q → ¬ a.Stray s.build) ∧ ∃ t, step s = .next t) := by
  cases hq : s.agenda with
  | nil => exact .inr ⟨nofun, by rw [step_of_nil hq]; exact answers_engineTurn s⟩
  | cons e q =>
    rw [step_of_cons hq]
    cases e with
    | host a =>
      by_cases hs : a.Stray s.build
      · obtain ⟨f, hf⟩ := (stopsIff_hostTurn (s.withAgenda q) a).1 hs
        exact .inl ⟨a, q, f, rfl, hs, hf⟩
      · refine .inr ⟨fun a' q' h => ?_, (stopsIff_hostTurn (s.withAgenda q) a).2 hs⟩
        cases h
        exact hs
    | engine => exact .inr ⟨nofun, answers_engineTurn _⟩
    | work => exact .inr ⟨nofun, answers_workTurn _⟩
    | reset => exact .inr ⟨nofun, Act.answers_next _⟩

/-- Settles O13: by the agenda's head. -/
theorem onlyStrayHostAccessesFault : Obligations.OnlyStrayHostAccessesFault := by
  intro s
  rcases step_stray_or_answers s with ⟨a, q, f, hq, hs, hf⟩ | ⟨hns, t, ht⟩
  · exact ⟨iff_of_true ⟨f, hf⟩ ⟨a, q, hq, hs⟩, fun r hr => by rw [hf] at hr; cases hr⟩
  · refine ⟨iff_of_false (fun ⟨f, hf⟩ => by rw [ht] at hf; cases hf) fun ⟨a, q, hq, hs⟩ => hns a q hq hs,
      fun r hr => by rw [ht] at hr; cases hr⟩

/-! ### The instruction a step runs -/

theorem runRecord_of_decode {s : State} {f : Format} {bytes : List Byte} {i : Instr} (h : decode f bytes = .ok i) :
    s.runRecord f bytes = .run i s := by
  rw [State.runRecord, h]

theorem engineTurn_of_busy {s : State} (hb : s.state = .busy) : s.engineTurn = .run s.command s := if_pos hb

/-- In `BUSY` a work event is a piece of the running command. -/
theorem step_work {s : State} {q : List Event} (hb : s.state = .busy) (h : s.agenda = .work :: q) :
    step s = (s.withAgenda q).piece.outcome :=
  (step_of_cons h).trans (congrArg Act.outcome (if_pos (c := (s.withAgenda q).state = .busy) hb))

theorem piece_decRle {s : State} (hp : s.work.phase = .decRle) (hpos : s.work.pos < s.n) :
    s.piece = s.runRecord .rle16 s.rleRecordBytes := by
  simp only [State.piece, hp]
  exact if_neg (by simpa [inputDone] using hpos)

theorem piece_decLz {s : State} (hp : s.work.phase = .decLz) (hpos : s.work.pos < s.n) :
    s.piece = s.runRecord .lz32 s.lzRecordBytes := by
  simp only [State.piece, hp]
  exact if_neg (by simpa [inputDone] using hpos)

theorem piece_tree {s : State} (hp : s.work.phase = .tree) (hlen : s.work.arena.length < s.metaLen.toNat) :
    s.piece = s.runRecord .node80 s.nodeRecordBytes := by
  simp only [State.piece, hp]
  exact if_neg (by simpa [loadDone] using hlen)

/-- Settles O16: by the agenda's head and the loop of the running decoder. -/
theorem stepRunsTheDecodedInstruction : Obligations.StepRunsTheDecodedInstruction := by
  intro s q i
  refine ⟨fun hb h hd => ?_, fun hb h hd => ?_, fun b0 b1 b2 b3 h hd => step_ctrl_ok h hd,
    fun hb h hp hpos hd => ?_, fun hb h hp hpos hd => ?_, fun hb h hp hlen hd => ?_⟩
  · cases hd
    exact (step_of_cons h).trans (congrArg Act.outcome (engineTurn_of_busy (s := s.withAgenda q) hb))
  · cases hd
    exact (step_of_nil h).trans (congrArg Act.outcome (engineTurn_of_busy hb))
  · exact (step_work hb h).trans (congrArg Act.outcome
      ((piece_decRle (s := s.withAgenda q) hp hpos).trans (runRecord_of_decode hd)))
  · exact (step_work hb h).trans (congrArg Act.outcome
      ((piece_decLz (s := s.withAgenda q) hp hpos).trans (runRecord_of_decode hd)))
  · exact (step_work hb h).trans (congrArg Act.outcome
      ((piece_tree (s := s.withAgenda q) hp hlen).trans (runRecord_of_decode hd)))

end Sys2Proof.Machine
end

section
/-! The invariant across every step (spec 10, 20, 60, 70): the bound of each codec's output, what each iteration of each
loop keeps of the running structures, and what each act makes of a state that meets the invariant. -/

namespace Sys2Proof.Machine

open Sys2Proof

/-! ### The codecs' outputs fit -/

/-- A match record that is accepted advances the cursor and leaves an output that fits (rules R213 to R216). -/
theorem lzMatchOp_ok {outMax off len : Nat} {lit : Option Byte} {rec : List Byte} {w w' : Work}
    (h : lzMatchOp outMax off len lit rec w = .ok w') :
    ∃ out, out.length ≤ outMax ∧ w' = { w with record := rec, copy := 0, pos := w.pos + 4, out := out } := by
  rw [lzMatchOp_eq] at h
  split at h
  · cases h
  · split at h
    · cases h
    · next hfit =>
      cases h
      refine ⟨_, ?_, rfl⟩
      rw [List.length_append, emitOut_length]
      exact Nat.not_lt.1 hfit

/-- An LZ77 record that is accepted advances the cursor by 4 and leaves an output that fits (rules R210 to R216). -/
theorem lzRecordOp_ok {outMax : Nat} {off : BitVec 16} {lenf b3 : Byte} {w w' : Work}
    (h : lzRecordOp outMax off lenf b3 w = .ok w') :
    ∃ rec out, out.length ≤ outMax ∧ w' = { w with record := rec, copy := 0, pos := w.pos + 4, out := out } := by
  unfold lzRecordOp at h
  split at h
  · split at h
    · rw [lzLitOp_eq] at h
      split at h
      · cases h
      · next hfit =>
        cases h
        exact ⟨_, _, by rw [List.length_append]; exact Nat.not_lt.1 hfit, rfl⟩
    · cases h
  · split at h
    · split at h
      · cases h
      · exact ⟨_, lzMatchOp_ok h⟩
    · exact ⟨_, lzMatchOp_ok h⟩

/-- An RLE record that is accepted advances the cursor by 2 and leaves an output that fits (rules R126, R127). -/
theorem rleRunOp_ok {outMax : Nat} {value count : Byte} {w w' : Work} (h : rleRunOp outMax value count w = .ok w') :
    ∃ rec out, out.length ≤ outMax ∧ w' = { w with record := rec, copy := 0, pos := w.pos + 2, out := out } := by
  rw [rleRunOp_eq] at h
  split at h
  · cases h
  · next hfit =>
    cases h
    exact ⟨_, _, by rw [List.length_append, List.length_replicate]; exact Nat.not_lt.1 hfit, rfl⟩

theorem length_rleDecompress_le {outMax : Nat} {inp out : List Byte} (h : rleDecompress outMax inp = .ok out) :
    out.length ≤ outMax := by
  rw [rleDecompress_eq] at h
  split at h
  · cases h
  · split at h
    · next hfit => cases h; exact hfit
    · cases h

theorem length_lzDecompress_le {outMax : Nat} {inp out : List Byte} (h : lzDecompress outMax inp = .ok out) :
    out.length ≤ outMax := by
  unfold lzDecompress at h
  split at h
  · cases h
  · cases hloop : lzDecode outMax inp .init with
    | error k => rw [hloop] at h; cases h
    | ok w =>
      rw [hloop] at h
      cases h
      refine tryLoop_keeps (P := fun w => w.out.length ≤ outMax) (fun w w' _ _ hbody => ?_) (Nat.zero_le _) hloop
      obtain ⟨rec, out, hout, rfl⟩ := lzRecordOp_ok hbody
      exact hout

theorem length_huffDecompress_le {outMax t size : Nat} {inp mem out : List Byte}
    (h : huffDecompress outMax inp t mem size = .ok out) : out.length ≤ outMax := by
  by_cases ht : t = 0
  · subst ht
    rw [huffDecompress_without_tree] at h
    split at h
    · cases h; exact Nat.zero_le _
    · cases h
  · obtain ⟨-, hsize, w, -, hwalk⟩ := huffDecompress_ok (Nat.one_le_iff_ne_zero.2 ht) h
    rcases walkBits_cases inp size w with ⟨w', hw', hlen, -⟩ | herr
    · rw [hw'] at hwalk
      cases hwalk
      exact hlen.trans_le hsize
    · rw [herr] at hwalk
      cases hwalk

theorem State.length_decompressed_le {s : State} {a : Alg} {out : List Byte} (h : s.decompressed a = .ok out) :
    out.length ≤ s.build.outMax := by
  cases a with
  | rle => exact length_rleDecompress_le h
  | huffman => exact length_huffDecompress_le h
  | lz77 => exact length_lzDecompress_le h

/-! ### Completion steps -/

/-- A candidate as a compressor leaves it (rule R34). -/
def Candidate.Ok (c : Candidate) : Prop :=
  c.err = none ∧ c.rawSize = c.payload.length ∧ c.tree.length ≤ Config.nodeMax

theorem attempt_ok (b : Build) (inp : List Byte) (a : Alg) : (attempt b inp a).Ok := by
  rw [attempt_eq]
  exact ⟨rfl, rfl, length_rawTree_le inp a⟩

theorem policy_ratio_le (inp : List Byte) (c : Candidate) : (policy inp c).ratio ≤ 10000 := by
  rcases Nat.lt_or_ge c.rawSize inp.length with h | h
  · rw [policy_of_lt h]
    exact (ratioRoundsHalfUp.1 _ _ h).2.2
  · rw [policy_of_le h]
    exact Nat.zero_le _

theorem length_policy_tree_le {inp : List Byte} {c : Candidate} (h : c.Ok) :
    (policy inp c).tree.length ≤ Config.nodeMax := by
  obtain ⟨-, -, htree⟩ := h
  unfold policy
  split
  · exact htree
  · exact Nat.zero_le _

/-- Publishing the policy's result of a candidate keeps the invariant (rules R237, R240, R331). -/
theorem State.Inv.publish {s : State} (h : s.Inv) (hn : s.n ≤ s.build.inMax) {c : Candidate} (hc : c.Ok)
    (tested : List Result) (mask : Nat) : (s.publish (policy s.input c) tested mask).Inv := by
  obtain ⟨-, -, ⟨-, hin⟩, ⟨hinout, -⟩, -⟩ := h.legal
  have htree := length_policy_tree_le (inp := s.input) hc
  have hratio := policy_ratio_le s.input c
  have hpay : (policy s.input c).payload.length ≤ s.n := by
    rw [length_payload_policy hc.2.1, ← s.length_input]
    exact policy_comp_le
  simp only [Config.nodeMax] at htree
  refine h.finish (hpay.trans (hn.trans hinout)) ?_ ?_ ?_ ?_ ?_
  · exact (BitVec.toNat_ofNat ..).trans (Nat.mod_eq_of_lt (by omega))
  · rw [serialise_length]
    simp only [Config.nodeMax, Config.nodeRec]
    omega
  · rw [serialise_length]
    exact congrArg (10 * ·) ((BitVec.toNat_ofNat ..).trans (Nat.mod_eq_of_lt (by omega)))
  · exact (toNat_ofNat_le _).trans hratio
  · simp [compressResults]

theorem State.Inv.endCompress {s : State} (h : s.Inv) (hn : s.n ≤ s.build.inMax) {c : Candidate} (hc : c.Ok) :
    (s.endCompress c).Inv := by
  rw [State.endCompress, hc.1]
  exact h.publish hn hc _ _

theorem State.Inv.endSmart {s : State} (h : s.Inv) (hn : s.n ≤ s.build.inMax) {cands : List Candidate}
    (hc : ∀ c ∈ cands, c.Ok) : (s.endSmart cands).Inv := by
  by_cases hsurv : survivors s.input cands = []
  · rw [endSmart_of_none hsurv]
    exact h.raise _
  · obtain ⟨r, hr, hend⟩ := endSmart_of_some hsurv
    obtain ⟨c, hmem, rfl⟩ := List.mem_map.1 hr
    rw [hend]
    exact h.publish hn (hc c (List.mem_of_mem_filter hmem)) _ _

theorem State.Inv.compress {s : State} (h : s.Inv) (a : Alg) : (s.compress a).Inv := by
  unfold State.compress
  split
  · exact h.raise _
  · next hn => exact h.endCompress (Nat.not_lt.1 hn) (attempt_ok _ _ a)

theorem State.Inv.decompress {s : State} (h : s.Inv) (a : Alg) : (s.decompress a).Inv := by
  unfold State.decompress
  split
  · exact h.raise _
  · exact h.endDecompress fun _ => State.length_decompressed_le

theorem State.Inv.smart {s : State} (h : s.Inv) : s.smart.Inv := by
  unfold State.smart
  split
  · exact h.raise _
  · next hn =>
    refine h.endSmart (Nat.not_lt.1 hn) fun c hc => ?_
    obtain ⟨a, -, rfl⟩ := List.mem_map.1 hc
    exact attempt_ok _ _ a

theorem State.Inv.list {s : State} (h : s.Inv) : s.list.Inv :=
  h.endDecompress (r := .ok (listing s.build)) fun out hout => by
    cases hout
    obtain ⟨-, -, -, -, -, hlist⟩ := h.legal
    exact (length_listing s.build).trans_le hlist

/-- A command keeps the invariant. -/
theorem State.Inv.exec_command {i : Instr} (hi : i.format = .cmd8) {s t : State} (h : s.Inv)
    (hexec : exec i s = .next t) : t.Inv := by
  have key : ∀ f : State → State, (∀ s : State, s.Inv → (f s).Inv) → whenBusy f s = .next t → t.Inv := by
    intro f hf hw
    rcases whenBusy_cases hw with ⟨-, rfl⟩ | ⟨-, rfl⟩
    · exact hf s h
    · exact h
  cases i <;> cases hi
  · exact key _ (fun _ h => h.compress .rle) hexec
  · exact key _ (fun _ h => h.compress .huffman) hexec
  · exact key _ (fun _ h => h.compress .lz77) hexec
  · exact key _ (fun _ h => h.raise _) hexec
  · exact key _ (fun _ h => h.decompress .rle) hexec
  · exact key _ (fun _ h => h.decompress .huffman) hexec
  · exact key _ (fun _ h => h.decompress .lz77) hexec
  · exact key _ (fun _ h => h.raise _) hexec
  · exact key _ (fun _ h => h.smart) hexec
  · exact key _ (fun _ h => h.list) hexec

/-- A strobe keeps the invariant. -/
theorem State.Inv.exec_ctrl {i : Instr} (hi : i.format = .ctrl) {s t : State} (h : s.Inv)
    (hexec : exec i s = .next t) : t.Inv := by
  cases i <;> cases hi
  · rw [exec_start] at hexec
    split at hexec <;> cases hexec
    · exact h
    · exact h.startCommand
  · rw [exec_clear] at hexec
    split at hexec <;> cases hexec
    · next hd => exact h.clearResult (by rcases hd with hd | hd <;> simp [hd])
    · exact h

end Sys2Proof.Machine
end

section
/-! The pieces of a running command (spec 10, 20): in each loop, the piece as the iteration of the unit's own loop that it
is. The records of a decoder are fetched and run as instructions; they are the iterations of the decoder's loop. -/

namespace Sys2Proof.Machine

open Sys2Proof

variable {s : State}

/-! ### Records -/

/-- In its decoder a record is the piece its operation makes. -/
theorem recordStep_eq_tryPiece {ph : Phase} (hb : s.state = .busy) (hp : s.work.phase = ph)
    (op : Work → Except ErrKind Work) : recordStep ph op s = .next (s.tryPiece (op s.work)) := by
  cases h : op s.work with
  | ok w => exact recordStep_ok hb hp h
  | error k => exact recordStep_error hb hp h

/-- The byte `k` places after the cursor, as the fetch and as the unit's loop read it. -/
theorem readByte_ibuf_eq_at0 {i : Nat} (h : i < s.n) : s.readByte .ibuf i = at0 s.input i := (s.at0_input h).symm

theorem readByte_mibuf_eq_at0 {i : Nat} (h : i < Config.nodeRec * s.metaLen.toNat) :
    s.readByte .mibuf i = at0 s.metaBytes i := by
  rw [State.metaBytes, State.at0_readBytes s .mibuf h, Nat.zero_add]

theorem decode_rleRecordBytes (h : s.work.pos + 1 < s.n) :
    decode .rle16 s.rleRecordBytes = .ok (.rleRun (at0 s.input s.work.pos) (at0 s.input (s.work.pos + 1))) := by
  rw [← readByte_ibuf_eq_at0 h, ← readByte_ibuf_eq_at0 (i := s.work.pos) (by omega)]
  rfl

theorem decode_lzRecordBytes (h : s.work.pos + 3 < s.n) :
    decode .lz32 s.lzRecordBytes =
      .ok (decodeLz (be16 (at0 s.input s.work.pos) (at0 s.input (s.work.pos + 1))) (at0 s.input (s.work.pos + 2))
        (at0 s.input (s.work.pos + 3))) := by
  rw [← readByte_ibuf_eq_at0 h, ← readByte_ibuf_eq_at0 (i := s.work.pos) (by omega),
    ← readByte_ibuf_eq_at0 (i := s.work.pos + 1) (by omega), ← readByte_ibuf_eq_at0 (i := s.work.pos + 2) (by omega)]
  rfl

theorem outcome_rleRecord (hb : s.state = .busy) (hp : s.work.phase = .decRle) (h : s.work.pos + 1 < s.n) :
    (s.runRecord .rle16 s.rleRecordBytes).outcome =
      .next (s.tryPiece (rleDecBody s.build.outMax s.input s.work)) := by
  rw [runRecord_of_decode (decode_rleRecordBytes h), Act.outcome_run, exec_rleRun]
  exact recordStep_eq_tryPiece hb hp _

theorem outcome_lzRecord (hb : s.state = .busy) (hp : s.work.phase = .decLz) (h : s.work.pos + 3 < s.n) :
    (s.runRecord .lz32 s.lzRecordBytes).outcome =
      .next (s.tryPiece (lzDecBody s.build.outMax s.input s.work)) := by
  rw [runRecord_of_decode (decode_lzRecordBytes h), Act.outcome_run, exec_decodeLz]
  exact recordStep_eq_tryPiece hb hp _

theorem outcome_nodeRecord (hb : s.state = .busy) (hp : s.work.phase = .tree)
    (h : s.work.arena.length < s.metaLen.toNat) :
    (s.runRecord .node80 s.nodeRecordBytes).outcome = .next (s.tryPiece (loadBody s.metaBytes s.work)) := by
  have hread : ∀ k, k < 10 → s.readByte .mibuf (10 * s.work.arena.length + k) =
      at0 s.metaBytes (10 * s.work.arena.length + k) := fun k hk =>
    readByte_mibuf_eq_at0 (by simp only [Config.nodeRec]; omega)
  have hdec : ∃ flags value freq left right, decode .node80 s.nodeRecordBytes =
      .ok (decodeNode flags value freq left right) ∧
      loadBody s.metaBytes s.work = htRecordOp flags value freq left right s.work := by
    refine ⟨_, _, _, _, _, rfl, ?_⟩
    simp only [hread 0 (by omega), hread 1 (by omega), hread 2 (by omega), hread 3 (by omega), hread 4 (by omega),
      hread 5 (by omega), hread 6 (by omega), hread 7 (by omega), hread 8 (by omega), hread 9 (by omega),
      Config.nodeRec]
    rfl
  obtain ⟨flags, value, freq, left, right, hdec, hload⟩ := hdec
  rw [runRecord_of_decode hdec, Act.outcome_run, exec_decodeNode, hload]
  exact recordStep_eq_tryPiece hb hp _

/-! ### The piece of each loop -/

theorem next_of_pos {o : Host.Outcome State Fault Refusal} {p : Prop} [Decidable p] {t t' : State}
    (h : o = .next (if p then t else t')) (hp : p) : o = .next t := by rw [h, if_pos hp]

theorem next_of_neg {o : Host.Outcome State Fault Refusal} {p : Prop} [Decidable p] {t t' : State}
    (h : o = .next (if p then t else t')) (hp : ¬ p) : o = .next t' := by rw [h, if_neg hp]

theorem piece_fresh (hp : s.work.phase = .fresh) : s.piece = s.begin := by simp only [State.piece, hp]

theorem piece_encRle (hp : s.work.phase = .encRle) :
    s.piece.outcome = .next (if inputDone s.input s.work then s.endAttempt .rle []
      else s.withWork (rleEncBody s.input s.work)) := by
  simp only [State.piece, hp]
  split <;> rfl

theorem piece_encLz (hp : s.work.phase = .encLz) :
    s.piece.outcome = .next (if inputDone s.input s.work then s.endAttempt .lz77 []
      else s.withWork (lzEncBody s.build s.input s.work)) := by
  simp only [State.piece, hp]
  split <;> rfl

theorem piece_count_of_empty (hp : s.work.phase = .count) (hn : s.n = 0) :
    s.piece.outcome = .next (s.endAttempt .huffman []) := by
  simp only [State.piece, hp, hn]
  rfl

theorem piece_count (hp : s.work.phase = .count) (hn : s.n ≠ 0) :
    s.piece.outcome = .next (if inputDone s.input s.work then s.withWork { createLeaves s.work with phase := .merge }
      else s.withWork (countBody s.input s.work)) := by
  simp only [State.piece, hp, if_neg hn]
  split <;> rfl

theorem piece_merge (hp : s.work.phase = .merge) :
    s.piece.outcome = .next (if mergeDone s.work then s.withWork { deriveCodes s.work with phase := .pack }
      else s.withWork (mergeBody keyLess s.work)) := by
  simp only [State.piece, hp]
  split <;> rfl

theorem piece_pack (hp : s.work.phase = .pack) :
    s.piece.outcome = .next (if inputDone s.input s.work then
        (s.withWork (flushBits s.work)).endAttempt .huffman s.work.arena
      else s.withWork (packBody s.input s.work)) := by
  simp only [State.piece, hp]
  split <;> rfl

theorem piece_decRle_of_done (hp : s.work.phase = .decRle) (hd : inputDone s.input s.work = true) :
    s.piece.outcome = .next (s.endDecompress (.ok s.work.out)) := by
  simp only [State.piece, hp, hd]
  rfl

theorem piece_decRle_of_record (hb : s.state = .busy) (hp : s.work.phase = .decRle) (h : s.work.pos + 1 < s.n) :
    s.piece.outcome = .next (s.tryPiece (rleDecBody s.build.outMax s.input s.work)) := by
  rw [piece_decRle hp (by omega)]
  exact outcome_rleRecord hb hp h

theorem piece_decLz_of_done (hp : s.work.phase = .decLz) (hd : inputDone s.input s.work = true) :
    s.piece.outcome = .next (s.endDecompress (.ok s.work.out)) := by
  simp only [State.piece, hp, hd]
  rfl

theorem piece_decLz_of_record (hb : s.state = .busy) (hp : s.work.phase = .decLz) (h : s.work.pos + 3 < s.n) :
    s.piece.outcome = .next (s.tryPiece (lzDecBody s.build.outMax s.input s.work)) := by
  rw [piece_decLz hp (by omega)]
  exact outcome_lzRecord hb hp h

theorem piece_tree_of_done (hp : s.work.phase = .tree) (hd : loadDone s.metaLen.toNat s.work = true) :
    s.piece.outcome = .next (if s.build.outMax < s.origSize.toNat then s.raise .capacityExceeded
      else s.withWork (beginWalk s.work)) := by
  simp only [State.piece, hp, hd, if_true]
  split <;> rfl

theorem piece_tree_of_record (hb : s.state = .busy) (hp : s.work.phase = .tree)
    (h : s.work.arena.length < s.metaLen.toNat) :
    s.piece.outcome = .next (s.tryPiece (loadBody s.metaBytes s.work)) := by
  rw [piece_tree hp h]
  exact outcome_nodeRecord hb hp h

theorem piece_bits (hp : s.work.phase = .bits) :
    s.piece.outcome = .next (if walkDone s.origSize.toNat s.work then s.endDecompress (.ok s.work.out)
      else s.tryPiece (walkBody s.input s.work)) := by
  simp only [State.piece, hp]
  split <;> rfl

end Sys2Proof.Machine
end

section
/-! Every iteration of every loop keeps what the invariant says of the running structures (spec 10 section 5, 20 section
1), and every act keeps the invariant. -/

namespace Sys2Proof.Machine

open Sys2Proof

/-! ### What the invariant says in one loop -/

/-- The part of `Work.Ok` that speaks of one loop. -/
def Work.LoopOk (b : Build) (n origSize metaLen : Nat) (w : Work) : Phase → Prop
  | .fresh | .encRle | .encLz => True
  | .count => (∃ v, v < 256 ∧ 0 < w.freq.getD v 0) ∨ w.pos = 0
  | .merge => 1 ≤ w.active.length ∧ w.arena.length + w.active.length ≤ Config.nodeMax + 1
  | .pack => w.arena.length ≤ Config.nodeMax
  | .decRle => w.out.length ≤ b.outMax ∧ n % Config.rleRec = 0 ∧ w.pos % Config.rleRec = 0
  | .decLz => w.out.length ≤ b.outMax ∧ n % Config.lzRec = 0 ∧ w.pos % Config.lzRec = 0
  | .tree => w.arena.length ≤ metaLen ∧ 1 ≤ metaLen ∧ metaLen ≤ Config.nodeMax ∧ TreeOk w.arena
  | .bits =>
    origSize ≤ b.outMax ∧ w.out.length ≤ origSize ∧ w.bitpos ≤ 8 * n ∧ TreeOk w.arena ∧
      w.arena.length ≤ Config.nodeMax ∧ w.cur < w.arena.length

section
variable {b : Build} {n origSize metaLen : Nat} {w w' : Work}

theorem Work.Ok.loop (h : w.Ok b n origSize metaLen) {ph : Phase} (hp : w.phase = ph) :
    w.LoopOk b n origSize metaLen ph := by
  cases ph with
  | fresh | encRle | encLz => trivial
  | count => exact h.counted hp
  | merge => exact h.merging hp
  | pack => exact h.packing hp
  | decRle => exact ⟨h.records (.inl hp), h.rleAligned hp⟩
  | decLz => exact ⟨h.records (.inr hp), h.lzAligned hp⟩
  | tree => exact h.loading hp
  | bits => exact h.walking hp

/-- The structures as a loop's iteration leaves them: what is left to show is where the cursor stands, the packer and
the counters, and what the invariant says in that loop. -/
theorem Work.ok_of_loop (hcands : ∀ c ∈ w'.cands, c.Ok) (hn : n ≤ b.inMax) (hpos : w'.pos ≤ n) (hfill : w'.fill ≤ 7)
    (hfreq : w'.freq.length = 256) {ph : Phase} (hp : w'.phase = ph) (hloop : w'.LoopOk b n origSize metaLen ph) :
    w'.Ok b n origSize metaLen where
  cands := hcands
  inMax _ := hn
  pos := hpos
  fill := hfill
  freq := hfreq
  counted h := by cases hp.symm.trans h; exact hloop
  merging h := by cases hp.symm.trans h; exact hloop
  packing h := by cases hp.symm.trans h; exact hloop
  records h := by rcases h with h | h <;> cases hp.symm.trans h <;> exact hloop.1
  rleAligned h := by cases hp.symm.trans h; exact hloop.2
  lzAligned h := by cases hp.symm.trans h; exact hloop.2
  loading h := by cases hp.symm.trans h; exact hloop
  walking h := by cases hp.symm.trans h; exact hloop

/-- As `Work.ok_of_loop`, for an iteration that leaves the candidates, the packer and the counters alone. -/
theorem Work.Ok.next (h : w.Ok b n origSize metaLen) (hrun : w.phase ≠ .fresh) (hcands : w'.cands = w.cands)
    (hfill : w'.fill = w.fill) (hfreq : w'.freq = w.freq) (hpos : w'.pos ≤ n) {ph : Phase} (hp : w'.phase = ph)
    (hloop : w'.LoopOk b n origSize metaLen ph) : w'.Ok b n origSize metaLen :=
  Work.ok_of_loop (hcands ▸ h.cands) (h.inMax hrun) hpos (hfill ▸ h.fill) (hfreq ▸ h.freq) hp hloop

/-- An attempt begins with structures as the invariant wants them. -/
theorem Work.ok_beginAttempt (hn : n ≤ b.inMax) (a : Alg) {cands : List Candidate} (hc : ∀ c ∈ cands, c.Ok) :
    (beginAttempt a cands).Ok b n origSize metaLen :=
  Work.ok_of_loop hc hn (Nat.zero_le _) (Nat.zero_le _) List.length_replicate rfl <| by
    cases a with
    | rle | lz77 => trivial
    | huffman => exact .inr rfl

/-- The structures as a decoder begins. -/
theorem Work.ok_beginDecoder (hn : n ≤ b.inMax) {ph : Phase}
    (hloop : ({ Work.init with phase := ph } : Work).LoopOk b n origSize metaLen ph) :
    ({ Work.init with phase := ph } : Work).Ok b n origSize metaLen :=
  Work.ok_of_loop nofun hn (Nat.zero_le _) (Nat.zero_le _) List.length_replicate rfl hloop

end

/-! ### The compressors' iterations -/

theorem length_leavesOf_le (freq : List Nat) : (leavesOf freq).length ≤ 256 :=
  (List.length_filterMap_le _ _).trans_eq List.length_range

/-- A counted byte value has a leaf (rule R144). -/
theorem length_leavesOf_pos {freq : List Nat} {v : Nat} (hv : v < 256) (hf : 0 < freq.getD v 0) :
    1 ≤ (leavesOf freq).length :=
  List.length_pos_of_mem (List.mem_filterMap.2 ⟨v, List.mem_range.2 hv, if_neg (Nat.ne_of_gt hf)⟩)

section
variable {b : Build} {origSize metaLen : Nat} {inp : List Byte} {w : Work} (h : w.Ok b inp.length origSize metaLen)
include h

theorem Work.Ok.rleEncBody (hp : w.phase = .encRle) (hd : inputDone inp w = false) :
    (rleEncBody inp w).Ok b inp.length origSize metaLen := by
  obtain ⟨v, c, -, -, hc, -, -, hbody⟩ := rleEncBody_spec inp w ((inputDone_false _ _).1 hd)
  rw [hbody]
  exact h.next (by simp [hp]) rfl rfl rfl hc hp trivial

theorem Work.Ok.lzEncBody (hp : w.phase = .encLz) (hd : inputDone inp w = false) :
    (lzEncBody b inp w).Ok b inp.length origSize metaLen := by
  have hpos := (inputDone_false _ _).1 hd
  refine h.next (by simp [hp]) rfl rfl rfl ?_ hp trivial
  show w.pos + lzAdvance inp w.pos _ ≤ inp.length
  unfold lzAdvance
  split
  · split <;> omega
  · omega

theorem Work.Ok.countBody (hp : w.phase = .count) (hd : inputDone inp w = false) :
    (countBody inp w).Ok b inp.length origSize metaLen := by
  have hv : (at0 inp w.pos).toNat < w.freq.length := h.freq ▸ (at0 inp w.pos).isLt
  refine Work.ok_of_loop h.cands (h.inMax (by simp [hp])) ((inputDone_false _ _).1 hd) h.fill
    ((List.length_modify _ _ _).trans h.freq) hp (.inl ⟨_, (at0 inp w.pos).isLt, ?_⟩)
  rw [Machine.countBody, List.getD_eq_getElem _ _ (by simpa using hv), List.getElem_modify, if_pos rfl]
  exact Nat.succ_pos _

theorem Work.Ok.createLeaves (hp : w.phase = .count) (hne : inp ≠ []) (hd : inputDone inp w = true) :
    ({ createLeaves w with phase := .merge } : Work).Ok b inp.length origSize metaLen := by
  refine h.next (by simp [hp]) rfl rfl rfl h.pos rfl ?_
  have hlen := List.length_pos_of_ne_nil hne
  have hpos := (inputDone_iff _ _).1 hd
  have hle := length_leavesOf_le w.freq
  rcases h.loop hp with ⟨v, hv, hf⟩ | h0
  · refine ⟨List.length_range.symm ▸ length_leavesOf_pos hv hf, ?_⟩
    simp only [Machine.createLeaves, List.length_range, Config.nodeMax]
    omega
  · omega

theorem Work.Ok.mergeBody (hp : w.phase = .merge) (hd : mergeDone w = false) :
    (mergeBody keyLess w).Ok b inp.length origSize metaLen := by
  obtain ⟨x, y, rest, hperm, harena, hactive⟩ := mergeBody_spec keyLess (mergeDone_false.1 hd)
  obtain ⟨-, hsum⟩ := h.loop hp
  have hlen := hperm.length_eq
  simp only [List.length_cons] at hlen
  refine h.next (by simp [hp]) rfl rfl rfl h.pos hp ⟨?_, ?_⟩
  · simp [hactive]
  · simp only [hactive, harena, List.length_append, List.length_singleton]
    omega

theorem Work.Ok.deriveCodes (hp : w.phase = .merge) :
    ({ deriveCodes w with phase := .pack } : Work).Ok b inp.length origSize metaLen := by
  obtain ⟨hone, hsum⟩ := h.loop hp
  refine h.next (by simp [hp]) rfl rfl rfl (Nat.zero_le _) rfl ?_
  show w.arena.length ≤ Config.nodeMax
  omega

end

/-- What the packer leaves alone of the structures the invariant speaks of, and the bound of its fill count. -/
theorem pushBit_bounds (w : Work) (bit : Bool) :
    (pushBit w bit).phase = w.phase ∧ (pushBit w bit).cands = w.cands ∧ (pushBit w bit).freq = w.freq ∧
      (w.fill ≤ 7 → (pushBit w bit).fill ≤ 7) := by
  unfold pushBit
  dsimp only
  split
  · exact ⟨rfl, rfl, rfl, fun _ => Nat.zero_le _⟩
  · exact ⟨rfl, rfl, rfl, fun _ => by simp only; omega⟩

theorem foldl_pushBit_bounds (bits : List Bool) (w : Work) :
    (bits.foldl pushBit w).phase = w.phase ∧ (bits.foldl pushBit w).cands = w.cands ∧
      (bits.foldl pushBit w).freq = w.freq ∧ (w.fill ≤ 7 → (bits.foldl pushBit w).fill ≤ 7) := by
  induction bits generalizing w with
  | nil => exact ⟨rfl, rfl, rfl, id⟩
  | cons bit bits ih =>
    obtain ⟨hp, hc, hf, hfill⟩ := pushBit_bounds w bit
    obtain ⟨hp', hc', hf', hfill'⟩ := ih (pushBit w bit)
    exact ⟨hp'.trans hp, hc'.trans hc, hf'.trans hf, fun hw => hfill' (hfill hw)⟩

theorem Work.Ok.packBody {b : Build} {origSize metaLen : Nat} {inp : List Byte} {w : Work}
    (h : w.Ok b inp.length origSize metaLen) (hp : w.phase = .pack) (hd : inputDone inp w = false) :
    (packBody inp w).Ok b inp.length origSize metaLen := by
  obtain ⟨hp', hc', hf', hfill'⟩ :=
    foldl_pushBit_bounds (w.code.getD (at0 inp w.pos).toNat []) { w with pos := w.pos + 1 }
  obtain ⟨-, -, harena⟩ := foldl_pushBit_frame (w.code.getD (at0 inp w.pos).toNat []) { w with pos := w.pos + 1 }
  refine Work.ok_of_loop (hc' ▸ h.cands) (h.inMax (by simp [hp])) ?_ (hfill' h.fill) (hf' ▸ h.freq) (hp'.trans hp) ?_
  · rw [packBody_pos]
    exact (inputDone_false _ _).1 hd
  · show (Machine.packBody inp w).arena.length ≤ Config.nodeMax
    rw [Machine.packBody, harena]
    exact h.loop hp

@[simp] theorem flushBits_phase (w : Work) : (flushBits w).phase = w.phase := by
  unfold flushBits
  split <;> rfl

theorem Work.Ok.flushBits {b : Build} {n origSize metaLen : Nat} {w : Work} (h : w.Ok b n origSize metaLen)
    (hp : w.phase = .pack) : (flushBits w).Ok b n origSize metaLen := by
  unfold Machine.flushBits
  split
  · exact h
  · exact Work.ok_of_loop h.cands (h.inMax (by simp [hp])) h.pos (Nat.zero_le _) h.freq hp (h.loop hp)

/-! ### The decompressors' iterations -/

section
variable {b : Build} {n origSize metaLen : Nat} {w w' : Work} (h : w.Ok b n origSize metaLen)
include h

theorem Work.Ok.rleDecBody {inp : List Byte} (hp : w.phase = .decRle) (hpos : w.pos + 1 < n)
    (hbody : rleDecBody b.outMax inp w = .ok w') : w'.Ok b n origSize metaLen := by
  obtain ⟨rec, out, hout, rfl⟩ := rleRunOp_ok hbody
  obtain ⟨-, hn, hw⟩ := h.loop hp
  refine h.next (by simp [hp]) rfl rfl rfl hpos hp ⟨hout, hn, ?_⟩
  simp only [Config.rleRec] at hw ⊢
  omega

theorem Work.Ok.lzDecBody {inp : List Byte} (hp : w.phase = .decLz) (hpos : w.pos + 3 < n)
    (hbody : lzDecBody b.outMax inp w = .ok w') : w'.Ok b n origSize metaLen := by
  obtain ⟨rec, out, hout, rfl⟩ := lzRecordOp_ok hbody
  obtain ⟨-, hn, hw⟩ := h.loop hp
  refine h.next (by simp [hp]) rfl rfl rfl hpos hp ⟨hout, hn, ?_⟩
  simp only [Config.lzRec] at hw ⊢
  omega

theorem Work.Ok.loadBody {mem : List Byte} (hp : w.phase = .tree) (hlen : w.arena.length < metaLen)
    (hbody : loadBody mem w = .ok w') : w'.Ok b n origSize metaLen := by
  obtain ⟨nd, hnd, rfl⟩ := loadBody_ok hbody
  obtain ⟨-, hone, hmax, htree⟩ := h.loop hp
  exact h.next (by simp [hp]) rfl rfl rfl h.pos hp
    ⟨by simpa using hlen, hone, hmax, treeOk_append htree hnd⟩

theorem Work.Ok.beginWalk (hp : w.phase = .tree) (hd : loadDone metaLen w = true) (hsize : origSize ≤ b.outMax) :
    (beginWalk w).Ok b n origSize metaLen := by
  obtain ⟨hle, hone, hmax, htree⟩ := h.loop hp
  have hlen : metaLen ≤ w.arena.length := of_decide_eq_true hd
  refine h.next (by simp [hp]) rfl rfl rfl h.pos rfl
    ⟨hsize, Nat.zero_le _, Nat.zero_le _, htree, hle.trans hmax, ?_⟩
  show w.arena.length - 1 < w.arena.length
  omega

theorem Work.Ok.walkBody {inp : List Byte} (hinp : inp.length = n) (hp : w.phase = .bits)
    (hd : walkDone origSize w = false) (hbody : walkBody inp w = .ok w') : w'.Ok b n origSize metaLen := by
  obtain ⟨hsize, -, -, htree, hmax, hcur⟩ := h.loop hp
  have hbits := (walkBody_ok hbody).1
  have hout : w.out.length < origSize := by
    by_contra hle
    rw [walkDone_iff.2 (not_lt.1 hle)] at hd
    cases hd
  have hlen := length_out_walkBody_le hbody
  obtain ⟨out, cur, hok, -, hcur'⟩ := walkBody_of_lt hbits
  cases hok.symm.trans hbody
  exact h.next (by simp [hp]) rfl rfl rfl h.pos hp
    ⟨hsize, hlen.trans hout, hinp ▸ hbits, htree, hmax, hcur' htree hcur⟩

end

end Sys2Proof.Machine
end

section
/-! Every act keeps the invariant (spec 10, 20, 60, 70): the pieces of a running command loop by loop, the engine's turn,
the host's accesses and the reset. -/

namespace Sys2Proof.Machine

open Sys2Proof

/-- Whatever state the act answers meets the invariant. -/
def Act.Keeps (a : Act) : Prop := ∀ t, a.outcome = .next t → t.Inv

theorem Act.keeps_of_outcome {a : Act} {t : State} (ha : a.outcome = .next t) (ht : t.Inv) : a.Keeps := fun t' h => by
  cases ha.symm.trans h
  exact ht

theorem Act.keeps_ite {a : Act} {p : Prop} [Decidable p] {t t' : State} (ha : a.outcome = .next (if p then t else t'))
    (ht : p → t.Inv) (ht' : ¬ p → t'.Inv) : a.Keeps := by
  refine keeps_of_outcome ha ?_
  split
  · exact ht ‹_›
  · exact ht' ‹_›

theorem Act.keeps_next {t : State} (ht : t.Inv) : (Act.settled (.next t)).Keeps := keeps_of_outcome rfl ht

theorem Act.keeps_fault (f : Fault) : (Act.settled (.fault f)).Keeps := fun _ h => by cases h

section
variable {s : State} (h : s.Inv) (hb : s.state = .busy)
include h hb

/-! ### The pieces of a running command -/

/-- The running structures, their limit written as the length of the input. -/
theorem State.Inv.loops : s.work.Ok s.build s.input.length s.origSize.toNat s.metaLen.toNat := by
  rw [s.length_input]
  exact h.running hb

theorem State.Inv.withLoop {w : Work} (hw : w.Ok s.build s.input.length s.origSize.toNat s.metaLen.toNat) :
    (s.withWork w).Inv := by
  rw [s.length_input] at hw
  exact h.withWork hb hw

theorem State.Inv.tryPiece {r : Except ErrKind Work}
    (hr : ∀ w, r = .ok w → w.Ok s.build s.n s.origSize.toNat s.metaLen.toNat) : (s.tryPiece r).Inv := by
  cases r with
  | ok w => exact h.withWork hb (hr w rfl)
  | error k => exact h.raise k

/-- The end of an attempt keeps the invariant, whether the command goes on with the next or completes (rule R250). -/
theorem State.Inv.endAttempt (hrun : s.work.phase ≠ .fresh) (a : Alg) {tree : List Node}
    (htree : tree.length ≤ Config.nodeMax) : (s.endAttempt a tree).Inv := by
  have hn := (h.running hb).inMax hrun
  have hc : (endedAttempt a tree s.work).Ok := ⟨rfl, rfl, htree⟩
  have hcs : ∀ c ∈ s.work.cands ++ [endedAttempt a tree s.work], c.Ok := fun c hmem => by
    rcases List.mem_append.1 hmem with hmem | hmem
    · exact (h.running hb).cands c hmem
    · exact List.mem_singleton.1 hmem ▸ hc
  unfold State.endAttempt
  dsimp only
  split
  · split
    · exact h.withWork hb (Work.ok_beginAttempt hn _ hcs)
    · exact h.endSmart hn hcs
  · exact h.endCompress hn hc

theorem State.Inv.beginCompress (a : Alg) : (s.beginCompress a).Inv := by
  unfold State.beginCompress
  split
  · exact h.raise _
  · next hn => exact h.withWork hb (Work.ok_beginAttempt (not_lt.1 hn) a nofun)

theorem State.Inv.beginRecords {ph : Phase} {size : Nat}
    (hloop : s.n % size = 0 → ({ Work.init with phase := ph } : Work).LoopOk s.build s.n s.origSize.toNat
      s.metaLen.toNat ph) : (s.beginRecords ph size).Inv := by
  unfold State.beginRecords
  split
  · exact h.raise _
  · next hn =>
    split
    · exact h.raise _
    · next hal => exact h.withWork hb (Work.ok_beginDecoder (not_lt.1 hn) (hloop (not_not.1 hal)))

theorem State.Inv.beginHuffman : s.beginHuffman.Inv := by
  unfold State.beginHuffman
  split
  · exact h.raise _
  next hn =>
  split
  · split
    · exact h.endDecompress fun out hout => by cases hout; exact Nat.zero_le _
    · exact h.raise _
  next ht =>
  split
  · exact h.raise _
  next hmax =>
  exact h.withWork hb (Work.ok_beginDecoder (not_lt.1 hn)
    ⟨Nat.zero_le _, Nat.one_le_iff_ne_zero.2 ht, not_lt.1 hmax, treeOk_nil⟩)

theorem State.Inv.begin : s.begin.Keeps := by
  obtain ⟨-, -, hcmd⟩ := encode_decodeCmd s.latched
  unfold State.begin
  split
  · exact Act.keeps_next (h.beginCompress hb _)
  · exact Act.keeps_next (h.beginCompress hb _)
  · exact Act.keeps_next (h.beginCompress hb _)
  · exact Act.keeps_next (h.beginCompress hb _)
  · exact Act.keeps_next (h.beginRecords hb fun hal => ⟨Nat.zero_le _, hal, rfl⟩)
  · exact Act.keeps_next (h.beginRecords hb fun hal => ⟨Nat.zero_le _, hal, rfl⟩)
  · exact Act.keeps_next (h.beginHuffman hb)
  · exact fun t ht => h.exec_command hcmd ht

theorem State.Inv.piece : s.piece.Keeps := by
  have hok := h.loops hb
  have hrun {ph : Phase} (hp : s.work.phase = ph) (hne : ph ≠ .fresh := by nofun) : s.work.phase ≠ .fresh := hp ▸ hne
  cases hp : s.work.phase with
  | fresh =>
    rw [piece_fresh hp]
    exact h.begin hb
  | encRle =>
    exact Act.keeps_ite (piece_encRle hp) (fun _ => h.endAttempt hb (hrun hp) .rle (Nat.zero_le _))
      fun hd => h.withLoop hb (hok.rleEncBody hp (eq_false_of_ne_true hd))
  | encLz =>
    exact Act.keeps_ite (piece_encLz hp) (fun _ => h.endAttempt hb (hrun hp) .lz77 (Nat.zero_le _))
      fun hd => h.withLoop hb (hok.lzEncBody hp (eq_false_of_ne_true hd))
  | count =>
    by_cases hn : s.n = 0
    · exact Act.keeps_of_outcome (piece_count_of_empty hp hn) (h.endAttempt hb (hrun hp) .huffman (Nat.zero_le _))
    · have hne : s.input ≠ [] := fun h0 => hn (by rw [← s.length_input, h0]; rfl)
      exact Act.keeps_ite (piece_count hp hn) (fun hd => h.withLoop hb (hok.createLeaves hp hne hd))
        fun hd => h.withLoop hb (hok.countBody hp (eq_false_of_ne_true hd))
  | merge =>
    exact Act.keeps_ite (piece_merge hp) (fun _ => h.withLoop hb (hok.deriveCodes hp))
      fun hd => h.withLoop hb (hok.mergeBody hp (eq_false_of_ne_true hd))
  | pack =>
    refine Act.keeps_ite (piece_pack hp) (fun _ => ?_) fun hd => h.withLoop hb (hok.packBody hp (eq_false_of_ne_true hd))
    exact (h.withLoop hb (hok.flushBits hp)).endAttempt hb (hrun := by simp [hp]) .huffman (hok.loop hp)
  | decRle =>
    obtain ⟨hout, hn, hpos⟩ := hok.loop hp
    rw [s.length_input] at hn
    by_cases hd : inputDone s.input s.work = true
    · exact Act.keeps_of_outcome (piece_decRle_of_done hp hd) (h.endDecompress fun out ho => by cases ho; exact hout)
    · have hlt : s.work.pos + 1 < s.n := by
        rw [inputDone_iff, s.length_input] at hd
        simp only [Config.rleRec] at hn hpos
        omega
      exact Act.keeps_of_outcome (piece_decRle_of_record hb hp hlt)
        (h.tryPiece hb fun w hw => (h.running hb).rleDecBody hp hlt hw)
  | decLz =>
    obtain ⟨hout, hn, hpos⟩ := hok.loop hp
    rw [s.length_input] at hn
    by_cases hd : inputDone s.input s.work = true
    · exact Act.keeps_of_outcome (piece_decLz_of_done hp hd) (h.endDecompress fun out ho => by cases ho; exact hout)
    · have hlt : s.work.pos + 3 < s.n := by
        rw [inputDone_iff, s.length_input] at hd
        simp only [Config.lzRec] at hn hpos
        omega
      exact Act.keeps_of_outcome (piece_decLz_of_record hb hp hlt)
        (h.tryPiece hb fun w hw => (h.running hb).lzDecBody hp hlt hw)
  | tree =>
    by_cases hd : loadDone s.metaLen.toNat s.work = true
    · exact Act.keeps_ite (piece_tree_of_done hp hd) (fun _ => h.raise _) fun hsize =>
        h.withLoop hb (hok.beginWalk hp hd (not_lt.1 hsize))
    · have hlt := loadDone_false.1 (eq_false_of_ne_true hd)
      exact Act.keeps_of_outcome (piece_tree_of_record hb hp hlt)
        (h.tryPiece hb fun w hw => (h.running hb).loadBody hp hlt hw)
  | bits =>
    obtain ⟨hsize, hout, -⟩ := hok.loop hp
    exact Act.keeps_ite (piece_bits hp)
      (fun _ => h.endDecompress fun out ho => by cases ho; exact hout.trans hsize) fun hd =>
        h.tryPiece hb fun w hw => (h.running hb).walkBody s.length_input hp (eq_false_of_ne_true hd) hw

end

/-! ### The turns -/

section
variable {s : State} (h : s.Inv)
include h

theorem State.Inv.engineTurn : s.engineTurn.Keeps := by
  obtain ⟨-, -, hcmd⟩ := encode_decodeCmd s.latched
  unfold State.engineTurn
  split
  · exact fun t ht => h.exec_command hcmd ht
  · exact Act.keeps_next h

theorem State.Inv.workTurn : s.workTurn.Keeps := by
  unfold State.workTurn
  split
  · next hb => exact h.piece hb
  · exact Act.keeps_next h

theorem State.Inv.returnedLanes (vs : List Byte) : (s.returnedLanes vs).Inv := h.withReads _ _ _

theorem State.Inv.hostRead (addr : Nat) : (s.hostRead addr).Keeps := by
  unfold State.hostRead
  split
  · exact Act.keeps_next (h.readRegister addr)
  · split
    · split
      · exact Act.keeps_next h.returnedAny
      · exact Act.keeps_next (h.withReads _ _ _)
    · exact Act.keeps_fault _

theorem State.Inv.hostStoreLanes (id : BufId) (off : Nat) (vs : List Byte) : (s.hostStoreLanes id off vs).Keeps := by
  unfold State.hostStoreLanes
  split
  · exact Act.keeps_next h
  · next hb => exact Act.keeps_next (h.storeLanes hb id off vs)

theorem State.Inv.hostWrite (addr : Nat) (v : Word) : (s.hostWrite addr v).Keeps := by
  unfold State.hostWrite
  split
  · split
    · exact Act.keeps_next h
    · split
      · next i hi =>
        obtain ⟨hf, -, -⟩ := encode_decodeCtrl v i hi
        exact fun t ht => h.exec_ctrl hf ht
      · exact Act.keeps_next h
    · split
      · exact Act.keeps_next h
      · next hb => exact Act.keeps_next (h.writeStored hb _ _)
  · split
    · exact h.hostStoreLanes _ _ _
    · exact Act.keeps_fault _

theorem State.Inv.hostReadBuf (id : BufId) (i : Nat) : (s.hostReadBuf id i).Keeps := by
  unfold State.hostReadBuf
  split
  · split
    · exact Act.keeps_next h.returnedAny
    · exact Act.keeps_next (h.returned _)
  · exact Act.keeps_fault _

theorem State.Inv.hostWriteBuf (id : BufId) (i : Nat) (v : Byte) : (s.hostWriteBuf id i v).Keeps := by
  unfold State.hostWriteBuf
  split
  · next hi =>
    split
    · exact Act.keeps_next h
    · next hb => exact Act.keeps_next (h.storeByte hb id i v hi)
  · exact Act.keeps_fault _

omit h in
theorem keeps_hostBus {addr : Nat} {access : BufId → Nat → Act} {gap : State} (ha : ∀ id i, (access id i).Keeps)
    (hg : gap.Inv) : (s.hostBus addr access gap).Keeps := by
  rcases hostBus_cases s addr access gap with ⟨id, i, -, hbus⟩ | ⟨-, -, hbus⟩ | ⟨-, hbus⟩ <;> rw [hbus]
  · exact ha id i
  · exact Act.keeps_next hg
  · exact Act.keeps_fault _

theorem State.Inv.hostReadWide (addr n : Nat) : (s.hostReadWide addr n).Keeps := by
  unfold State.hostReadWide
  split
  · exact Act.keeps_next ((h.readRegister addr).withReads _ _ _)
  · split
    · split
      · exact Act.keeps_next (h.returnedLanes _)
      · exact Act.keeps_next (h.returnedLanes _)
    · exact Act.keeps_fault _

theorem State.Inv.hostWriteWide (addr : Nat) (vs : List Byte) : (s.hostWriteWide addr vs).Keeps := by
  unfold State.hostWriteWide
  split
  · exact h.hostWrite _ _
  · split
    · exact h.hostStoreLanes _ _ _
    · exact Act.keeps_fault _

theorem State.Inv.hostTurn (a : Access) : (s.hostTurn a).Keeps := by
  cases a with
  | writeReg addr v => exact h.hostWrite addr v
  | readReg addr => exact h.hostRead addr
  | writeBuf id i v => exact h.hostWriteBuf id i v
  | readBuf id i => exact h.hostReadBuf id i
  | writeBus addr v => exact keeps_hostBus (fun id i => h.hostWriteBuf id i v) h
  | readBus addr => exact keeps_hostBus h.hostReadBuf h.returnedAny
  | writeWide addr vs => exact h.hostWriteWide addr vs
  | readWide addr n => exact h.hostReadWide addr n

theorem State.Inv.turn (e : Event) : (s.turn e).Keeps := by
  cases e with
  | host a => exact h.hostTurn a
  | engine => exact h.engineTurn
  | work => exact h.workTurn
  | reset => exact Act.keeps_next h.platformReset

end

/-- Settles O58: by the agenda's head, with what each act keeps. -/
theorem everyStepKeepsTheInvariant : Obligations.EveryStepKeepsTheInvariant := by
  intro s t h hstep
  cases hq : s.agenda with
  | nil =>
    rw [step_of_nil hq] at hstep
    exact h.engineTurn t hstep
  | cons e q =>
    rw [step_of_cons hq] at hstep
    exact (h.withAgenda q).turn e t hstep

end Sys2Proof.Machine
end

section
/-! A command piece by piece (spec 10 section 3, 20 section 4): the pieces run the very loops of the units, so they end in
the state of the completion step. The loops of the units are stated of structures of their own; a running command's differ
from those in the loop it is in and in the attempts that have ended, which no loop reads. -/

namespace Sys2Proof.Machine

open Sys2Proof

/-! ### Runs of pieces -/

/-- The state with other running structures and another agenda: all that changes before a command's last piece. -/
def State.midway (s : State) (w : Work) (q : List Event) : State := (s.withWork w).withAgenda q

/-- The piece at the structures `w` leaves `w'` and nothing else. -/
def PieceTo (s : State) (w w' : Work) : Prop := ∀ q, (s.midway w q).piece.outcome = .next (s.midway w' q)

/-- Pieces lead from the structures `w` to `w'`. -/
def Reaches (s : State) : Work → Work → Prop := Relation.ReflTransGen (PieceTo s)

/-- Pieces lead from the structures `w` to a last one, which answers `t`. -/
def Ends (s : State) (w : Work) (t : State) : Prop :=
  ∃ w', Reaches s w w' ∧ ∀ q, (s.midway w' q).piece.outcome = .next (t.withAgenda q)

theorem Ends.of_reaches {s t : State} {w w' : Work} (hr : Reaches s w w') (h : Ends s w' t) : Ends s w t := by
  obtain ⟨w'', hr', hlast⟩ := h
  exact ⟨w'', hr.trans hr', hlast⟩

theorem Ends.of_piece {s t : State} {w : Work} (h : ∀ q, (s.midway w q).piece.outcome = .next (t.withAgenda q)) :
    Ends s w t := ⟨w, .refl, h⟩

/-- A work event in the midst of a command is the piece. -/
theorem step_midway {s : State} (hb : s.state = .busy) (w : Work) (q : List Event) :
    step (s.midway w (.work :: q)) = (s.midway w q).piece.outcome :=
  step_work (s := s.midway w (.work :: q)) hb rfl

/-- As many work events as there are pieces run a command to its end; before the last only the running structures and the
agenda have changed. -/
theorem Ends.run {s t : State} (hb : s.state = .busy) {w : Work} (h : Ends s w t) :
    ∃ k, core.run (k + 1) (s.midway w (List.replicate (k + 1) .work)) = .next (t.withAgenda []) ∧
      ∀ j, j ≤ k → ∃ w', core.run j (s.midway w (List.replicate (k + 1) .work)) =
        .next (s.midway w' (List.replicate (k + 1 - j) .work)) := by
  obtain ⟨w', hr, hlast⟩ := h
  induction hr using Relation.ReflTransGen.head_induction_on with
  | refl =>
    refine ⟨0, (run_succ_of_next core 0 ((step_midway hb w' []).trans (hlast []))).trans rfl, fun j hj => ?_⟩
    cases Nat.le_zero.1 hj
    exact ⟨w', rfl⟩
  | @head w w₁ hpiece _ ih =>
    obtain ⟨k, hend, hmid⟩ := ih
    have hstep : core.step (s.midway w (List.replicate (k + 2) .work)) =
        .next (s.midway w₁ (List.replicate (k + 1) .work)) := (step_midway hb w _).trans (hpiece _)
    refine ⟨k + 1, (run_succ_of_next core _ hstep).trans hend, fun j hj => ?_⟩
    cases j with
    | zero => exact ⟨w, rfl⟩
    | succ j =>
      rw [run_succ_of_next core j hstep]
      obtain ⟨w', hw'⟩ := hmid j (Nat.le_of_succ_le_succ hj)
      exact ⟨w', by rw [hw', Nat.add_sub_add_right]⟩

/-! ### Structures of a running command -/

/-- A unit's structures as those of a running command in the loop `ph`. -/
def Work.inLoop (w : Work) (ph : Phase) (cands : List Candidate) : Work := { w with phase := ph, cands := cands }

section
variable {s : State} {ph : Phase} {cs : List Candidate} {done : Work → Bool}

/-- A loop whose iterations are pieces runs piece by piece. -/
theorem reaches_runLoop {body : Work → Work}
    (hpiece : ∀ w, done w = false → PieceTo s (w.inLoop ph cs) ((body w).inLoop ph cs)) (n : Nat) (w : Work) :
    Reaches s (w.inLoop ph cs) ((runLoop done body n w).inLoop ph cs) := by
  induction n generalizing w with
  | zero => exact .refl
  | succ n ih =>
    cases hd : done w
    · rw [runLoop_succ_of_not_done hd]
      exact .head (hpiece w hd) (ih _)
    · rw [runLoop_of_done hd]
      exact .refl

/-- A loop whose iterations may raise and are pieces runs piece by piece, to its end or to the first raise (rule R285). -/
theorem reaches_tryLoop {body : Work → Except ErrKind Work} {P : Work → Prop}
    (hkeeps : ∀ w w', P w → done w = false → body w = .ok w' → P w')
    (hpiece : ∀ w, P w → done w = false → ∀ q, (s.midway (w.inLoop ph cs) q).piece.outcome =
      .next ((s.midway (w.inLoop ph cs) q).tryPiece ((body w).map (·.inLoop ph cs)))) (n : Nat) {w : Work} (hw : P w) :
    (∀ w', tryLoop done body n w = .ok w' → Reaches s (w.inLoop ph cs) (w'.inLoop ph cs)) ∧
      ∀ k, tryLoop done body n w = .error k → Ends s (w.inLoop ph cs) (s.raise k) := by
  induction n generalizing w with
  | zero => exact ⟨fun w' h => by cases h; exact .refl, nofun⟩
  | succ n ih =>
    cases hd : done w
    · have hp := hpiece w hw hd
      cases hbody : body w with
      | ok v =>
        rw [tryLoop_succ_ok hd hbody]
        obtain ⟨hok, herr⟩ := ih (hkeeps w v hw hd hbody)
        rw [hbody] at hp
        exact ⟨fun w' h => .head hp (hok w' h), fun k h => .of_reaches (.single hp) (herr k h)⟩
      | error k =>
        rw [tryLoop_succ_error hd hbody]
        rw [hbody] at hp
        exact ⟨nofun, fun k' h => by cases h; exact .of_piece hp⟩
    · rw [tryLoop_of_done hd]
      exact ⟨fun w' h => by cases h; exact .refl, nofun⟩

end

/-! ### The iterations do not read the loop and the attempts -/

section
variable (inp : List Byte) (w : Work) (ph : Phase) (cs : List Candidate)

theorem rleEncBody_inLoop : rleEncBody inp (w.inLoop ph cs) = (rleEncBody inp w).inLoop ph cs := by
  unfold rleEncBody Work.inLoop
  dsimp only
  split <;> rfl

theorem pushBit_inLoop (bit : Bool) : pushBit (w.inLoop ph cs) bit = (pushBit w bit).inLoop ph cs := by
  unfold pushBit Work.inLoop
  dsimp only
  split <;> rfl

theorem foldl_pushBit_inLoop (bits : List Bool) :
    bits.foldl pushBit (w.inLoop ph cs) = (bits.foldl pushBit w).inLoop ph cs := by
  induction bits generalizing w with
  | nil => rfl
  | cons bit bits ih => rw [List.foldl_cons, pushBit_inLoop, ih, List.foldl_cons]

theorem packBody_inLoop : packBody inp (w.inLoop ph cs) = (packBody inp w).inLoop ph cs :=
  foldl_pushBit_inLoop { w with pos := w.pos + 1 } ph cs _

theorem flushBits_inLoop : flushBits (w.inLoop ph cs) = (flushBits w).inLoop ph cs := by
  unfold flushBits Work.inLoop
  dsimp only
  split <;> rfl

theorem rleDecBody_inLoop (outMax : Nat) :
    rleDecBody outMax inp (w.inLoop ph cs) = (rleDecBody outMax inp w).map (·.inLoop ph cs) := by
  rw [rleDecBody, rleDecBody, rleRunOp_eq, rleRunOp_eq, apply_ite (Except.map _)]
  rfl

theorem lzMatchOp_inLoop (outMax off len : Nat) (lit : Option Byte) (rec : List Byte) :
    lzMatchOp outMax off len lit rec (w.inLoop ph cs) = (lzMatchOp outMax off len lit rec w).map (·.inLoop ph cs) := by
  simp only [lzMatchOp_eq, apply_ite (Except.map _)]
  rfl

theorem lzRecordOp_inLoop (outMax : Nat) (off : BitVec 16) (lenf b3 : Byte) :
    lzRecordOp outMax off lenf b3 (w.inLoop ph cs) = (lzRecordOp outMax off lenf b3 w).map (·.inLoop ph cs) := by
  unfold lzRecordOp
  split
  · split
    · rw [lzLitOp_eq, lzLitOp_eq, apply_ite (Except.map _)]
      rfl
    · rfl
  · split
    · split
      · rfl
      · exact lzMatchOp_inLoop ..
    · exact lzMatchOp_inLoop ..

theorem lzDecBody_inLoop (outMax : Nat) :
    lzDecBody outMax inp (w.inLoop ph cs) = (lzDecBody outMax inp w).map (·.inLoop ph cs) := lzRecordOp_inLoop ..

theorem loadBody_inLoop (mem : List Byte) :
    loadBody mem (w.inLoop ph cs) = (loadBody mem w).map (·.inLoop ph cs) := by
  unfold loadBody htRecordOp htLeafOp htNodeOp Work.inLoop
  dsimp only
  split
  · split <;> rfl
  · split
    · split <;> rfl
    · rfl

theorem walkBody_inLoop : walkBody inp (w.inLoop ph cs) = (walkBody inp w).map (·.inLoop ph cs) := by
  unfold walkBody Work.inLoop
  dsimp only
  split
  · rfl
  · split
    · rfl
    · split <;> rfl

end

end Sys2Proof.Machine
end

section
/-! A command piece by piece, continued: each attempt and each decoder runs to the result of its unit, and every command
to the state of its completion step. -/

namespace Sys2Proof.Machine

open Sys2Proof

/-! ### The state in the midst of a command -/

section
variable (s : State) (w : Work) (q : List Event)

@[simp] theorem State.midway_work : (s.midway w q).work = w := rfl
@[simp] theorem State.midway_input : (s.midway w q).input = s.input := rfl
@[simp] theorem State.midway_command : (s.midway w q).command = s.command := rfl
@[simp] theorem State.withWork_midway (w' : Work) : (s.midway w q).withWork w' = s.midway w' q := rfl

@[simp] theorem State.endDecompress_midway (r : Except ErrKind (List Byte)) :
    (s.midway w q).endDecompress r = (s.endDecompress r).withAgenda q := by
  cases r <;> rfl

@[simp] theorem State.endCompress_midway (c : Candidate) :
    (s.midway w q).endCompress c = (s.endCompress c).withAgenda q := by
  unfold State.endCompress
  split <;> rfl

@[simp] theorem State.endSmart_midway (cs : List Candidate) :
    (s.midway w q).endSmart cs = (s.endSmart cs).withAgenda q := by
  unfold State.endSmart
  rw [State.midway_input]
  split <;> rfl

end

/-! ### The loops end -/

/-- A pass over the input that advances its cursor ends. -/
theorem inputDone_runLoop {inp : List Byte} {body : Work → Work}
    (hpos : ∀ w, w.pos < inp.length → w.pos < (body w).pos) (w : Work) :
    inputDone inp (runLoop (inputDone inp) body inp.length w) = true := by
  refine runLoop_ends (P := fun _ => True) (fun w => inp.length - w.pos) (fun w _ hd => ⟨trivial, ?_⟩) trivial
    (Nat.sub_le _ _)
  have hlt := (inputDone_false _ _).1 hd
  have := hpos w hlt
  omega

theorem lzEncode_ends (b : Build) (inp : List Byte) (w : Work) : inputDone inp (lzEncode b inp w) = true :=
  inputDone_runLoop (fun _ hlt => Nat.lt_add_of_pos_right (lzAdvance_pos hlt _)) w

theorem mergeNodes_ends (less : TieBreak) (w : Work) : mergeDone (mergeNodes less w) = true :=
  runLoop_ends (P := fun _ => True) (fun w => w.active.length)
    (fun _ _ hd => ⟨trivial, length_active_mergeBody less hd⟩) trivial le_rfl

theorem rleDecode_ends {outMax : Nat} {inp : List Byte} (hal : inp.length % 2 = 0) {w : Work}
    (h : rleDecode outMax inp .init = .ok w) : inputDone inp w = true := by
  refine tryLoop_ends (fun w => (inp.length - w.pos + 1) / 2) (fun w w' hd hbody => ?_) ?_ h fun w hw => ?_
  · obtain ⟨rec, out, -, rfl⟩ := rleRunOp_ok hbody
    have := (inputDone_false _ _).1 hd
    simp only
    omega
  · show (inp.length - 0 + 1) / 2 ≤ inp.length / 2
    omega
  · rw [inputDone_iff]
    omega

theorem lzDecode_ends {outMax : Nat} {inp : List Byte} (hal : inp.length % 4 = 0) {w : Work}
    (h : lzDecode outMax inp .init = .ok w) : inputDone inp w = true := by
  refine tryLoop_ends (fun w => (inp.length - w.pos + 3) / 4) (fun w w' hd hbody => ?_) ?_ h fun w hw => ?_
  · obtain ⟨rec, out, -, rfl⟩ := lzRecordOp_ok hbody
    have := (inputDone_false _ _).1 hd
    simp only
    omega
  · show (inp.length - 0 + 3) / 4 ≤ inp.length / 4
    omega
  · rw [inputDone_iff]
    omega

theorem loadTree_ends {t : Nat} {mem : List Byte} {w : Work} (h : loadTree t mem .init = .ok w) :
    loadDone t w = true := by
  refine tryLoop_ends (fun w => t - w.arena.length) (fun w w' hd hbody => ?_) (Nat.sub_le _ _) h fun w hw => ?_
  · obtain ⟨nd, -, rfl⟩ := loadBody_ok hbody
    have := loadDone_false.1 hd
    simp only [List.length_append, List.length_singleton]
    omega
  · exact decide_eq_true (by omega)

/-! ### The compressors' pieces -/

section
variable {s : State} {w : Work} (cs : List Candidate)

theorem pieceTo_encRle (hd : inputDone s.input w = false) :
    PieceTo s (w.inLoop .encRle cs) ((rleEncBody s.input w).inLoop .encRle cs) := fun q => by
  rw [← rleEncBody_inLoop]
  exact next_of_neg (piece_encRle (s := s.midway (w.inLoop .encRle cs) q) rfl) (ne_true_of_eq_false hd)

theorem pieceTo_encLz (hd : inputDone s.input w = false) :
    PieceTo s (w.inLoop .encLz cs) ((lzEncBody s.build s.input w).inLoop .encLz cs) := fun q =>
  next_of_neg (piece_encLz (s := s.midway (w.inLoop .encLz cs) q) rfl) (ne_true_of_eq_false hd)

theorem pieceTo_count (hn : s.n ≠ 0) (hd : inputDone s.input w = false) :
    PieceTo s (w.inLoop .count cs) ((countBody s.input w).inLoop .count cs) := fun q =>
  next_of_neg (piece_count (s := s.midway (w.inLoop .count cs) q) rfl hn) (ne_true_of_eq_false hd)

theorem pieceTo_createLeaves (hn : s.n ≠ 0) (hd : inputDone s.input w = true) :
    PieceTo s (w.inLoop .count cs) ((createLeaves w).inLoop .merge cs) := fun q =>
  next_of_pos (piece_count (s := s.midway (w.inLoop .count cs) q) rfl hn) hd

theorem pieceTo_merge (hd : mergeDone w = false) :
    PieceTo s (w.inLoop .merge cs) ((mergeBody keyLess w).inLoop .merge cs) := fun q =>
  next_of_neg (piece_merge (s := s.midway (w.inLoop .merge cs) q) rfl) (ne_true_of_eq_false hd)

theorem pieceTo_deriveCodes (hd : mergeDone w = true) :
    PieceTo s (w.inLoop .merge cs) ((deriveCodes w).inLoop .pack cs) := fun q =>
  next_of_pos (piece_merge (s := s.midway (w.inLoop .merge cs) q) rfl) hd

theorem pieceTo_pack (hd : inputDone s.input w = false) :
    PieceTo s (w.inLoop .pack cs) ((packBody s.input w).inLoop .pack cs) := fun q => by
  rw [← packBody_inLoop]
  exact next_of_neg (piece_pack (s := s.midway (w.inLoop .pack cs) q) rfl) (ne_true_of_eq_false hd)

theorem piece_flush (hd : inputDone s.input w = true) (q : List Event) :
    (s.midway (w.inLoop .pack cs) q).piece.outcome =
      .next ((s.midway ((flushBits w).inLoop .pack cs) q).endAttempt .huffman w.arena) := by
  rw [← flushBits_inLoop]
  exact next_of_pos (piece_pack (s := s.midway (w.inLoop .pack cs) q) rfl) hd

end

/-! ### The attempts -/

/-- The structures `w` are at the end of an attempt of `a` after the attempts `cs`: the next piece ends it, with the
result of the unit. -/
def AttemptEnds (s : State) (a : Alg) (cs : List Candidate) (w : Work) : Prop :=
  ∃ w' tree, w'.cands = cs ∧ endedAttempt a tree w' = attempt s.build s.input a ∧
    ∀ q, (s.midway w q).piece.outcome = .next ((s.midway w' q).endAttempt a tree)

theorem rleAttempt_reaches (s : State) (cs : List Candidate) :
    ∃ w, Reaches s (beginAttempt .rle cs) w ∧ AttemptEnds s .rle cs w := by
  have hloop : Reaches s (beginAttempt .rle cs) ((rleEncode s.input .init).inLoop .encRle cs) :=
    reaches_runLoop (fun _ hd => pieceTo_encRle cs hd) _ .init
  refine ⟨_, hloop, (rleEncode s.input .init).inLoop .encRle cs, [], rfl, rfl, fun q => ?_⟩
  exact next_of_pos (piece_encRle (s := s.midway ((rleEncode s.input .init).inLoop .encRle cs) q) rfl)
    (rleEncode_ends s.input .init)

theorem lzAttempt_reaches (s : State) (cs : List Candidate) :
    ∃ w, Reaches s (beginAttempt .lz77 cs) w ∧ AttemptEnds s .lz77 cs w := by
  have hloop : Reaches s (beginAttempt .lz77 cs) ((lzEncode s.build s.input .init).inLoop .encLz cs) :=
    reaches_runLoop (fun _ hd => pieceTo_encLz cs hd) _ .init
  refine ⟨_, hloop, (lzEncode s.build s.input .init).inLoop .encLz cs, [], rfl, rfl, fun q => ?_⟩
  exact next_of_pos (piece_encLz (s := s.midway ((lzEncode s.build s.input .init).inLoop .encLz cs) q) rfl)
    (lzEncode_ends s.build s.input .init)

/-- On an empty input the counting loop ends the attempt at once (rule R142). -/
theorem huffmanAttempt_of_empty {s : State} (hn : s.n = 0) (cs : List Candidate) :
    AttemptEnds s .huffman cs (beginAttempt .huffman cs) := by
  have hinput : s.input = [] := List.eq_nil_of_length_eq_zero (s.length_input.trans hn)
  exact ⟨beginAttempt .huffman cs, [], rfl, by rw [hinput]; rfl, fun q => piece_count_of_empty rfl hn⟩

/-- The frequencies counted, the tree built and the codes packed, one loop after another (rule R141). -/
theorem huffmanAttempt_reaches {s : State} (hn : s.n ≠ 0) (cs : List Candidate) :
    ∃ w, Reaches s (beginAttempt .huffman cs) w ∧ AttemptEnds s .huffman cs w := by
  have hne : ∃ v rest, s.input = v :: rest :=
    List.exists_cons_of_ne_nil fun h0 => hn (by rw [← s.length_input, h0]; rfl)
  have hcount : Reaches s (beginAttempt .huffman cs) ((countFrequencies s.input .init).inLoop .count cs) :=
    reaches_runLoop (fun _ hd => pieceTo_count cs hn hd) _ .init
  have hcounted : inputDone s.input (countFrequencies s.input .init) = true :=
    inputDone_runLoop (body := countBody s.input) (fun _ _ => Nat.lt_succ_self _) .init
  have hleaves := pieceTo_createLeaves cs hn hcounted
  have hmerge : Reaches s ((createLeaves (countFrequencies s.input .init)).inLoop .merge cs)
      ((mergeNodes keyLess (createLeaves (countFrequencies s.input .init))).inLoop .merge cs) :=
    reaches_runLoop (fun _ hd => pieceTo_merge cs hd) _ _
  have hcodes := pieceTo_deriveCodes (s := s) cs (mergeNodes_ends keyLess (createLeaves (countFrequencies s.input .init)))
  have hpack := reaches_runLoop (fun _ hd => pieceTo_pack (s := s) cs hd) s.input.length
    (deriveCodes (mergeNodes keyLess (createLeaves (countFrequencies s.input .init))))
  have hend := inputDone_runLoop (inp := s.input) (body := packBody s.input)
    (fun w _ => (packBody_pos s.input w).symm ▸ Nat.lt_succ_self _)
    (deriveCodes (mergeNodes keyLess (createLeaves (countFrequencies s.input .init))))
  refine ⟨_, (hcount.tail hleaves).trans ((hmerge.tail hcodes).trans hpack), _, _, rfl, ?_, piece_flush cs hend⟩
  obtain ⟨v, rest, hinput⟩ := hne
  rw [attempt, huffCompress, hinput, ← flushBits_arena]
  rfl

/-- Every attempt runs to the result of its unit. -/
theorem attempt_reaches (s : State) (a : Alg) (cs : List Candidate) :
    ∃ w, Reaches s (beginAttempt a cs) w ∧ AttemptEnds s a cs w := by
  cases a with
  | rle => exact rleAttempt_reaches s cs
  | huffman =>
    by_cases hn : s.n = 0
    · exact ⟨_, .refl, huffmanAttempt_of_empty hn cs⟩
    · exact huffmanAttempt_reaches hn cs
  | lz77 => exact lzAttempt_reaches s cs

/-- `COMPRESS` completes with its attempt (rule R232). -/
theorem ends_attempt_compress {s : State} (hcmd : ∀ alg, s.command ≠ .smartCompress alg) (a : Alg)
    (cs : List Candidate) : Ends s (beginAttempt a cs) (s.endCompress (attempt s.build s.input a)) := by
  obtain ⟨w, hreach, w', tree, -, hended, hpiece⟩ := attempt_reaches s a cs
  refine .of_reaches hreach (.of_piece fun q => (hpiece q).trans ?_)
  unfold State.endAttempt
  dsimp only [State.midway_command, State.midway_work]
  split
  · next alg h => exact absurd h (hcmd alg)
  · rw [hended, State.endCompress_midway]

section
variable {s : State} {alg : BitVec 6} (hcmd : s.command = .smartCompress alg)
include hcmd

/-- `SMART_COMPRESS` goes on with the attempt that follows (rule R250). -/
theorem ends_attempt_following {a a' : Alg} (ha : a.following = some a') {cs : List Candidate} {t : State}
    (h : Ends s (beginAttempt a' (cs ++ [attempt s.build s.input a])) t) : Ends s (beginAttempt a cs) t := by
  obtain ⟨w, hreach, w', tree, hcs, hended, hpiece⟩ := attempt_reaches s a cs
  refine .of_reaches (hreach.tail fun q => (hpiece q).trans ?_) h
  simp only [State.endAttempt, State.midway_command, hcmd, ha, State.midway_work, hended, hcs, State.withWork_midway]

/-- After the last attempt `SMART_COMPRESS` selects (rule R250). -/
theorem ends_attempt_last {a : Alg} (ha : a.following = none) (cs : List Candidate) :
    Ends s (beginAttempt a cs) (s.endSmart (cs ++ [attempt s.build s.input a])) := by
  obtain ⟨w, hreach, w', tree, hcs, hended, hpiece⟩ := attempt_reaches s a cs
  refine .of_reaches hreach (.of_piece fun q => (hpiece q).trans ?_)
  simp only [State.endAttempt, State.midway_command, hcmd, ha, State.midway_work, hended, hcs, State.endSmart_midway]

theorem ends_attempts_smart :
    Ends s (beginAttempt .rle []) (s.endSmart (registered.map (attempt s.build s.input))) :=
  ends_attempt_following hcmd rfl (ends_attempt_following hcmd rfl (ends_attempt_last hcmd rfl _))

end

/-! ### The decoders -/

section
variable {s : State} (hb : s.state = .busy)
include hb

/-- The RLE decoder runs to the result of its unit (rule R126). -/
theorem ends_rleDecode (hal : s.n % Config.rleRec = 0) :
    Ends s { Work.init with phase := .decRle } (s.endDecompress (rleDecompress s.build.outMax s.input)) := by
  rw [← s.length_input] at hal
  obtain ⟨hok, herr⟩ := reaches_tryLoop (s := s) (ph := .decRle) (cs := []) (done := inputDone s.input)
    (body := rleDecBody s.build.outMax s.input) (P := fun w => w.pos % Config.rleRec = 0)
    (fun w w' hw _ hbody => by
      obtain ⟨rec, out, -, rfl⟩ := rleRunOp_ok hbody
      exact (Nat.add_mod_right w.pos 2).trans hw)
    (fun w hw hd q => by
      have hlt : w.pos + 1 < s.n := by
        rw [inputDone_false] at hd
        rw [← s.length_input]
        simp only [Config.rleRec] at hal hw
        omega
      rw [← rleDecBody_inLoop]
      exact piece_decRle_of_record (s := s.midway (w.inLoop .decRle []) q) hb rfl hlt)
    (s.input.length / Config.rleRec) (w := .init) rfl
  rw [rleDecompress, if_neg (not_not.2 hal)]
  cases h : rleDecode s.build.outMax s.input .init with
  | error k => exact herr k h
  | ok w =>
    have hend : inputDone s.input w = true := rleDecode_ends hal h
    refine .of_reaches (hok w h) (.of_piece fun q => ?_)
    rw [piece_decRle_of_done (s := s.midway (w.inLoop .decRle []) q) rfl hend, State.endDecompress_midway]
    rfl

/-- The LZ77 decoder runs to the result of its unit (rule R210). -/
theorem ends_lzDecode (hal : s.n % Config.lzRec = 0) :
    Ends s { Work.init with phase := .decLz } (s.endDecompress (lzDecompress s.build.outMax s.input)) := by
  rw [← s.length_input] at hal
  obtain ⟨hok, herr⟩ := reaches_tryLoop (s := s) (ph := .decLz) (cs := []) (done := inputDone s.input)
    (body := lzDecBody s.build.outMax s.input) (P := fun w => w.pos % Config.lzRec = 0)
    (fun w w' hw _ hbody => by
      obtain ⟨rec, out, -, rfl⟩ := lzRecordOp_ok hbody
      exact (Nat.add_mod_right w.pos 4).trans hw)
    (fun w hw hd q => by
      have hlt : w.pos + 3 < s.n := by
        rw [inputDone_false] at hd
        rw [← s.length_input]
        simp only [Config.lzRec] at hal hw
        omega
      rw [← lzDecBody_inLoop]
      exact piece_decLz_of_record (s := s.midway (w.inLoop .decLz []) q) hb rfl hlt)
    (s.input.length / Config.lzRec) (w := .init) rfl
  rw [lzDecompress, if_neg (not_not.2 hal)]
  cases h : lzDecode s.build.outMax s.input .init with
  | error k => exact herr k h
  | ok w =>
    have hend : inputDone s.input w = true := lzDecode_ends hal h
    refine .of_reaches (hok w h) (.of_piece fun q => ?_)
    rw [piece_decLz_of_done (s := s.midway (w.inLoop .decLz []) q) rfl hend, State.endDecompress_midway]
    rfl

omit hb in
/-- The bit walk runs to its result (rules R166 to R169). -/
theorem ends_walk (w : Work) (cs : List Candidate) :
    Ends s ((beginWalk w).inLoop .bits cs)
      (s.endDecompress ((walkBits s.input s.origSize.toNat (beginWalk w)).map Work.out)) := by
  obtain ⟨hok, herr⟩ := reaches_tryLoop (s := s) (ph := .bits) (cs := cs) (done := walkDone s.origSize.toNat)
    (body := walkBody s.input) (P := fun _ => True) (fun _ _ _ _ _ => trivial)
    (fun w' _ hd q => by
      rw [← walkBody_inLoop]
      exact next_of_neg (piece_bits (s := s.midway (w'.inLoop .bits cs) q) rfl) (ne_true_of_eq_false hd))
    (8 * s.input.length + 1) (w := beginWalk w) trivial
  rcases walkBits_cases s.input s.origSize.toNat w with ⟨w', hw', hlen, -⟩ | h
  · rw [hw']
    refine .of_reaches (hok w' hw') (.of_piece fun q => ?_)
    rw [next_of_pos (piece_bits (s := s.midway (w'.inLoop .bits cs) q) rfl) (walkDone_iff.2 hlen.ge),
      State.endDecompress_midway]
    rfl
  · rw [h]
    exact herr _ h

/-- The tree loader and the bit walk run to the result of the Huffman decoder (rule R161). -/
theorem ends_huffDecode (hone : 1 ≤ s.metaLen.toNat) (hmax : s.metaLen.toNat ≤ Config.nodeMax) :
    Ends s { Work.init with phase := .tree } (s.endDecompress
      (huffDecompress s.build.outMax s.input s.metaLen.toNat s.metaBytes s.origSize.toNat)) := by
  obtain ⟨hok, herr⟩ := reaches_tryLoop (s := s) (ph := .tree) (cs := []) (done := loadDone s.metaLen.toNat)
    (body := loadBody s.metaBytes) (P := fun _ => True) (fun _ _ _ _ _ => trivial)
    (fun w _ hd q => by
      rw [← loadBody_inLoop]
      exact piece_tree_of_record (s := s.midway (w.inLoop .tree []) q) hb rfl (loadDone_false.1 hd))
    s.metaLen.toNat (w := .init) trivial
  rw [huffDecompress, if_neg (Nat.ne_of_gt hone), if_neg (not_lt.2 hmax)]
  cases h : loadTree s.metaLen.toNat s.metaBytes .init with
  | error k => exact herr k h
  | ok w =>
    have hloaded : loadDone s.metaLen.toNat w = true := loadTree_ends h
    have hend := fun q => piece_tree_of_done (s := s.midway (w.inLoop .tree []) q) rfl hloaded
    refine .of_reaches (hok w h) ?_
    dsimp only
    split
    · next hsize => exact .of_piece fun q => next_of_pos (hend q) hsize
    · next hsize => exact .of_reaches (.single fun q => next_of_neg (hend q) hsize) (ends_walk w [])

end

/-! ### The commands -/

section
variable {s : State}

/-- The first piece of a command is its dispatch. -/
theorem piece_init (q : List Event) : (s.midway .init q).piece = (s.midway .init q).begin :=
  piece_fresh (s := s.midway .init q) rfl

/-- A compress command: the length test, then its attempts (rules R233, R250). -/
theorem ends_beginCompress {a : Alg} {t : State}
    (hbegin : ∀ q, (s.midway .init q).begin = .settled (.next ((s.midway .init q).beginCompress a)))
    (h : Ends s (beginAttempt a []) t) :
    Ends s .init (if s.build.inMax < s.n then s.raise .capacityExceeded else t) := by
  have hpiece : ∀ q, (s.midway .init q).piece.outcome =
      .next (if s.build.inMax < s.n then (s.raise .capacityExceeded).withAgenda q else s.midway (beginAttempt a []) q) :=
    fun q => by rw [piece_init, hbegin]; rfl
  split
  · next hn => exact .of_piece fun q => next_of_pos (hpiece q) hn
  · next hn => exact .of_reaches (.single fun q => next_of_neg (hpiece q) hn) h

theorem begin_compress {a : Alg} (hcmd : s.command = compressInstr a) :
    s.begin = .settled (.next (s.beginCompress a)) := by
  cases a <;> simp only [State.begin, hcmd, compressInstr]

/-- `COMPRESS` ends piece by piece in its completion step's state (rule R232). -/
theorem ends_compress {a : Alg} (hcmd : s.command = compressInstr a) : Ends s .init (s.compress a) := by
  have hsingle : ∀ alg, s.command ≠ .smartCompress alg := fun alg h => by
    rw [hcmd] at h
    cases a <;> cases h
  exact ends_beginCompress (fun q => begin_compress (s := s.midway .init q) hcmd) (ends_attempt_compress hsingle a [])

/-- A record decoder: the tests before any record, then its loop (rules R233, R283). -/
theorem ends_beginRecords {ph : Phase} {size : Nat} {t : State}
    (hbegin : ∀ q, (s.midway .init q).begin = .settled (.next ((s.midway .init q).beginRecords ph size)))
    (hal : s.n % size ≠ 0 → t = s.raise .malformedStream)
    (h : s.n % size = 0 → Ends s { Work.init with phase := ph } t) :
    Ends s .init (if s.build.inMax < s.n then s.raise .capacityExceeded else t) := by
  have hpiece : ∀ q, (s.midway .init q).piece.outcome =
      .next (if s.build.inMax < s.n then (s.raise .capacityExceeded).withAgenda q
        else if s.n % size ≠ 0 then (s.raise .malformedStream).withAgenda q
        else s.midway { Work.init with phase := ph } q) := fun q => by rw [piece_init, hbegin]; rfl
  split
  · next hn => exact .of_piece fun q => next_of_pos (hpiece q) hn
  · next hn =>
    by_cases hsize : s.n % size = 0
    · exact .of_reaches (.single fun q => next_of_neg (next_of_neg (hpiece q) hn) (not_not.2 hsize)) (h hsize)
    · rw [hal hsize]
      exact .of_piece fun q => next_of_pos (next_of_neg (hpiece q) hn) hsize

/-- The Huffman decoder: the tests before any record, then its loops (rules R161, R162, R233, R283). -/
theorem ends_beginHuffman (hb : s.state = .busy)
    (hbegin : ∀ q, (s.midway .init q).begin = .settled (.next (s.midway .init q).beginHuffman)) :
    Ends s .init (s.decompress .huffman) := by
  have hpiece : ∀ q, (s.midway .init q).piece.outcome =
      .next (if s.build.inMax < s.n then (s.raise .capacityExceeded).withAgenda q
        else if s.metaLen.toNat = 0 then
          (if s.origSize.toNat = 0 ∧ s.n = 0 then (s.endDecompress (.ok [])).withAgenda q
            else (s.raise .missingMetadata).withAgenda q)
        else if Config.nodeMax < s.metaLen.toNat then (s.raise .malformedStream).withAgenda q
        else s.midway { Work.init with phase := .tree } q) := fun q => by rw [piece_init, hbegin]; rfl
  unfold State.decompress
  split
  · next hn => exact .of_piece fun q => next_of_pos (hpiece q) hn
  next hn =>
  replace hpiece := fun q => next_of_neg (hpiece q) hn
  by_cases hzero : s.metaLen.toNat = 0
  · replace hpiece := fun q => next_of_pos (hpiece q) hzero
    rw [State.decompressed, huffDecompress, if_pos hzero, s.length_input]
    split
    · next hempty => exact .of_piece fun q => next_of_pos (hpiece q) hempty
    · next hempty => exact .of_piece fun q => next_of_neg (hpiece q) hempty
  replace hpiece := fun q => next_of_neg (hpiece q) hzero
  by_cases hmax : Config.nodeMax < s.metaLen.toNat
  · rw [State.decompressed, huffDecompress, if_neg hzero, if_pos hmax]
    exact .of_piece fun q => next_of_pos (hpiece q) hmax
  · exact .of_reaches (.single fun q => next_of_neg (hpiece q) hmax)
      (ends_huffDecode hb (Nat.one_le_iff_ne_zero.2 hzero) (not_lt.1 hmax))

/-- A command without loops is its own last piece. -/
theorem ends_run {f : State → State} (hb : s.state = .busy) (hf : ∀ q, f (s.midway .init q) = (f s).withAgenda q)
    (hexec : ∀ t, exec s.command t = whenBusy f t)
    (hbegin : ∀ q, (s.midway .init q).begin = .run s.command (s.midway .init q)) : Ends s .init (f s) :=
  .of_piece fun q => by
    rw [piece_init, hbegin, Act.outcome_run, hexec, whenBusy_of_busy (s := s.midway .init q) hb, hf]

/-- Every command ends piece by piece in the state its completion step answers. -/
theorem ends_command (hb : s.state = .busy) {i : Instr} (hi : i.format = .cmd8) (hcmd : s.command = i) :
    ∃ t, exec i s = .next t ∧ Ends s .init t := by
  have hbegin : ∀ q, (s.midway .init q).command = i := fun _ => hcmd
  cases i <;> cases hi
  case compressRle => exact ⟨_, whenBusy_of_busy hb, ends_compress (a := .rle) hcmd⟩
  case compressHuffman => exact ⟨_, whenBusy_of_busy hb, ends_compress (a := .huffman) hcmd⟩
  case compressLz77 => exact ⟨_, whenBusy_of_busy hb, ends_compress (a := .lz77) hcmd⟩
  case smartCompress alg =>
    exact ⟨_, whenBusy_of_busy hb, ends_beginCompress (fun q => by simp only [State.begin, hbegin])
      (ends_attempts_smart hcmd)⟩
  case decompressRle =>
    exact ⟨_, whenBusy_of_busy hb, ends_beginRecords (fun q => by simp only [State.begin, hbegin])
      (fun hal => by rw [State.decompressed, rleDecompress, s.length_input, if_pos hal]; rfl) (ends_rleDecode hb)⟩
  case decompressLz77 =>
    exact ⟨_, whenBusy_of_busy hb, ends_beginRecords (fun q => by simp only [State.begin, hbegin])
      (fun hal => by rw [State.decompressed, lzDecompress, s.length_input, if_pos hal]; rfl) (ends_lzDecode hb)⟩
  case decompressHuffman =>
    exact ⟨_, whenBusy_of_busy hb, ends_beginHuffman hb fun q => by simp only [State.begin, hbegin]⟩
  case compressUnsupported alg =>
    exact ⟨_, exec_compressUnsupported_of_busy hb alg, ends_run hb (fun _ => rfl)
      (fun t => by rw [hcmd, exec_compressUnsupported]) fun q => by simp only [State.begin, hbegin, hcmd]⟩
  case decompressUnsupported alg =>
    exact ⟨_, exec_decompressUnsupported_of_busy hb alg, ends_run hb (fun _ => rfl)
      (fun t => by rw [hcmd, exec_decompressUnsupported]) fun q => by simp only [State.begin, hbegin, hcmd]⟩
  case listAlgorithms alg =>
    exact ⟨_, whenBusy_of_busy hb, ends_run hb (fun _ => rfl) (fun t => by rw [hcmd, exec_listAlgorithms])
      fun q => by simp only [State.begin, hbegin, hcmd]⟩

end

/-- Settles O59: a command's pieces end in the state of its completion step, by its loops one after another. -/
theorem piecesMakeTheCompletionStep : Obligations.PiecesMakeTheCompletionStep := by
  intro s hb hwork hagenda
  obtain ⟨-, -, hi⟩ := encode_decodeCmd s.latched
  obtain ⟨t, hexec, hends⟩ := ends_command hb hi rfl
  obtain ⟨k, hend, hmid⟩ := hends.run hb
  have hstart : ∀ q, s.midway .init q = s.withAgenda q := fun q => by rw [State.midway, ← hwork]; rfl
  have hagenda' : t.agenda = [] := (sameInputs_of_exec hexec).agenda.trans hagenda
  refine ⟨k, ?_, fun j hj => ?_⟩
  · rw [← hstart, hend, hexec, ← hagenda']
    rfl
  · rw [← hstart]
    exact hmid j hj

end Sys2Proof.Machine
end
